-- ==== Sys2Proof/Word.lean ====
section
/-! DEFINITION. The word types of the block (10_state.md R20, 20_memory.md R50): a storage cell is a
64-bit word, a port address is a 7-bit word address. -/

namespace Sys2Proof

/-- One 64-bit storage cell (00_scope.md R18, "Word"). -/
abbrev Word := BitVec 64

/-- One byte of a bus access (20_memory.md R58). -/
abbrev Byte := BitVec 8

/-- A word address of the register port, 0x00 to 0x7F (20_memory.md R50). -/
abbrev Addr := BitVec 7

/-- A byte address inside the window a platform wrapper gives the port: word address `a` occupies the
byte addresses `8a` to `8a+7` (20_memory.md R58), so the window has 1024 bytes. -/
abbrev BusAddr := BitVec 10

/-- `u64(x)` of 00_scope.md R11. -/
def u64 (n : Nat) : Nat := n % 2 ^ 64

end Sys2Proof
end

