-- ==== Sys2Proof/Config.lean ====
section
/-! DEFINITION. What is fixed for the block (00_scope.md R9) and the free values: what the spec leaves
at "any value" (93_implementation_defined.md). A free value has no body, so nothing can be proved of
it but its width. -/

namespace Sys2Proof.Config

/-- NREG: the big registers are X0 to X3 (00_scope.md R9). -/
abbrev nReg : Nat := 4

/-- NWORD: words in a big register and in MOD (00_scope.md R9). -/
abbrev nWord : Nat := 9

/-- Slots of the FloatCIOS accumulator (00_scope.md R9, 44_float_cios.md R181). -/
abbrev f51Slots : Nat := 11

/-- The delayed-carry batching factor, for both widths (00_scope.md R9, 45_delayed_carry.md R197). -/
abbrev nsafe : Nat := 8

/-- FREE VALUE (93 U1, U3; log entries 4 and 6). The word a command leaves in word `k` of its
destination where the spec promises nothing but the width. `draw` is the model's counter of draws
(fresh at every use), `op` the command's opcode, `inputs` every word the command reads. -/
opaque freeWord (draw : Nat) (op : BitVec 8) (inputs : List Word) (k : Nat) : Word

/-- FREE VALUE (93 U1; log entry 4). The flag a compare or a subtraction writes where its
preconditions fail. -/
opaque freeFlag (draw : Nat) (op : BitVec 8) (inputs : List Word) : Bool

/-- FREE VALUE (93 U4; log entry 2). The content of data word `k` after a reset event: words 0 to 35
are X0 to X3, words 36 to 44 are MOD, word 45 is N0. -/
opaque freeResetWord (draw : Nat) (k : Nat) : Word

/-- FREE VALUE (44_float_cios.md R168; log entry 11). The result of a fused multiply-add `x·y + z`
that has an operand, or a result, which is no finite binary64: the spec gives no rule for it, and none
occurs under the preconditions of any command. -/
opaque freeFma (x y z : Word) : Word

/-- FREE VALUE (44_float_cios.md R168; log entry 11). The same for a binary64 subtraction `x − y`. -/
opaque freeFsub (x y : Word) : Word

end Sys2Proof.Config
end

