-- ==== Sys2Proof/Machine/Binary64.lean ====
section
/-! DEFINITION. IEEE-754 binary64 as far as the block uses it (00_scope.md R14, 44_float_cios.md R166,
R168): patterns of integers, fused multiply-add and subtraction, one rounding, to nearest, ties to
even. A finite number is handled as an exact integer multiple of 2^-1074. -/

namespace Sys2Proof.Machine

/-- Sign bit, w[63] (44_float_cios.md R166). -/
def f64Sign (w : Word) : Bool := w.toNat / 2 ^ 63 == 1

/-- Biased exponent, w[62:52]. -/
def f64Exp (w : Word) : Nat := w.toNat / 2 ^ 52 % 2 ^ 11

/-- Fraction, w[51:0]. -/
def f64Frac (w : Word) : Nat := w.toNat % 2 ^ 52

/-- The pattern is a finite number: not an infinity, not a NaN (44_float_cios.md R166). -/
def f64Finite (w : Word) : Bool := f64Exp w != 2047

/-- The magnitude of a finite number in units of 2^-1074 (44_float_cios.md R166): the exponent field e
≥ 1 scales 2^52 + f by 2^(e−1), a subnormal is f itself. -/
def f64Mag (w : Word) : Nat :=
  if f64Exp w = 0 then f64Frac w else (2 ^ 52 + f64Frac w) * 2 ^ (f64Exp w - 1)

/-- The value of a finite number in units of 2^-1074. -/
def f64Units (w : Word) : Int := if f64Sign w then -(f64Mag w : Int) else (f64Mag w : Int)

/-- The integer nearest to `n / 2^k`, the even one at a tie (44_float_cios.md R168). -/
def rneShift (n k : Nat) : Nat :=
  let q := n / 2 ^ k
  let r := 2 * (n % 2 ^ k)
  if r > 2 ^ k ∨ (r = 2 ^ k ∧ q % 2 = 1) then q + 1 else q

/-- The magnitude bits of the binary64 nearest to `n` units of 2^-2148, ties to even. With 53
significant bits kept, `n` loses its low `u` bits, where u is at least 1074 (the unit of the
subnormals); a carry out of the fraction runs into the exponent field, as it should. -/
def roundMag (n : Nat) : Nat :=
  let u := max (Nat.log2 n - 52) 1074
  (u - 1074) * 2 ^ 52 + rneShift n u

/-- `bits` of the exact value `v` (units of 2^-2148) rounded once; none where it leaves the finite
range. `negZero` is the sign of an exact zero. -/
def roundBits (negZero : Bool) (v : Int) : Option Word :=
  let mag := roundMag v.natAbs
  let neg := if v = 0 then negZero else decide (v < 0)
  if v = 0 then some (BitVec.ofNat 64 (if neg then 2 ^ 63 else 0))
  else if mag < 2047 * 2 ^ 52 then some (BitVec.ofNat 64 ((if neg then 2 ^ 63 else 0) + mag))
  else none

/-- `bits(fma(x, y, z))`: the exact x·y + z rounded once (00_scope.md R14). An exact zero is −0 only
where product and addend are both negative zeros (PRESUMED, log entry 11). Where an operand or the
result is not finite the spec gives no rule and the value is free (44_float_cios.md R168). -/
def fmaBits (x y z : Word) : Word :=
  if f64Finite x && f64Finite y && f64Finite z then
    (roundBits ((f64Sign x != f64Sign y) && f64Sign z)
      (f64Units x * f64Units y + f64Units z * (2 ^ 1074 : Nat))).getD (Config.freeFma x y z)
  else Config.freeFma x y z

/-- `bits(x − y)` rounded once (40_datapath_units.md R98); free where not finite, as `fmaBits`. -/
def fsubBits (x y : Word) : Word :=
  if f64Finite x && f64Finite y then
    (roundBits (f64Sign x && !f64Sign y)
      ((f64Units x - f64Units y) * (2 ^ 1074 : Nat))).getD (Config.freeFsub x y)
  else Config.freeFsub x y

/-- `bits(f64(n))` for an integer n below 2^53 (44_float_cios.md R166 (a)). -/
def f64OfNat (n : Nat) : Word :=
  if n = 0 then 0
  else
    let k := Nat.log2 n
    BitVec.ofNat 64 ((1023 + k) * 2 ^ 52 + (n - 2 ^ k) * 2 ^ (52 - k))

/-- `int(frombits(w))` for a word that holds a non-negative integer (00_scope.md R14). -/
def f64Int (w : Word) : Nat := f64Mag w / 2 ^ 1074

/-- A valid F51 word (10_state.md R34): +0.0, or sign 0 and a finite integer n with 1 ≤ n < 2^53. -/
def f51Valid (w : Word) : Bool :=
  !f64Sign w && f64Finite w && f64Mag w % 2 ^ 1074 == 0 && f64Mag w / 2 ^ 1074 < 2 ^ 53

end Sys2Proof.Machine
end

