-- ==== Sys2Proof/Machine/Datapath.lean ====
section
/-! DEFINITION. The shared datapath units on limb sequences (00_scope.md R12, 40_datapath_units.md R100
to R112): limb values, the carry-propagation unit, the comparator, the subtractor, the conditional
final subtraction and combination, and the quotient-digit derivator. Limbs are mathematical integers
(R89), least significant limb first (20_memory.md R57). -/

namespace Sys2Proof.Machine

/-! ### Limb sequences (00_scope.md R12) -/

/-- `val_W(a)`: the integer value of a limb sequence. -/
def val (W : Nat) : List Nat → Nat
  | [] => 0
  | a :: l => a + 2 ^ W * val W l

/-- `limbs_{L,W}(v)`: the limbs of an integer. -/
def limbsOf : Nat → Nat → Nat → List Nat
  | 0, _, _ => []
  | L + 1, W, v => v % 2 ^ W :: limbsOf L W (v / 2 ^ W)

/-- Every limb is in [0, 2^W) (00_scope.md R12, 10_state.md R35). -/
abbrev Canonical (W : Nat) (l : List Nat) : Prop := ∀ a ∈ l, a < 2 ^ W

/-! ### The carry-propagation unit -/

/-- Multiply-accumulate step with carry, 32-bit limbs, as (carry, sum) (40_datapath_units.md R100). -/
def mulAdd32 (t x y c : Nat) : Nat × Nat :=
  let v := t + x * y + c
  (v / 2 ^ 32, v % 2 ^ 32)

/-- Add-carry step, as (carry, sum) (40_datapath_units.md R101). -/
def addC (t c W : Nat) : Nat × Nat :=
  let v := t + c
  (v / 2 ^ W, v % 2 ^ W)

/-- `mulAdd32` along the limbs of `y` and `t` with the carry passed on: the words, then the last carry
(the inner loops of R140, R150). -/
def mulAddRow (x : Nat) : Nat → List Nat → List Nat → List Nat × Nat
  | c, t :: ts, y :: ys =>
    let step := mulAdd32 t x y c
    let rest := mulAddRow x step.1 ts ys
    (step.2 :: rest.1, rest.2)
  | c, _, _ => ([], c)

/-- `CarryPass` with a carry coming in (40_datapath_units.md R102, R103): limbs below the top one are
cut to W bits, the top limb is not masked. -/
def carryPassFrom (W : Nat) : Nat → List Nat → List Nat
  | _, [] => []
  | c, [t] => [t + c]
  | c, t :: u :: l => (t + c) % 2 ^ W :: carryPassFrom W ((t + c) / 2 ^ W) (u :: l)

/-- `CarryPass(S, W)` (40_datapath_units.md R102). -/
def carryPass (W : Nat) (S : List Nat) : List Nat := carryPassFrom W 0 S

/-! ### Comparator and subtractor -/

/-- `EqLimbs(a, b, L)`: limb-wise equality of whole stored integers (40_datapath_units.md R104). -/
def eqLimbs : List Nat → List Nat → Bool
  | a :: as, b :: bs => a == b && eqLimbs as bs
  | _, _ => true

/-- `SubLimbs` with a borrow coming in: the result limbs and the borrow out (40_datapath_units.md
R105). -/
def subLimbsFrom (W : Nat) : Bool → List Nat → List Nat → List Nat × Bool
  | bw, a :: as, b :: bs =>
    let t : Int := (a : Int) - (b : Int) - (bw.toNat : Int)
    let rest := subLimbsFrom W (decide (t < 0)) as bs
    ((t % (2 ^ W : Nat)).toNat :: rest.1, rest.2)
  | bw, _, _ => ([], bw)

/-- `SubLimbs(a, b, L, W)` (40_datapath_units.md R105). -/
def subLimbs (W : Nat) (a b : List Nat) : List Nat × Bool := subLimbsFrom W false a b

/-- Lexicographic greater-than, the first limbs deciding first. -/
def gtLex : List Nat → List Nat → Bool
  | a :: as, b :: bs => if a > b then true else if a < b then false else gtLex as bs
  | _, _ => false

/-- `GtLimbs(a, b, L)`: greater-than from the most significant limb down (40_datapath_units.md R106). -/
def gtLimbs (a b : List Nat) : Bool := gtLex a.reverse b.reverse

/-- `CondSub(c, m, L, W)`: the candidate, less the modulus where it is not smaller
(40_datapath_units.md R107). -/
def condSub (W : Nat) (c m : List Nat) : List Nat :=
  if gtLimbs m c then c else (subLimbs W c m).1

/-- `Combine(d, e, m, L, W)`: d − e, or m − (e − d) where e is greater (40_datapath_units.md R108). -/
def combine (W : Nat) (d e m : List Nat) : List Nat :=
  if gtLimbs e d then (subLimbs W m (subLimbs W e d).1).1 else (subLimbs W d e).1

/-! ### The quotient-digit derivator -/

/-- `QDigit(t0, n0, W)` (40_datapath_units.md R110). -/
def qDigit (t0 n0 W : Nat) : Nat := ((t0 % 2 ^ W) * n0) % 2 ^ W

/-- `QDigitBM(mu, b0, aj, d0, e0)` (40_datapath_units.md R111); the difference of the two low words is
taken modulo 2^32. -/
def qDigitBM (mu b0 aj d0 e0 : Nat) : Nat :=
  (((mu * b0) % 2 ^ 32) * aj + mu * (((d0 : Int) - (e0 : Int)) % (2 ^ 32 : Nat)).toNat) % 2 ^ 32

/-- `QDigit51(t0, n0)`: the 51-bit digit from 32-bit halves (40_datapath_units.md R112). -/
def qDigit51 (t0 n0 : Nat) : Nat :=
  let t := t0 % 2 ^ 51
  let tl := t % 2 ^ 32
  let th := t / 2 ^ 32
  let nl := n0 % 2 ^ 32
  let nh := n0 / 2 ^ 32
  let lo := tl * nl
  let mid := (tl * nh + th * nl) % 2 ^ 19
  (lo + mid * 2 ^ 32) % 2 ^ 51

end Sys2Proof.Machine
end

