-- ==== Sys2Proof/Syntax.lean ====
section
/-! DEFINITION. The commands of the block as syntax (30_encoding.md R73), one constructor for each row
of the opcode table, and the raw fields of a command word (R70). -/

namespace Sys2Proof

/-- A big register, X0 to X3: the value of a 2-bit register field (30_encoding.md R71). -/
abbrev Reg := Fin Config.nReg

/-- The four command formats, told apart by the register fields they use (30_encoding.md R72). -/
inductive Format where
  /-- OPC, RD -/
  | Z
  /-- OPC, RA, RB -/
  | C
  /-- OPC, RD, RA, RB -/
  | R3
  /-- OPC, RD, RA -/
  | R2
  deriving DecidableEq, Repr

/-- The eighteen commands (30_encoding.md R73), operands in the order RD, RA, RB (R79). -/
inductive Instr where
  /-- ZERO Xd (R120) -/
  | zero (rd : Reg)
  /-- CMPEQ.32 Xa, Xb (R121) -/
  | cmpEq32 (ra rb : Reg)
  /-- CMPEQ.30 Xa, Xb (R122) -/
  | cmpEq30 (ra rb : Reg)
  /-- CMPEQ.29 Xa, Xb (R123) -/
  | cmpEq29 (ra rb : Reg)
  /-- CMPGT.32 Xa, Xb (R124) -/
  | cmpGt32 (ra rb : Reg)
  /-- CMPGT.30 Xa, Xb (R125) -/
  | cmpGt30 (ra rb : Reg)
  /-- CMPGT.29 Xa, Xb (R126) -/
  | cmpGt29 (ra rb : Reg)
  /-- SUB.32 Xd, Xa, Xb (R127) -/
  | sub32 (rd ra rb : Reg)
  /-- SUB.30 Xd, Xa, Xb (R128) -/
  | sub30 (rd ra rb : Reg)
  /-- SUB.29 Xd, Xa, Xb (R129) -/
  | sub29 (rd ra rb : Reg)
  /-- MUL.CIOS32 Xd, Xa, Xb (R140) -/
  | mulCios32 (rd ra rb : Reg)
  /-- MUL.BM17S Xd, Xa, Xb (R150) -/
  | mulBm17s (rd ra rb : Reg)
  /-- MUL.BM17V Xd, Xa, Xb (R151) -/
  | mulBm17v (rd ra rb : Reg)
  /-- MUL.F51 Xd, Xa, Xb (R180) -/
  | mulF51 (rd ra rb : Reg)
  /-- MUL.DC30 Xd, Xa, Xb (R195) -/
  | mulDc30 (rd ra rb : Reg)
  /-- MUL.DC29 Xd, Xa, Xb (R196) -/
  | mulDc29 (rd ra rb : Reg)
  /-- RESOLVE.F51 Xd, Xa (R205) -/
  | resolveF51 (rd ra : Reg)
  /-- REDUCE.F51 Xd, Xa (R208) -/
  | reduceF51 (rd ra : Reg)
  deriving DecidableEq, Repr

/-- The five fields of a 64-bit command word (30_encoding.md R70); `z` is bits 63:14. -/
structure Fields where
  opc : BitVec 8
  rd : BitVec 2
  ra : BitVec 2
  rb : BitVec 2
  z : BitVec 50
  deriving DecidableEq, Repr

/-- The register operands of a command, in the order RD, RA, RB (30_encoding.md R79). -/
def Instr.operands : Instr → List Reg
  | .zero rd => [rd]
  | .cmpEq32 ra rb | .cmpEq30 ra rb | .cmpEq29 ra rb => [ra, rb]
  | .cmpGt32 ra rb | .cmpGt30 ra rb | .cmpGt29 ra rb => [ra, rb]
  | .sub32 rd ra rb | .sub30 rd ra rb | .sub29 rd ra rb => [rd, ra, rb]
  | .mulCios32 rd ra rb | .mulBm17s rd ra rb | .mulBm17v rd ra rb => [rd, ra, rb]
  | .mulF51 rd ra rb | .mulDc30 rd ra rb | .mulDc29 rd ra rb => [rd, ra, rb]
  | .resolveF51 rd ra | .reduceF51 rd ra => [rd, ra]

/-- The big register a command writes, if it writes one (10_state.md R23). -/
def Instr.dest? : Instr → Option Reg
  | .zero rd => some rd
  | .cmpEq32 _ _ | .cmpEq30 _ _ | .cmpEq29 _ _ => none
  | .cmpGt32 _ _ | .cmpGt30 _ _ | .cmpGt29 _ _ => none
  | .sub32 rd _ _ | .sub30 rd _ _ | .sub29 rd _ _ => some rd
  | .mulCios32 rd _ _ | .mulBm17s rd _ _ | .mulBm17v rd _ _ => some rd
  | .mulF51 rd _ _ | .mulDc30 rd _ _ | .mulDc29 rd _ _ => some rd
  | .resolveF51 rd _ | .reduceF51 rd _ => some rd

end Sys2Proof
end

