-- ==== Sys2Proof/WellFormed.lean ====
section
/-! DEFINITION. When a command is well formed. The operand of a command is one of four registers by
its type (30_encoding.md R71), so the check of an `Instr` is met by every term; the checks that can
fail are those of a raw command word's fields (R71, R72, R74, R75). -/

namespace Sys2Proof

/-- The register fields a format uses, as (RD, RA, RB) (30_encoding.md R72). -/
def Format.uses : Format → Bool × Bool × Bool
  | .Z => (true, false, false)
  | .C => (false, true, true)
  | .R3 => (true, true, true)
  | .R2 => (true, true, false)

/-- The format of an assigned opcode, none for the 238 unassigned ones (30_encoding.md R73, R75). -/
def formatOf? (opc : BitVec 8) : Option Format :=
  if opc = 0x01#8 then some .Z
  else if opc ∈ [0x10#8, 0x11#8, 0x12#8, 0x14#8, 0x15#8, 0x16#8] then some .C
  else if opc ∈ [0x18#8, 0x19#8, 0x1A#8, 0x20#8, 0x21#8, 0x22#8, 0x23#8, 0x24#8, 0x25#8] then some .R3
  else if opc ∈ [0x30#8, 0x31#8] then some .R2
  else none

/-- Bits 63:14 are zero (30_encoding.md R70, R74). -/
def Fields.upperZero (f : Fields) : Bool := f.z == 0

/-- The opcode is one of the eighteen (30_encoding.md R73, R74). -/
def Fields.opcodeAssigned (f : Fields) : Bool := (formatOf? f.opc).isSome

/-- Every register field the format does not use is zero (30_encoding.md R71, R74). -/
def Fields.unusedZero (f : Fields) : Bool :=
  match formatOf? f.opc with
  | none => true
  | some fmt =>
    (fmt.uses.1 || f.rd == 0) && (fmt.uses.2.1 || f.ra == 0) && (fmt.uses.2.2 || f.rb == 0)

/-- A raw command word is legal (30_encoding.md R74). -/
def Fields.wellFormed (f : Fields) : Bool :=
  f.upperZero && f.opcodeAssigned && f.unusedZero

/-- Every register operand names one of X0 to X3 (30_encoding.md R71). -/
def Instr.wellFormed (i : Instr) : Bool :=
  i.operands.all fun r => r.val < Config.nReg

end Sys2Proof
end

