-- ==== Sys2Proof/Decode.lean ====
section
/-! DEFINITION. The command decoder (30_encoding.md R74), total on all 64-bit words and rejecting by
name, the encoder (R79), and the opcode table as mask and match rows (R72, R73). -/

namespace Sys2Proof

/-- Why a command word is illegal. The block does not tell these apart (60_exceptions.md R222): each
sets the same flag. The names are the model's own (log entry 14). -/
inductive Illegal where
  /-- a bit among 63:14 is set -/
  | upperBits
  /-- the opcode is none of the eighteen -/
  | opcode (opc : BitVec 8)
  /-- a register field the format does not use is not zero -/
  | unusedField
  deriving DecidableEq, Repr

/-- Split a command word into its fields (30_encoding.md R70). -/
def Fields.ofWord (w : Word) : Fields where
  opc := w.extractLsb' 0 8
  rd := w.extractLsb' 8 2
  ra := w.extractLsb' 10 2
  rb := w.extractLsb' 12 2
  z := w.extractLsb' 14 50

/-- The word made of these fields (30_encoding.md R70). -/
def Fields.toWord (f : Fields) : Word := f.z ++ f.rb ++ f.ra ++ f.rd ++ f.opc

/-- The register a 2-bit field names (30_encoding.md R71). -/
def regOfField (b : BitVec 2) : Reg := b.toFin

/-- The 2-bit field that names a register (30_encoding.md R71). -/
def fieldOfReg (r : Reg) : BitVec 2 := BitVec.ofFin r

/-- Format Z: RA and RB must be zero (30_encoding.md R72). -/
def decodeZ (f : Fields) (k : Reg → Instr) : Except Illegal Instr :=
  if f.ra = 0 ∧ f.rb = 0 then .ok (k (regOfField f.rd)) else .error .unusedField

/-- Format C: RD must be zero (30_encoding.md R72). -/
def decodeC (f : Fields) (k : Reg → Reg → Instr) : Except Illegal Instr :=
  if f.rd = 0 then .ok (k (regOfField f.ra) (regOfField f.rb)) else .error .unusedField

/-- Format R3: every register field is used (30_encoding.md R72). -/
def decodeR3 (f : Fields) (k : Reg → Reg → Reg → Instr) : Except Illegal Instr :=
  .ok (k (regOfField f.rd) (regOfField f.ra) (regOfField f.rb))

/-- Format R2: RB must be zero (30_encoding.md R72). -/
def decodeR2 (f : Fields) (k : Reg → Reg → Instr) : Except Illegal Instr :=
  if f.rb = 0 then .ok (k (regOfField f.rd) (regOfField f.ra)) else .error .unusedField

/-- The opcode map (30_encoding.md R73) on fields whose upper bits are zero. -/
def decodeOpcode (f : Fields) : Except Illegal Instr :=
  match f.opc.toNat with
  | 0x01 => decodeZ f .zero
  | 0x10 => decodeC f .cmpEq32
  | 0x11 => decodeC f .cmpEq30
  | 0x12 => decodeC f .cmpEq29
  | 0x14 => decodeC f .cmpGt32
  | 0x15 => decodeC f .cmpGt30
  | 0x16 => decodeC f .cmpGt29
  | 0x18 => decodeR3 f .sub32
  | 0x19 => decodeR3 f .sub30
  | 0x1A => decodeR3 f .sub29
  | 0x20 => decodeR3 f .mulCios32
  | 0x21 => decodeR3 f .mulBm17s
  | 0x22 => decodeR3 f .mulBm17v
  | 0x23 => decodeR3 f .mulF51
  | 0x24 => decodeR3 f .mulDc30
  | 0x25 => decodeR3 f .mulDc29
  | 0x30 => decodeR2 f .resolveF51
  | 0x31 => decodeR2 f .reduceF51
  | _ => .error (.opcode f.opc)

/-- Decoding on fields, in the order of 30_encoding.md R74: upper bits, opcode, unused fields. -/
def decodeFields (f : Fields) : Except Illegal Instr :=
  if f.z ≠ 0 then .error .upperBits else decodeOpcode f

/-- The decoder: every 64-bit word is one legal command or illegal (30_encoding.md R74). -/
def decode (w : Word) : Except Illegal Instr := decodeFields (Fields.ofWord w)

/-- The opcode of each command (30_encoding.md R73). -/
def Instr.opcode : Instr → BitVec 8
  | .zero _ => 0x01
  | .cmpEq32 _ _ => 0x10
  | .cmpEq30 _ _ => 0x11
  | .cmpEq29 _ _ => 0x12
  | .cmpGt32 _ _ => 0x14
  | .cmpGt30 _ _ => 0x15
  | .cmpGt29 _ _ => 0x16
  | .sub32 _ _ _ => 0x18
  | .sub30 _ _ _ => 0x19
  | .sub29 _ _ _ => 0x1A
  | .mulCios32 _ _ _ => 0x20
  | .mulBm17s _ _ _ => 0x21
  | .mulBm17v _ _ _ => 0x22
  | .mulF51 _ _ _ => 0x23
  | .mulDc30 _ _ _ => 0x24
  | .mulDc29 _ _ _ => 0x25
  | .resolveF51 _ _ => 0x30
  | .reduceF51 _ _ => 0x31

/-- The fields of a command: the fields its format does not use are zero (30_encoding.md R71). -/
def Instr.fields : Instr → Fields
  | i@(.zero rd) => ⟨i.opcode, fieldOfReg rd, 0, 0, 0⟩
  | i@(.cmpEq32 ra rb) => ⟨i.opcode, 0, fieldOfReg ra, fieldOfReg rb, 0⟩
  | i@(.cmpEq30 ra rb) => ⟨i.opcode, 0, fieldOfReg ra, fieldOfReg rb, 0⟩
  | i@(.cmpEq29 ra rb) => ⟨i.opcode, 0, fieldOfReg ra, fieldOfReg rb, 0⟩
  | i@(.cmpGt32 ra rb) => ⟨i.opcode, 0, fieldOfReg ra, fieldOfReg rb, 0⟩
  | i@(.cmpGt30 ra rb) => ⟨i.opcode, 0, fieldOfReg ra, fieldOfReg rb, 0⟩
  | i@(.cmpGt29 ra rb) => ⟨i.opcode, 0, fieldOfReg ra, fieldOfReg rb, 0⟩
  | i@(.sub32 rd ra rb) => ⟨i.opcode, fieldOfReg rd, fieldOfReg ra, fieldOfReg rb, 0⟩
  | i@(.sub30 rd ra rb) => ⟨i.opcode, fieldOfReg rd, fieldOfReg ra, fieldOfReg rb, 0⟩
  | i@(.sub29 rd ra rb) => ⟨i.opcode, fieldOfReg rd, fieldOfReg ra, fieldOfReg rb, 0⟩
  | i@(.mulCios32 rd ra rb) => ⟨i.opcode, fieldOfReg rd, fieldOfReg ra, fieldOfReg rb, 0⟩
  | i@(.mulBm17s rd ra rb) => ⟨i.opcode, fieldOfReg rd, fieldOfReg ra, fieldOfReg rb, 0⟩
  | i@(.mulBm17v rd ra rb) => ⟨i.opcode, fieldOfReg rd, fieldOfReg ra, fieldOfReg rb, 0⟩
  | i@(.mulF51 rd ra rb) => ⟨i.opcode, fieldOfReg rd, fieldOfReg ra, fieldOfReg rb, 0⟩
  | i@(.mulDc30 rd ra rb) => ⟨i.opcode, fieldOfReg rd, fieldOfReg ra, fieldOfReg rb, 0⟩
  | i@(.mulDc29 rd ra rb) => ⟨i.opcode, fieldOfReg rd, fieldOfReg ra, fieldOfReg rb, 0⟩
  | i@(.resolveF51 rd ra) => ⟨i.opcode, fieldOfReg rd, fieldOfReg ra, 0, 0⟩
  | i@(.reduceF51 rd ra) => ⟨i.opcode, fieldOfReg rd, fieldOfReg ra, 0, 0⟩

/-- The encoder: the command word of a command (30_encoding.md R70, R79). -/
def encode (i : Instr) : Word := i.fields.toWord

/-- The mask of a format: a 1 in every bit that must equal the match value (30_encoding.md R72). -/
def Format.mask : Format → Word
  | .Z => 0xFFFFFFFFFFFFFCFF
  | .C => 0xFFFFFFFFFFFFC3FF
  | .R3 => 0xFFFFFFFFFFFFC0FF
  | .R2 => 0xFFFFFFFFFFFFF0FF

/-- The opcode table as (match value, format) rows (30_encoding.md R72, R73). -/
def opcodeTable : List (Word × Format) :=
  [ (0x01, .Z),
    (0x10, .C), (0x11, .C), (0x12, .C), (0x14, .C), (0x15, .C), (0x16, .C),
    (0x18, .R3), (0x19, .R3), (0x1A, .R3),
    (0x20, .R3), (0x21, .R3), (0x22, .R3), (0x23, .R3), (0x24, .R3), (0x25, .R3),
    (0x30, .R2), (0x31, .R2) ]

/-- A command word selects a row when `c & mask = match` (30_encoding.md R72). -/
def rowSelects (row : Word × Format) (c : Word) : Bool := c &&& row.2.mask == row.1

/-- The mnemonic of a command (30_encoding.md R73). -/
def Instr.mnemonic : Instr → String
  | .zero _ => "ZERO"
  | .cmpEq32 _ _ => "CMPEQ.32"
  | .cmpEq30 _ _ => "CMPEQ.30"
  | .cmpEq29 _ _ => "CMPEQ.29"
  | .cmpGt32 _ _ => "CMPGT.32"
  | .cmpGt30 _ _ => "CMPGT.30"
  | .cmpGt29 _ _ => "CMPGT.29"
  | .sub32 _ _ _ => "SUB.32"
  | .sub30 _ _ _ => "SUB.30"
  | .sub29 _ _ _ => "SUB.29"
  | .mulCios32 _ _ _ => "MUL.CIOS32"
  | .mulBm17s _ _ _ => "MUL.BM17S"
  | .mulBm17v _ _ _ => "MUL.BM17V"
  | .mulF51 _ _ _ => "MUL.F51"
  | .mulDc30 _ _ _ => "MUL.DC30"
  | .mulDc29 _ _ _ => "MUL.DC29"
  | .resolveF51 _ _ => "RESOLVE.F51"
  | .reduceF51 _ _ => "REDUCE.F51"

/-- The name of a register in assembler syntax (30_encoding.md R79). -/
def Reg.asm (r : Reg) : String := "X" ++ toString r.val

/-- A command line in assembler syntax: the mnemonic, then the operands RD, RA, RB that the format
uses, separated by commas (30_encoding.md R79). -/
def Instr.asm (i : Instr) : String :=
  i.mnemonic ++ " " ++ ", ".intercalate (i.operands.map Reg.asm)

/-- The instruction this decoder reads from an instruction of `nbits` bits with the value `w`. A
command is one 64-bit word (30_encoding.md R70, R78); bits above `nbits` are zero, and a value that
needs more than 64 bits is no command (log entry 19). -/
def decodeTableWord (nbits w : Nat) : Option Instr :=
  let c := w % 2 ^ nbits
  if c < 2 ^ 64 then (decode (BitVec.ofNat 64 c)).toOption else none

end Sys2Proof
end

