-- ==== Sys2Proof/Machine/State.lean ====
section
/-! DEFINITION. The architectural state of one block (10_state.md R20), the host operations that drive
it, and the state after reset (R40). Plain data throughout. -/

namespace Sys2Proof.Machine

/-- A big register or MOD: nine 64-bit words, word 0 first (10_state.md R21, R24). -/
abbrev BigReg := Vector Word Config.nWord

/-- STATUS: four one-bit fields (10_state.md R20, R26). -/
structure Status where
  /-- bit 0: borrow out of the last SUB.w -/
  borrow : Bool
  /-- bit 1: result of the last CMPEQ.w -/
  eq : Bool
  /-- bit 2: result of the last CMPGT.w -/
  gt : Bool
  /-- bit 3: an illegal command was written since reset (sticky, 60_exceptions.md R217) -/
  err : Bool
  deriving DecidableEq, Repr

/-- One thing the world outside does to the block: a port transaction (20_memory.md R50), a reset
event (70_reset_and_hazards.md R240), or an access on a byte-addressed bus that the platform wrapper
turns into a port transaction or refuses (20_memory.md R58, R59). -/
inductive HostOp where
  /-- `RegWrite(addr, v)`; at address 0x51 it runs the command `v` (R53) -/
  | regWrite (a : Addr) (v : Word)
  /-- `RegRead(addr)` -/
  | regRead (a : Addr)
  /-- the external reset event -/
  | reset
  /-- a bus write of some bytes, the byte of the lowest address first -/
  | busWrite (a : BusAddr) (bytes : List Byte)
  /-- a bus read of `size` bytes -/
  | busRead (a : BusAddr) (size : Nat)
  deriving DecidableEq, Repr

/-- What comes back to the host. A write gives nothing back (60_exceptions.md R216). -/
inductive Reply where
  /-- the word a RegRead returns (20_memory.md R50) -/
  | data (w : Word)
  /-- the bytes a bus read returns, the byte of the lowest address first (R58) -/
  | bytes (l : List Byte)
  /-- the wrapper refused the access; the block did not see it (R59) -/
  | busError
  deriving DecidableEq, Repr

/-- What a port address names (20_memory.md R51). -/
inductive PortLoc where
  /-- word `k` of big register `r` -/
  | x (r : Reg) (k : Fin Config.nWord)
  /-- word `k` of MOD -/
  | modulus (k : Fin Config.nWord)
  | n0
  | cmd
  | status
  /-- reads 0, ignores writes (R55) -/
  | reserved
  deriving DecidableEq, Repr

/-- The reasons a step could stop with a fault: NONE. Every CMD write is a completed command or the
IllegalCommand event, which is a next state, and no port access faults (60_exceptions.md R215, R229;
20_memory.md R55). Nobody raises it (log entry 16). -/
inductive Fault where
  deriving DecidableEq, Repr

/-- The reasons a step could be refused. -/
inductive Refusal where
  /-- raised only by an arm of `exec` whose command has no meaning yet; no arm is left so. Safe: the
  model stops where the hardware goes on. -/
  | notModelled (mnemonic : String)
  deriving DecidableEq, Repr

/-- The state of the model: the spec's architectural state (10_state.md R20), and three fields of the
model's own (log entries 3 and 7). -/
structure State where
  /-- X0 to X3 (R21) -/
  x : Vector BigReg Config.nReg
  /-- MOD (R24) -/
  modulus : BigReg
  /-- N0 (R25) -/
  n0 : Word
  /-- STATUS (R26) -/
  status : Status
  /-- MODEL'S OWN: the host operations still to be performed, the next one first. They are parameters
  of steps (R20), in the one total order of 20_memory.md R61. -/
  pending : List HostOp
  /-- MODEL'S OWN: what was returned to the host, newest first. -/
  replies : List Reply
  /-- MODEL'S OWN: how many times free values were drawn. -/
  draws : Nat
  deriving DecidableEq, Repr

/-- Nine words of zero. -/
def BigReg.zero : BigReg := #v[0, 0, 0, 0, 0, 0, 0, 0, 0]

/-- The four flags at 0 (10_state.md R40). -/
def Status.reset : Status := ⟨false, false, false, false⟩

/-- The machine right after reset (10_state.md R40, 70_reset_and_hazards.md R240): STATUS is 0. The
spec leaves X0 to X3, MOD and N0 unspecified; their zeros here are the model's choice (DESIGN CHOICE,
log entry 1), as are the model's own three fields (log entries 3, 7, 9). -/
def State.reset : State where
  x := #v[BigReg.zero, BigReg.zero, BigReg.zero, BigReg.zero]
  modulus := BigReg.zero
  n0 := 0
  status := Status.reset
  pending := []
  replies := []
  draws := 0

end Sys2Proof.Machine
end

