-- ==== Sys2Proof/Machine/Ops.lean ====
section
/-! DEFINITION. The named operations over the state: register access, the register port
(20_memory.md), taking the one error event (60_exceptions.md R216), the reset event
(70_reset_and_hazards.md R240) and the draw of free values. -/

namespace Sys2Proof.Machine

/-! ### Registers -/

/-- `X[r]` (00_scope.md R13). -/
def State.reg (s : State) (r : Reg) : BigReg := s.x.get r

/-- `X[r] <- v`. -/
def State.setReg (s : State) (r : Reg) (v : BigReg) : State :=
  { s with x := s.x.set r.val v r.isLt }

/-- Word `k` of a nine-word register. -/
def BigReg.word (v : BigReg) (k : Fin Config.nWord) : Word := v.get k

/-- Replace word `k` of a nine-word register. -/
def BigReg.setWord (v : BigReg) (k : Fin Config.nWord) (w : Word) : BigReg := v.set k.val w k.isLt

/-- The register a command writes from its result words: words past the result are 0, the zero fill of
10_state.md R44. -/
def BigReg.ofWords (l : List Word) : BigReg :=
  #v[l.getD 0 0, l.getD 1 0, l.getD 2 0, l.getD 3 0, l.getD 4 0, l.getD 5 0, l.getD 6 0, l.getD 7 0,
     l.getD 8 0]

/-- The words of result limbs, each an unsigned integer put in a 64-bit word. -/
def wordsOfLimbs (l : List Nat) : List Word := l.map (BitVec.ofNat 64)

/-! ### The error event (60_exceptions.md R216, R223, R224)

Taking the event saves nothing, transfers nothing and changes no mode: its whole effect is the flag.
There is no return from it. -/

/-- `raise IllegalCommand`: STATUS.ERR becomes 1 and nothing else changes (60_exceptions.md R216). -/
def raiseIllegal (s : State) : State := { s with status := { s.status with err := true } }

/-! ### Free values (93_implementation_defined.md, "any value") -/

/-- A command leaves words 0 to `len − 1` of RD at any value, words `len` to 8 at 0, and changes
nothing else (93 U1, U3; 00_scope.md R15). -/
def freeResult (op : BitVec 8) (inputs : List Word) (len : Nat) (rd : Reg) (s : State) : State :=
  { s.setReg rd (BigReg.ofWords ((List.range len).map (Config.freeWord s.draws op inputs))) with
    draws := s.draws + 1 }

/-- Write the result limbs of a command to RD where its preconditions hold, any value elsewhere
(00_scope.md R15: the pseudocode of a rule is normative only under its preconditions). -/
def commitLimbs (op : BitVec 8) (inputs : List Word) (len : Nat) (defined : Bool)
    (result : List Nat) (rd : Reg) (s : State) : State :=
  if defined then s.setReg rd (BigReg.ofWords (wordsOfLimbs result))
  else freeResult op inputs len rd s

/-! ### The register port (20_memory.md R50 to R55) -/

/-- The address map (20_memory.md R51). -/
def portLoc (a : Addr) : PortLoc :=
  if hk : a.toNat % 16 < Config.nWord then
    if hr : a.toNat / 16 < Config.nReg then .x ⟨a.toNat / 16, hr⟩ ⟨a.toNat % 16, hk⟩
    else if a.toNat / 16 = 4 then .modulus ⟨a.toNat % 16, hk⟩
    else if a.toNat = 0x50 then .n0
    else if a.toNat = 0x51 then .cmd
    else if a.toNat = 0x52 then .status
    else .reserved
  else .reserved

/-- The word address of word `k` of big register `r` (20_memory.md R51). -/
def xAddr (r : Reg) (k : Fin Config.nWord) : Addr := BitVec.ofNat 7 (0x10 * r.val + k.val)

/-- The word address of `MOD[k]` (20_memory.md R51). -/
def modAddr (k : Fin Config.nWord) : Addr := BitVec.ofNat 7 (0x40 + k.val)

/-- The word address of N0 (20_memory.md R51). -/
def n0Addr : Addr := 0x50

/-- The word address of CMD (20_memory.md R51). -/
def cmdAddr : Addr := 0x51

/-- The word address of STATUS (20_memory.md R51). -/
def statusAddr : Addr := 0x52

/-- The word address of what a port address names; none for the reserved ones (20_memory.md R51). -/
def PortLoc.addr? : PortLoc → Option Addr
  | .x r k => some (xAddr r k)
  | .modulus k => some (modAddr k)
  | .n0 => some n0Addr
  | .cmd => some cmdAddr
  | .status => some statusAddr
  | .reserved => none

/-- The STATUS word: BORROW + 2·EQ + 4·GT + 8·ERR, bits 63:4 zero (20_memory.md R54, 10_state.md R26). -/
def Status.word (t : Status) : Word :=
  BitVec.ofNat 64 (t.borrow.toNat + 2 * t.eq.toNat + 4 * t.gt.toNat + 8 * t.err.toNat)

/-- The word `RegRead(a)` returns (20_memory.md R52, R54, R55). It changes nothing. -/
def portRead (s : State) (a : Addr) : Word :=
  match portLoc a with
  | .x r k => (s.reg r).word k
  | .modulus k => s.modulus.word k
  | .n0 => s.n0
  | .cmd => 0
  | .status => s.status.word
  | .reserved => 0

/-- The effect of `RegWrite(a, v)` as a store (20_memory.md R52, R55). A write to CMD stores nothing
(10_state.md R28); what it executes is `runHostOp`'s matter. -/
def portStore (a : Addr) (v : Word) (s : State) : State :=
  match portLoc a with
  | .x r k => s.setReg r ((s.reg r).setWord k v)
  | .modulus k => { s with modulus := s.modulus.setWord k v }
  | .n0 => { s with n0 := v }
  | .cmd => s
  | .status => s
  | .reserved => s

/-- Give a reply to the host. -/
def State.reply (s : State) (r : Reply) : State := { s with replies := r :: s.replies }

/-- Put a host operation before all pending ones. -/
def State.queueFirst (s : State) (op : HostOp) : State := { s with pending := op :: s.pending }

/-! ### The bus wrapper (20_memory.md R58, R59) -/

/-- The word address of an aligned 8-byte access; none for every other access, which the wrapper
refuses (20_memory.md R59). -/
def busWordAddr (a : BusAddr) (size : Nat) : Option Addr :=
  if size = 8 ∧ a.toNat % 8 = 0 then some (BitVec.ofNat 7 (a.toNat / 8)) else none

/-- Eight bytes as a word, the byte at the lowest address in bits 7:0 (20_memory.md R58). -/
def wordOfBytes : List Byte → Word
  | [] => 0
  | b :: bs => (b.setWidth 64) ||| (wordOfBytes bs <<< 8)

/-- A word as eight bytes, bits 7:0 at the lowest address (20_memory.md R58). -/
def bytesOfWord (w : Word) : List Byte :=
  (List.range 8).map fun i => w.extractLsb' (8 * i) 8

/-! ### The reset event (70_reset_and_hazards.md R240, R241) -/

/-- Nine free words, from index `base` of the reset draw. -/
def freeResetReg (draw base : Nat) : BigReg :=
  BigReg.ofWords ((List.range 9).map fun k => Config.freeResetWord draw (base + k))

/-- Reset: STATUS becomes 0, every data word becomes some unspecified word, chosen anew at every reset
(70_reset_and_hazards.md R240, R241; 93 U4). The operations the host still has to issue are outside
the block and stay. -/
def resetBlock (s : State) : State :=
  { s with
    x := #v[freeResetReg s.draws 0, freeResetReg s.draws 9, freeResetReg s.draws 18,
            freeResetReg s.draws 27]
    modulus := freeResetReg s.draws 36
    n0 := Config.freeResetWord s.draws 45
    status := Status.reset
    draws := s.draws + 1 }

end Sys2Proof.Machine
end

