-- ==== Sys2Proof/Machine/Operands.lean ====
section
/-! DEFINITION. The operand forms: how a command reads a nine-word register in the formats I32, I30,
I29, F51 and U51 (10_state.md R22, R34, R35, R36), and the words it reads. -/

namespace Sys2Proof.Machine

/-- The words 0 to L−1 of a register; words at index L and above are never read (10_state.md R22). -/
def BigReg.firstWords (v : BigReg) (L : Nat) : List Word := v.toList.take L

/-- The words 0 to L−1 as integers: the limbs of an integer format or of U51 (10_state.md R22, R36). -/
def BigReg.limbs (v : BigReg) (L : Nat) : List Nat := (v.firstWords L).map BitVec.toNat

/-- The limbs as format I32: eight limbs of 32 bits (00_scope.md R7). -/
def BigReg.i32 (v : BigReg) : List Nat := v.limbs 8

/-- The limbs as format I30 or I29: nine limbs (00_scope.md R7). -/
def BigReg.i9 (v : BigReg) : List Nat := v.limbs 9

/-- The binary64 words of format F51: words 0 to 4 (10_state.md R22). -/
def BigReg.f51Words (v : BigReg) : List Word := v.firstWords 5

/-- The integers of an F51 register (10_state.md R34). -/
def BigReg.f51 (v : BigReg) : List Nat := v.f51Words.map f64Int

/-- The integers of a U51 register: words 0 to 4 (10_state.md R36). -/
def BigReg.u51 (v : BigReg) : List Nat := v.limbs 5

/-- Every word is a valid F51 word (10_state.md R34). -/
abbrev F51Valid (l : List Word) : Prop := l.all f51Valid = true

/-- `n0` is −p⁻¹ mod 2^W for an odd p (10_state.md R25): the number below 2^W that p multiplies to −1
modulo 2^W (log entry 12). -/
abbrev IsNegInverse (n0 p W : Nat) : Prop := n0 < 2 ^ W ∧ (n0 * p + 1) % 2 ^ W = 0

/-- `mu` is +p⁻¹ mod 2^W for an odd p (10_state.md R25, 43_paired_bm17.md R152; log entry 12). -/
abbrev IsPosInverse (mu p W : Nat) : Prop := mu < 2 ^ W ∧ (mu * p) % 2 ^ W = 1

/-- A legal modulus of radix 2^n: odd and 1 < p < 2^n (10_state.md R24). -/
abbrev IsModulus (p n : Nat) : Prop := p % 2 = 1 ∧ 1 < p ∧ p < 2 ^ n

/-- The words a two-source command reads in a format of L words. -/
def sourceWords (s : State) (ra rb : Reg) (L : Nat) : List Word :=
  (s.reg ra).firstWords L ++ (s.reg rb).firstWords L

/-- The words a multiplier reads: L words of each source, LM words of MOD, and N0 (10_state.md R31). -/
def mulWords (s : State) (ra rb : Reg) (L LM : Nat) : List Word :=
  sourceWords s ra rb L ++ s.modulus.firstWords LM ++ [s.n0]

end Sys2Proof.Machine
end

