-- ==== Sys2Proof/Machine/ClassicCios.lean ====
section
/-! DEFINITION. The ClassicCIOS multiplier MUL.CIOS32 (42_classic_cios.md R140, R141). -/

namespace Sys2Proof.Machine

/-- The accumulator `t[0..9]` of 32-bit words: the words 0 to 7, then words 8 and 9
(42_classic_cios.md R140). -/
structure CiosAcc where
  low : List Nat
  t8 : Nat
  t9 : Nat
  deriving DecidableEq, Repr

/-- Every accumulator word is 0 at the start of the command. -/
def ciosInit : CiosAcc := ⟨[0, 0, 0, 0, 0, 0, 0, 0], 0, 0⟩

/-- The multiply pass of one outer iteration: t += a[i]·b. -/
def ciosMultiply (b : List Nat) (ai : Nat) (acc : CiosAcc) : CiosAcc :=
  let row := mulAddRow ai 0 acc.low b
  let top := addC acc.t8 row.2 32
  ⟨row.1, top.2, top.1⟩

/-- The quotient digit of the iteration (rule R110 on t[0]). -/
def ciosDigit (n0 : Nat) (acc : CiosAcc) : Nat := qDigit (acc.low.headD 0) n0 32

/-- The reduce pass with window shift: t = (t + m·p) / 2^32, word 0 of the sum dropped. -/
def ciosReduce (p : List Nat) (m : Nat) (acc : CiosAcc) : CiosAcc :=
  let row := mulAddRow m 0 acc.low p
  let top := addC acc.t8 row.2 32
  ⟨row.1.tail ++ [top.2], (acc.t9 + top.1) % 2 ^ 32, 0⟩

/-- One outer iteration on limb a[i]. -/
def ciosStep (b p : List Nat) (n0 : Nat) (acc : CiosAcc) (ai : Nat) : CiosAcc :=
  let acc' := ciosMultiply b ai acc
  ciosReduce p (ciosDigit n0 acc') acc'

/-- The nine-limb candidate after the outer iterations over the limbs of a. -/
def ciosCandidate (a b p : List Nat) (n0 : Nat) : List Nat :=
  let acc := a.foldl (ciosStep b p n0) ciosInit
  acc.low ++ [acc.t8]

/-- The pseudocode of R140: candidate, conditional subtraction of the wide modulus, truncation to
eight limbs. `pw` is the wide encoding of the modulus, nine limbs. -/
def ciosMul (a b pw : List Nat) (n0 : Nat) : List Nat :=
  (condSub 32 (ciosCandidate a b (pw.take 8) n0) pw).take 8

/-- Preconditions P1 to P5 of R140 on the limbs of RA, RB, the wide modulus and N0. -/
abbrev Cios32Pre (a b pw : List Nat) (n0 : Nat) : Prop :=
  (Canonical 32 a ∧ Canonical 32 b) ∧
  (Canonical 32 (pw.take 8) ∧ pw.getD 8 0 = 0) ∧
  IsModulus (val 32 (pw.take 8)) 256 ∧
  (val 32 a < val 32 (pw.take 8) ∧ val 32 b < val 32 (pw.take 8)) ∧
  IsNegInverse n0 (val 32 (pw.take 8)) 32

/-- MUL.CIOS32 Xd, Xa, Xb (R140). -/
def execMulCios32 (rd ra rb : Reg) (s : State) : Host.Outcome State Fault Refusal :=
  let a := (s.reg ra).i32
  let b := (s.reg rb).i32
  let pw := s.modulus.limbs 9
  .next (commitLimbs 0x20 (mulWords s ra rb 8 9) 8 (decide (Cios32Pre a b pw s.n0.toNat))
    (ciosMul a b pw s.n0.toNat) rd s)

end Sys2Proof.Machine
end

