-- ==== Sys2Proof/Machine/DelayedCarry.lean ====
section
/-! DEFINITION. The DelayedCarryCIOS multipliers MUL.DC30 and MUL.DC29 (45_delayed_carry.md R190 to
R199). -/

namespace Sys2Proof.Machine

/-- The slot sums `S[j] + a[i]·b[j] + q·p[j]` of one outer iteration (R190). -/
def dcSums (ai q : Nat) : List Nat → List Nat → List Nat → List Nat
  | t :: ts, y :: ys, m :: ms => (t + ai * y + q * m) :: dcSums ai q ts ys ms
  | _, _, _ => []

/-- The quotient digit of an outer iteration: rule R110 on `S[0] + a[i]·b[0]`. -/
def dcDigit (W : Nat) (b : List Nat) (n0 : Nat) (S : List Nat) (ai : Nat) : Nat :=
  qDigit (S.headD 0 + ai * b.headD 0) n0 W

/-- The window shift of one outer iteration: the carry of slot 0 is folded into old slot 1 and only
there, the top slot (j = 8 = nsafe) is renormalised into two (R190, R197). -/
def dcShift (W : Nat) : List Nat → List Nat
  | s0 :: s1 :: rest =>
    (s1 + s0 / 2 ^ W) :: rest.dropLast ++ [rest.getLastD 0 % 2 ^ W, rest.getLastD 0 / 2 ^ W]
  | S => S

/-- One outer iteration on limb a[i] (R190). -/
def dcStep (W : Nat) (b p : List Nat) (n0 : Nat) (S : List Nat) (ai : Nat) : List Nat :=
  dcShift W (dcSums ai (dcDigit W b n0 S ai) S b p)

/-- The nine slots after the outer iterations over the limbs of a. -/
def dcAccumulate (W : Nat) (a b p : List Nat) (n0 : Nat) : List Nat :=
  a.foldl (dcStep W b p n0) [0, 0, 0, 0, 0, 0, 0, 0, 0]

/-- `DelayedCarryMul(a, b, p, n0, W)` (R190). -/
def delayedCarryMul (W : Nat) (a b p : List Nat) (n0 : Nat) : List Nat :=
  condSub W (carryPass W (dcAccumulate W a b p n0)) p

/-- Preconditions P1 to P4 of R195 (W = 30) and R196 (W = 29) on the limbs of RA, RB, MOD and N0. -/
abbrev DcPre (W : Nat) (a b p : List Nat) (n0 : Nat) : Prop :=
  (Canonical W a ∧ Canonical W b ∧ Canonical W p) ∧ IsModulus (val W p) (9 * W) ∧
  (val W a < val W p ∧ val W b < val W p) ∧ IsNegInverse n0 (val W p) W

/-- The shared body of the two commands for limbs of W bits. -/
def delayedCarry (op : BitVec 8) (W : Nat) (rd ra rb : Reg) (s : State) : State :=
  let a := (s.reg ra).i9
  let b := (s.reg rb).i9
  let p := s.modulus.i9
  commitLimbs op (mulWords s ra rb 9 9) 9 (decide (DcPre W a b p s.n0.toNat))
    (delayedCarryMul W a b p s.n0.toNat) rd s

/-- MUL.DC30 Xd, Xa, Xb (R195). -/
def execMulDc30 (rd ra rb : Reg) (s : State) : Host.Outcome State Fault Refusal :=
  .next (delayedCarry 0x24 30 rd ra rb s)

/-- MUL.DC29 Xd, Xa, Xb (R196). -/
def execMulDc29 (rd ra rb : Reg) (s : State) : Host.Outcome State Fault Refusal :=
  .next (delayedCarry 0x25 29 rd ra rb s)

end Sys2Proof.Machine
end

