-- ==== Sys2Proof/Machine/VectorAlu.lean ====
section
/-! DEFINITION. The 2-lane vector ALU (40_datapath_units.md R90 to R99): each operation acts on the two
64-bit lanes independently. A lane is an integer or a binary64 pattern, as the operation reads it
(R99). -/

namespace Sys2Proof.Machine

/-- A vector value: lane 0 ("low") and lane 1 ("high") (40_datapath_units.md R90). -/
structure Vec2 where
  lane0 : Word
  lane1 : Word
  deriving DecidableEq, Repr

/-- `VMAKE(x, y)` (R91). -/
def vMake (x y : Word) : Vec2 := ⟨x, y⟩

/-- `VSPLAT(x)` (R91). -/
def vSplat (x : Word) : Vec2 := ⟨x, x⟩

/-- `VLO(v)` (R92). -/
def vLo (v : Vec2) : Word := v.lane0

/-- `VHI(v)` (R92). -/
def vHi (v : Vec2) : Word := v.lane1

/-- `VADD(u, v)`, each lane modulo 2^64 (R93). -/
def vAdd (u v : Vec2) : Vec2 := ⟨u.lane0 + v.lane0, u.lane1 + v.lane1⟩

/-- `VSUB(u, v)`, each lane modulo 2^64 (R93). -/
def vSub (u v : Vec2) : Vec2 := ⟨u.lane0 - v.lane0, u.lane1 - v.lane1⟩

/-- `VAND(u, v)` (R94). -/
def vAnd (u v : Vec2) : Vec2 := ⟨u.lane0 &&& v.lane0, u.lane1 &&& v.lane1⟩

/-- `VSHR(u, n)`, zeros shifted in (R95). -/
def vShr (u : Vec2) (n : Nat) : Vec2 := ⟨u.lane0 >>> n, u.lane1 >>> n⟩

/-- `VMUL(u, v)`, the low 64 bits of each lane product (R96). -/
def vMul (u v : Vec2) : Vec2 := ⟨u.lane0 * v.lane0, u.lane1 * v.lane1⟩

/-- `VFMA(x, y, z)` on binary64 lanes (R97). -/
def vFma (x y z : Vec2) : Vec2 :=
  ⟨fmaBits x.lane0 y.lane0 z.lane0, fmaBits x.lane1 y.lane1 z.lane1⟩

/-- `VFSUB(x, y)` on binary64 lanes (R98). -/
def vFsub (x y : Vec2) : Vec2 := ⟨fsubBits x.lane0 y.lane0, fsubBits x.lane1 y.lane1⟩

end Sys2Proof.Machine
end

