-- ==== Sys2Proof/Machine/Extractor.lean ====
section
/-! DEFINITION. The IEEE-754 bit extractor (44_float_cios.md R167, R170 to R175) and the conversion of
an integer to binary64 by bias (R176), as 2-lane vector operations (R182). -/

namespace Sys2Proof.Machine

/-- K1 = 2^103 (44_float_cios.md R167). -/
def K1 : Word := 0x4660000000000000

/-- K2 = 2^103 + 3·2^51. -/
def K2 : Word := 0x4660000000000003

/-- K3 = 3·2^51. -/
def K3 : Word := 0x4338000000000000

/-- K4 = 2^52. -/
def K4 : Word := 0x4330000000000000

/-- MASK51 = 2^51 − 1, an integer. -/
def MASK51 : Word := 0x0007FFFFFFFFFFFF

/-- Step 1: `h1 = fma(A, B, K1)`, the high part by rounding (R170). -/
def splitH1 (A B : Vec2) : Vec2 := vFma A B (vSplat K1)

/-- Step 2: `sub = K2 − h1`, the complementary bias (R171). -/
def splitSub (h1 : Vec2) : Vec2 := vFsub (vSplat K2) h1

/-- Step 3: `l1 = fma(A, B, sub)`, the low part (R172). -/
def splitL1 (A B sub : Vec2) : Vec2 := vFma A B sub

/-- Step 4, high: `hr`, the pattern of h1 less that of K1, as an integer (R173). -/
def splitHr (h1 : Vec2) : Vec2 := vSub h1 (vSplat K1)

/-- Step 4, low: `lsw`, the pattern of l1 less that of K3, as an integer (R173). -/
def splitLsw (l1 : Vec2) : Vec2 := vSub l1 (vSplat K3)

/-- Step 5: the floor correction, as (hi, lo) (R174). -/
def splitFloor (hr lsw : Vec2) : Vec2 × Vec2 :=
  (vSub hr (vShr lsw 63), vAnd lsw (vSplat MASK51))

/-- `Split51(A, B) = (hi, lo)` on both lanes (R175), by the steps R170 to R174. -/
def split51 (A B : Vec2) : Vec2 × Vec2 :=
  let h1 := splitH1 A B
  splitFloor (splitHr h1) (splitLsw (splitL1 A B (splitSub h1)))

/-- `I2F(n) = frombits(bits(K4) + n) − K4` on both lanes (R176). -/
def i2f (n : Vec2) : Vec2 := vFsub (vAdd (vSplat K4) n) (vSplat K4)

end Sys2Proof.Machine
end

