-- ==== Sys2Proof/Machine/FloatCios.lean ====
section
/-! DEFINITION. The FloatCIOS multiplier MUL.F51 (44_float_cios.md R180 to R185), every operand splatted
into both lanes (R182). -/

namespace Sys2Proof.Machine

/-- Multiply-accumulate one splatted limb against the limbs of an operand: the low part of product j
goes to slot j, the high part to slot j+1, modulo 2^64 (R180 steps (1), (2), (4); R181). -/
def f51Row (A : Vec2) : List Vec2 → List Vec2 → List Vec2
  | B :: Bs, T0 :: T1 :: Ts =>
    let parts := split51 A B
    vAdd T0 parts.2 :: f51Row A Bs (vAdd T1 parts.1 :: Ts)
  | _, T => T

/-- Step (5): fold slot 0's carry into slot 1 and rotate the window down by one slot (R180). -/
def f51Rotate : List Vec2 → List Vec2
  | T0 :: T1 :: Ts => vAdd T1 (vShr T0 51) :: Ts ++ [vSplat 0]
  | T => T

/-- Step (3): the quotient digit of slot 0 as a splatted binary64 (R112, R176). -/
def f51Digit (n0 : Nat) (T : List Vec2) : Vec2 :=
  i2f (vSplat (BitVec.ofNat 64 (qDigit51 (vLo (T.headD (vSplat 0))).toNat n0)))

/-- One outer iteration on the splatted limb a[i] (R180). -/
def f51Step (B P : List Vec2) (n0 : Nat) (T : List Vec2) (A : Vec2) : List Vec2 :=
  let T1 := f51Row A B T
  f51Rotate (f51Row (f51Digit n0 T1) P T1)

/-- The eleven slots after the outer iterations over the words of a. -/
def f51Accumulate (a b p : List Word) (n0 : Nat) : List Vec2 :=
  (a.map vSplat).foldl (f51Step (b.map vSplat) (p.map vSplat) n0)
    (List.replicate Config.f51Slots (vSplat 0))

/-- The pseudocode of R180: the five retained slots, lane 0 (R182), as unsigned integers. -/
def f51Mul (a b p : List Word) (n0 : Nat) : List Nat :=
  ((f51Accumulate a b p n0).take 5).map fun v => (vLo v).toNat

/-- Every word is a valid F51 word of an integer below 2^51 (R180 P1, 10_state.md R34). -/
abbrev F51Normal (l : List Word) : Prop := F51Valid l ∧ Canonical 51 (l.map f64Int)

/-- Preconditions P1 to P4 of R180 on the words of RA, RB, MOD and N0. -/
abbrev F51Pre (a b p : List Word) (n0 : Nat) : Prop :=
  (F51Normal a ∧ F51Normal b ∧ F51Normal p) ∧
  IsModulus (val 51 (p.map f64Int)) 255 ∧
  (val 51 (a.map f64Int) < val 51 (p.map f64Int) ∧ val 51 (b.map f64Int) < val 51 (p.map f64Int)) ∧
  IsNegInverse n0 (val 51 (p.map f64Int)) 51

/-- MUL.F51 Xd, Xa, Xb (R180). -/
def execMulF51 (rd ra rb : Reg) (s : State) : Host.Outcome State Fault Refusal :=
  let a := (s.reg ra).f51Words
  let b := (s.reg rb).f51Words
  let p := s.modulus.f51Words
  .next (commitLimbs 0x23 (mulWords s ra rb 5 5) 5 (decide (F51Pre a b p s.n0.toNat))
    (f51Mul a b p s.n0.toNat) rd s)

end Sys2Proof.Machine
end

