-- ==== Sys2Proof/Machine/PairedBm17.lean ====
section
/-! DEFINITION. The PairedCIOS / BM17 multipliers MUL.BM17S and MUL.BM17V (43_paired_bm17.md R150 to
R154). -/

namespace Sys2Proof.Machine

/-! ### Scalar form (R150) -/

/-- The accumulators d and e, eight limbs of 32 bits each. -/
structure BmAcc where
  d : List Nat
  e : List Nat
  deriving DecidableEq, Repr

/-- Both accumulators are 0 at the start of the command. -/
def bmInit : BmAcc := ⟨[0, 0, 0, 0, 0, 0, 0, 0], [0, 0, 0, 0, 0, 0, 0, 0]⟩

/-- One accumulator's part of an inner pass: add `x·y`, drop the low word, shift down, put the last
carry on top. The two accumulators share no data inside the pass (log entry 20). -/
def bmRow (x : Nat) (acc y : List Nat) : List Nat :=
  let row := mulAddRow x 0 acc y
  row.1.tail ++ [row.2]

/-- The quotient digit of an outer iteration (rule R111). -/
def bmDigit (mu : Nat) (b : List Nat) (aj : Nat) (acc : BmAcc) : Nat :=
  qDigitBM mu (b.headD 0) aj (acc.d.headD 0) (acc.e.headD 0)

/-- One outer iteration on limb a[j] (R150). -/
def bmStep (b p : List Nat) (mu : Nat) (acc : BmAcc) (aj : Nat) : BmAcc :=
  ⟨bmRow aj acc.d b, bmRow (bmDigit mu b aj acc) acc.e p⟩

/-- The accumulators after the outer iterations over the limbs of a. -/
def bmAccumulate (a b p : List Nat) (mu : Nat) : BmAcc := a.foldl (bmStep b p mu) bmInit

/-- The pseudocode of R150. -/
def bmMul (a b p : List Nat) (mu : Nat) : List Nat :=
  let acc := bmAccumulate a b p mu
  combine 32 acc.d acc.e p

/-! ### Vectorized form (R151): lane 0 carries d, lane 1 carries e -/

/-- `MASK` of R151. -/
def bmMask : Vec2 := vSplat 0xFFFFFFFF

/-- The inner loop for i = 1..7 with the pair of carries `T`: the vectors stored, then the last `T`. -/
def bmvRow (AQ : Vec2) : Vec2 → List Vec2 → List Vec2 → List Vec2 × Vec2
  | T, BP :: BPs, DE :: DEs =>
    let P := vAdd (vAdd (vMul AQ BP) T) DE
    let rest := bmvRow AQ (vShr P 32) BPs DEs
    (vAnd P bmMask :: rest.1, rest.2)
  | T, _, _ => ([], T)

/-- One outer iteration on limb a[j] (R151). -/
def bmvStep (BP : List Vec2) (b0 mu : Nat) (DE : List Vec2) (aj : Nat) : List Vec2 :=
  match BP, DE with
  | BP0 :: BPs, DE0 :: DEs =>
    let q := qDigitBM mu b0 aj (vLo DE0).toNat (vHi DE0).toNat
    let AQ := vMake (BitVec.ofNat 64 aj) (BitVec.ofNat 64 q)
    let row := bmvRow AQ (vShr (vAdd (vMul AQ BP0) DE0) 32) BPs DEs
    row.1 ++ [row.2]
  | _, _ => DE

/-- The vectors (b[i], p[i]) (R151). -/
def bmvPack (b p : List Nat) : List Vec2 :=
  List.zipWith (fun x y => vMake (BitVec.ofNat 64 x) (BitVec.ofNat 64 y)) b p

/-- The vectors DE[0..7] after the outer iterations over the limbs of a. -/
def bmvAccumulate (a b p : List Nat) (mu : Nat) : List Vec2 :=
  a.foldl (bmvStep (bmvPack b p) (b.headD 0) mu) (List.replicate 8 (vSplat 0))

/-- The pseudocode of R151. -/
def bmvMul (a b p : List Nat) (mu : Nat) : List Nat :=
  let DE := bmvAccumulate a b p mu
  combine 32 (DE.map fun v => (vLo v).toNat) (DE.map fun v => (vHi v).toNat) p

/-! ### The commands -/

/-- Preconditions P1 to P5 of R150, also those of R151, on the limbs of RA, RB, MOD and N0. -/
abbrev Bm17Pre (a b p : List Nat) (mu : Nat) : Prop :=
  (Canonical 32 a ∧ Canonical 32 b) ∧ Canonical 32 p ∧ IsModulus (val 32 p) 256 ∧
  (val 32 a < val 32 p ∧ val 32 b < val 32 p) ∧ IsPosInverse mu (val 32 p) 32

/-- MUL.BM17S Xd, Xa, Xb (R150). -/
def execMulBm17s (rd ra rb : Reg) (s : State) : Host.Outcome State Fault Refusal :=
  let a := (s.reg ra).i32
  let b := (s.reg rb).i32
  let p := s.modulus.i32
  .next (commitLimbs 0x21 (mulWords s ra rb 8 8) 8 (decide (Bm17Pre a b p s.n0.toNat))
    (bmMul a b p s.n0.toNat) rd s)

/-- MUL.BM17V Xd, Xa, Xb (R151). -/
def execMulBm17v (rd ra rb : Reg) (s : State) : Host.Outcome State Fault Refusal :=
  let a := (s.reg ra).i32
  let b := (s.reg rb).i32
  let p := s.modulus.i32
  .next (commitLimbs 0x22 (mulWords s ra rb 8 8) 8 (decide (Bm17Pre a b p s.n0.toNat))
    (bmvMul a b p s.n0.toNat) rd s)

end Sys2Proof.Machine
end

