-- ==== Sys2Proof/Machine/Flags.lean ====
section
/-! DEFINITION. The flags (10_state.md R26, R29): each command writes only the flag the table names for
it. EQ and GT come from the comparator, BORROW from the subtractor (40_datapath_units.md R104 to
R106). -/

namespace Sys2Proof.Machine

/-- `STATUS.BORROW <- b`. -/
def State.setBorrow (s : State) (b : Bool) : State := { s with status := { s.status with borrow := b } }

/-- `STATUS.EQ <- b`. -/
def State.setEq (s : State) (b : Bool) : State := { s with status := { s.status with eq := b } }

/-- `STATUS.GT <- b`. -/
def State.setGt (s : State) (b : Bool) : State := { s with status := { s.status with gt := b } }

/-- One draw of free values was made. -/
def State.drew (s : State) : State := { s with draws := s.draws + 1 }

/-- When the rule of a compare or a subtraction gives its result: both operands canonical, also where
one register is named twice (10_state.md R35, 00_scope.md R15; 93 U1, U7; log entry 5). -/
abbrev PairDefined (W L : Nat) (ra rb : Reg) (s : State) : Prop :=
  Canonical W ((s.reg ra).limbs L) ∧ Canonical W ((s.reg rb).limbs L)

/-- The EQ computation of CMPEQ.w on L limbs (41_fwi_primitives.md R121 to R123); any value where it is
not defined (93 U1). -/
def compareEq (op : BitVec 8) (W L : Nat) (ra rb : Reg) (s : State) : State :=
  if PairDefined W L ra rb s then s.setEq (eqLimbs ((s.reg ra).limbs L) ((s.reg rb).limbs L))
  else (s.setEq (Config.freeFlag s.draws op (sourceWords s ra rb L))).drew

/-- The GT computation of CMPGT.w on L limbs (41_fwi_primitives.md R124 to R126); any value where it is
not defined (93 U1). -/
def compareGt (op : BitVec 8) (W L : Nat) (ra rb : Reg) (s : State) : State :=
  if PairDefined W L ra rb s then s.setGt (gtLimbs ((s.reg ra).limbs L) ((s.reg rb).limbs L))
  else (s.setGt (Config.freeFlag s.draws op (sourceWords s ra rb L))).drew

/-- SUB.w on L limbs of W bits: result words and BORROW (41_fwi_primitives.md R127 to R129); any value
in the L result words and in BORROW where it is not defined (93 U1). -/
def subtract (op : BitVec 8) (W L : Nat) (rd ra rb : Reg) (s : State) : State :=
  if PairDefined W L ra rb s then
    let r := subLimbs W ((s.reg ra).limbs L) ((s.reg rb).limbs L)
    (s.setReg rd (BigReg.ofWords (wordsOfLimbs r.1))).setBorrow r.2
  else
    (freeResult op (sourceWords s ra rb L) L rd s).setBorrow
      (Config.freeFlag s.draws op (sourceWords s ra rb L))

end Sys2Proof.Machine
end

