-- ==== Sys2Proof/Machine/Primitives.lean ====
section
/-! DEFINITION. The FixedWidthInteger primitives ZERO, CMPEQ, CMPGT, SUB (41_fwi_primitives.md). -/

namespace Sys2Proof.Machine

/-- ZERO Xd: nine words of 0, no precondition, no flag (R120). -/
def execZero (rd : Reg) (s : State) : Host.Outcome State Fault Refusal :=
  .next (s.setReg rd BigReg.zero)

/-- CMPEQ.32 Xa, Xb (R121). -/
def execCmpEq32 (ra rb : Reg) (s : State) : Host.Outcome State Fault Refusal :=
  .next (compareEq 0x10 32 8 ra rb s)

/-- CMPEQ.30 Xa, Xb (R122). -/
def execCmpEq30 (ra rb : Reg) (s : State) : Host.Outcome State Fault Refusal :=
  .next (compareEq 0x11 30 9 ra rb s)

/-- CMPEQ.29 Xa, Xb (R123). -/
def execCmpEq29 (ra rb : Reg) (s : State) : Host.Outcome State Fault Refusal :=
  .next (compareEq 0x12 29 9 ra rb s)

/-- CMPGT.32 Xa, Xb (R124). -/
def execCmpGt32 (ra rb : Reg) (s : State) : Host.Outcome State Fault Refusal :=
  .next (compareGt 0x14 32 8 ra rb s)

/-- CMPGT.30 Xa, Xb (R125). -/
def execCmpGt30 (ra rb : Reg) (s : State) : Host.Outcome State Fault Refusal :=
  .next (compareGt 0x15 30 9 ra rb s)

/-- CMPGT.29 Xa, Xb (R126). -/
def execCmpGt29 (ra rb : Reg) (s : State) : Host.Outcome State Fault Refusal :=
  .next (compareGt 0x16 29 9 ra rb s)

/-- SUB.32 Xd, Xa, Xb (R127). -/
def execSub32 (rd ra rb : Reg) (s : State) : Host.Outcome State Fault Refusal :=
  .next (subtract 0x18 32 8 rd ra rb s)

/-- SUB.30 Xd, Xa, Xb (R128). -/
def execSub30 (rd ra rb : Reg) (s : State) : Host.Outcome State Fault Refusal :=
  .next (subtract 0x19 30 9 rd ra rb s)

/-- SUB.29 Xd, Xa, Xb (R129). -/
def execSub29 (rd ra rb : Reg) (s : State) : Host.Outcome State Fault Refusal :=
  .next (subtract 0x1A 29 9 rd ra rb s)

end Sys2Proof.Machine
end

