-- ==== Sys2Proof/Machine/ResolveReduce.lean ====
section
/-! DEFINITION. Carry resolution and partial reduction of float-limb results: RESOLVE.F51 and
REDUCE.F51 (46_resolve_reduce.md R205 to R211). -/

namespace Sys2Proof.Machine

/-- The integers of normalised limbs as binary64 words (44_float_cios.md R166 (a)). -/
def f51WordsOf (l : List Nat) : List Nat := l.map fun n => (f64OfNat n).toNat

/-- The resolved integers: the carry pass over the five unresolved limbs (R205). -/
def resolveLimbs (u : List Nat) : List Nat := carryPass 51 u

/-- Precondition P1 of R205 in its general form. -/
abbrev ResolvePre (u : List Nat) : Prop := (∀ x ∈ u, x < 2 ^ 63) ∧ val 51 u < 2 ^ 257

/-- RESOLVE.F51 Xd, Xa (R205). -/
def execResolveF51 (rd ra : Reg) (s : State) : Host.Outcome State Fault Refusal :=
  let u := (s.reg ra).u51
  .next (commitLimbs 0x30 ((s.reg ra).firstWords 5) 5 (decide (ResolvePre u))
    (f51WordsOf (resolveLimbs u)) rd s)

/-- The top limb, which alone decides REDUCE.F51 (R208). -/
def topLimb (l : List Nat) : Nat := l.getD 4 0

/-- The result words of REDUCE.F51 where there is no tie: a subtraction if the top limb is greater, the
words of RA unchanged if it is smaller (R208). -/
def reduceWords (v m : List Word) : List Nat :=
  if topLimb (v.map f64Int) > topLimb (m.map f64Int) then
    f51WordsOf (subLimbs 51 (v.map f64Int) (m.map f64Int)).1
  else v.map BitVec.toNat

/-- Preconditions P1 to P4 of R208 on the words of RA and MOD; P4 is "no tie" (R210). -/
abbrev ReducePre (v m : List Word) : Prop :=
  (F51Valid v ∧ Canonical 51 ((v.map f64Int).take 4)) ∧
  (F51Valid m ∧ Canonical 51 (m.map f64Int) ∧ IsModulus (val 51 (m.map f64Int)) 255) ∧
  val 51 (v.map f64Int) < 2 * val 51 (m.map f64Int) ∧
  topLimb (v.map f64Int) ≠ topLimb (m.map f64Int)

/-- REDUCE.F51 Xd, Xa (R208). A tie, like any other failed precondition, leaves words 0 to 4 at any
value and completes (R210). -/
def execReduceF51 (rd ra : Reg) (s : State) : Host.Outcome State Fault Refusal :=
  let v := (s.reg ra).f51Words
  let m := s.modulus.f51Words
  .next (commitLimbs 0x31 (v ++ m) 5 (decide (ReducePre v m)) (reduceWords v m) rd s)

end Sys2Proof.Machine
end

