-- ==== Sys2Proof/Machine/Dispatch.lean ====
section
/-! DEFINITION. What executing a command does: one arm for each command (30_encoding.md R73). -/

namespace Sys2Proof.Machine

def exec (i : Instr) (s : State) : Host.Outcome State Fault Refusal :=
  match i with
  | .zero rd => Sys2Proof.Machine.execZero rd s
  | .cmpEq32 ra rb => Sys2Proof.Machine.execCmpEq32 ra rb s
  | .cmpEq30 ra rb => Sys2Proof.Machine.execCmpEq30 ra rb s
  | .cmpEq29 ra rb => Sys2Proof.Machine.execCmpEq29 ra rb s
  | .cmpGt32 ra rb => Sys2Proof.Machine.execCmpGt32 ra rb s
  | .cmpGt30 ra rb => Sys2Proof.Machine.execCmpGt30 ra rb s
  | .cmpGt29 ra rb => Sys2Proof.Machine.execCmpGt29 ra rb s
  | .sub32 rd ra rb => Sys2Proof.Machine.execSub32 rd ra rb s
  | .sub30 rd ra rb => Sys2Proof.Machine.execSub30 rd ra rb s
  | .sub29 rd ra rb => Sys2Proof.Machine.execSub29 rd ra rb s
  | .mulCios32 rd ra rb => Sys2Proof.Machine.execMulCios32 rd ra rb s
  | .mulBm17s rd ra rb => Sys2Proof.Machine.execMulBm17s rd ra rb s
  | .mulBm17v rd ra rb => Sys2Proof.Machine.execMulBm17v rd ra rb s
  | .mulF51 rd ra rb => Sys2Proof.Machine.execMulF51 rd ra rb s
  | .mulDc30 rd ra rb => Sys2Proof.Machine.execMulDc30 rd ra rb s
  | .mulDc29 rd ra rb => Sys2Proof.Machine.execMulDc29 rd ra rb s
  | .resolveF51 rd ra => Sys2Proof.Machine.execResolveF51 rd ra s
  | .reduceF51 rd ra => Sys2Proof.Machine.execReduceF51 rd ra s

end Sys2Proof.Machine
end

