-- ==== Sys2Proof/Machine/Port.lean ====
section
/-! DEFINITION. One host operation on the block: a port transaction, which runs a command when it
writes CMD (20_memory.md R50 to R55), a bus access through the platform wrapper (R58, R59), or the
reset event (70_reset_and_hazards.md R240). -/

namespace Sys2Proof.Machine

/-- Execute the command word `c`: a legal word runs its command, every other word is the
IllegalCommand event (20_memory.md R53, 30_encoding.md R74, R75, 60_exceptions.md R216). -/
def runCommand (c : Word) (s : State) : Host.Outcome State Fault Refusal :=
  match decode c with
  | .ok i => exec i s
  | .error _ => .next (raiseIllegal s)

/-- `RegWrite(a, v)` (20_memory.md R52, R53, R55). -/
def regWrite (a : Addr) (v : Word) (s : State) : Host.Outcome State Fault Refusal :=
  match portLoc a with
  | .cmd => runCommand v s
  | _ => .next (portStore a v s)

/-- `RegRead(a)`: the word goes back to the host (20_memory.md R50, R54). -/
def regRead (a : Addr) (s : State) : State := s.reply (.data (portRead s a))

/-- A bus write of some bytes: the port write of the assembled word, or a bus error with no effect on
the block (20_memory.md R58, R59). -/
def busWrite (a : BusAddr) (bytes : List Byte) (s : State) : Host.Outcome State Fault Refusal :=
  match busWordAddr a bytes.length with
  | some w => regWrite w (wordOfBytes bytes) s
  | none => .next (s.reply .busError)

/-- A bus read of `size` bytes: the bytes of the port's word, or a bus error (20_memory.md R58, R59). -/
def busRead (a : BusAddr) (size : Nat) (s : State) : State :=
  match busWordAddr a size with
  | some w => s.reply (.bytes (bytesOfWord (portRead s w)))
  | none => s.reply .busError

/-- One host operation, complete before the next begins (20_memory.md R61). -/
def runHostOp (op : HostOp) (s : State) : Host.Outcome State Fault Refusal :=
  match op with
  | .regWrite a v => regWrite a v s
  | .regRead a => .next (regRead a s)
  | .reset => .next (resetBlock s)
  | .busWrite a bytes => busWrite a bytes s
  | .busRead a size => .next (busRead a size s)

/-- One step: perform the first pending host operation. With none pending the block does nothing (it
executes exactly one command for each write to CMD, 10_state.md R27; log entry 8). -/
def stepPort (s : State) : Host.Outcome State Fault Refusal :=
  match s.pending with
  | [] => .next s
  | op :: rest => runHostOp op { s with pending := rest }

/-- The command word of `nbits` bits with value `w` written to CMD as the very next host operation
(20_memory.md R53; log entry 9). -/
def queueCommand (s : State) (nbits w : Nat) : State :=
  s.queueFirst (.regWrite cmdAddr (BitVec.ofNat 64 (w % 2 ^ nbits)))

end Sys2Proof.Machine
end

