-- ==== Sys2Proof/Machine/Step.lean ====
section
/-! DEFINITION. The step of the machine: one host operation, performed to completion (00_scope.md R6,
20_memory.md R61). -/

namespace Sys2Proof.Machine

/-- One step. -/
def step (s : State) : Host.Outcome State Fault Refusal := stepPort s

/-- `s` with a command word of `nbits` bits, value `w`, as the next host operation: the block fetches
nothing (10_state.md R27), a command is the data of one write to CMD (20_memory.md R53, log entry 9). -/
def State.withFetchWord (s : State) (nbits w : Nat) : State := queueCommand s nbits w

end Sys2Proof.Machine
end

