-- ==== Sys2Proof/Machine/HostProgram.lean ====
section
/-! DEFINITION. Host programs (00_scope.md R18): the pseudo-instructions of 30_encoding.md R80 as lists
of port transactions, and a command line as the write to CMD it stands for (R79). They are the host's
abbreviations, no commands of the block. -/

namespace Sys2Proof.Machine

/-- A target of the load pseudo-instructions: X0 to X3 or MOD (R80). -/
inductive LoadTarget where
  | x (r : Reg)
  | modulus
  deriving DecidableEq, Repr

/-- The port address of word `k` of a target (R80). -/
def LoadTarget.addr : LoadTarget → Fin Config.nWord → Addr
  | .x r, k => xAddr r k
  | .modulus, k => modAddr k

/-- Nine port writes, word k to `base(T) + k`. -/
def loadWords (T : LoadTarget) (w : Fin Config.nWord → Nat) : List HostOp :=
  (List.finRange Config.nWord).map fun k => .regWrite (T.addr k) (BitVec.ofNat 64 (w k))

/-- `LD.I32 T, v`; word 8 gets v >> 256 (R80). -/
def ldI32 (T : LoadTarget) (v : Nat) : List HostOp :=
  loadWords T fun k => if k.val = 8 then v / 2 ^ 256 else v / 2 ^ (32 * k.val) % 2 ^ 32

/-- `LD.I30 T, v` (R80). -/
def ldI30 (T : LoadTarget) (v : Nat) : List HostOp :=
  loadWords T fun k => v / 2 ^ (30 * k.val) % 2 ^ 30

/-- `LD.I29 T, v` (R80). -/
def ldI29 (T : LoadTarget) (v : Nat) : List HostOp :=
  loadWords T fun k => v / 2 ^ (29 * k.val) % 2 ^ 29

/-- `LD.F51 T, v`: binary64 words, words 5 to 8 zero (R80). -/
def ldF51 (T : LoadTarget) (v : Nat) : List HostOp :=
  loadWords T fun k => if k.val < 5 then (f64OfNat (v / 2 ^ (51 * k.val) % 2 ^ 51)).toNat else 0

/-- `LDN0 n` (R80). -/
def ldN0 (n : Nat) : List HostOp := [.regWrite n0Addr (BitVec.ofNat 64 n)]

/-- `RD.I32 Xr`, `RD.I30 Xr`, `RD.I29 Xr`, `RD.F51 Xr`: the reads of the first L words (R80). -/
def rdReg (r : Reg) (L : Nat) : List HostOp :=
  ((List.finRange Config.nWord).take L).map fun k => .regRead (xAddr r k)

/-- `RDST` (R80). -/
def rdSt : List HostOp := [.regRead statusAddr]

/-- A command line: the write of its word to CMD (R79). -/
def commandLine (i : Instr) : List HostOp := [.regWrite cmdAddr (encode i)]

/-- `s` with a host program to be performed before what is already pending. -/
def State.withProgram (s : State) (prog : List HostOp) : State := { s with pending := prog ++ s.pending }

end Sys2Proof.Machine
end

