-- ==== Sys2Proof/Safety.lean ====
section
/-! DEFINITION. The terms in which claims about the block are made: the Montgomery product
(00_scope.md R19), what a command leaves alone, hosts that write only legal commands, and the residue
sessions of 70_reset_and_hazards.md R247. -/

namespace Sys2Proof.Machine

/-- `MontMul(a, b, p, R) = (a · b · R⁻¹) mod p`, R⁻¹ the inverse of R modulo p (00_scope.md R19). -/
def montMul (a b p R : Nat) : Nat := ((a : ZMod p) * (b : ZMod p) * (R : ZMod p)⁻¹).val

/-- Everything but the big registers, STATUS and the model's counter of draws is as before: MOD, N0,
and the host's side. -/
structure RestKept (s t : State) : Prop where
  modulus : t.modulus = s.modulus
  n0 : t.n0 = s.n0
  pending : t.pending = s.pending
  replies : t.replies = s.replies

/-- No big register differs. -/
def AllRegsKept (s t : State) : Prop := ∀ r, t.reg r = s.reg r

/-- No big register but `rd` differs. -/
def OtherRegsKept (rd : Reg) (s t : State) : Prop := ∀ r, r ≠ rd → t.reg r = s.reg r

/-- Words `len` to 8 of big register `rd` are 0 (10_state.md R44). -/
def ZeroFilled (len : Nat) (rd : Reg) (t : State) : Prop :=
  ∀ k : Fin Config.nWord, len ≤ k.val → (t.reg rd).word k = 0

/-- Nothing of the block but big register `rd` differs: no other big register, no flag, not MOD, not N0;
nor does the host's side. -/
def OnlyRegChanged (rd : Reg) (s t : State) : Prop :=
  OtherRegsKept rd s t ∧ t.status = s.status ∧ RestKept s t

/-- A host operation that writes no illegal command word to CMD, through the port or the bus
(30_encoding.md R74). -/
def HostOp.legal : HostOp → Prop
  | .regWrite a v => portLoc a = .cmd → ∃ i, decode v = .ok i
  | .busWrite a l =>
    ∀ w, busWordAddr a l.length = some w → portLoc w = .cmd → ∃ i, decode (wordOfBytes l) = .ok i
  | .regRead _ => True
  | .reset => True
  | .busRead _ _ => True

/-- No illegal command was written since reset and none is pending. -/
structure LegalHost (s : State) : Prop where
  noError : s.status.err = false
  pending : ∀ op ∈ s.pending, op.legal

/-- An illegal command was written and no reset is pending. -/
structure ErrorHeld (s : State) : Prop where
  error : s.status.err = true
  noReset : HostOp.reset ∉ s.pending

/-- Big register `r` holds a canonical residue below `p` as I32 limbs (10_state.md R35, 00_scope.md
R17 "Residue"). -/
def HoldsResidue (p : Nat) (r : Reg) (s : State) : Prop :=
  Canonical 32 (s.reg r).i32 ∧ val 32 (s.reg r).i32 < p

/-- The commands of a residue session: those that keep residues, each multiplier with the constant it
needs in N0 (10_state.md R25). -/
def SessionCommand (p n0 : Nat) : Instr → Prop
  | .zero _ => True
  | .cmpEq32 _ _ => True
  | .cmpGt32 _ _ => True
  | .mulCios32 _ _ _ => IsNegInverse n0 p 32
  | .mulBm17s _ _ _ => IsPosInverse n0 p 32
  | .mulBm17v _ _ _ => IsPosInverse n0 p 32
  | _ => False

/-- The host operations of a residue session: reads, writes that the port ignores, and writes to CMD of
a session command or of an illegal word. -/
def SessionOp (p n0 : Nat) : HostOp → Prop
  | .regWrite a v =>
    portLoc a = .status ∨ portLoc a = .reserved ∨
      (portLoc a = .cmd ∧ ∀ i, decode v = .ok i → SessionCommand p n0 i)
  | .regRead _ => True
  | .busRead _ _ => True
  | .reset => False
  | .busWrite _ _ => False

/-- A session with the modulus `p`: MOD holds p in its wide encoding, every big register holds a
residue, the host leaves MOD, N0 and the operands alone (70_reset_and_hazards.md R243, R247). -/
structure ResidueSession (p : Nat) (s : State) : Prop where
  modulus : IsModulus p 256
  canonical : Canonical 32 s.modulus.i32
  wide : s.modulus.word 8 = 0
  value : val 32 s.modulus.i32 = p
  residues : ∀ r, HoldsResidue p r s
  pending : ∀ op ∈ s.pending, SessionOp p s.n0.toNat op

end Sys2Proof.Machine
end

