-- ==== Sys2Proof/Certificates/Slice0/Obligations.lean ====
section
/-! DEFINITION. The statements for the provers. Each says what the block does, in terms of the numbered
rules of spec/; nothing here is proved. -/

open Sys2Proof Sys2Proof.Machine

/-! ### Reset, stepping, the error event -/

/-- After reset the four flags are 0 and the STATUS word reads 0 (10_state.md R40). -/
def Obligations.ResetStatusIsZero : Prop :=
  State.reset.status.borrow = false ∧ State.reset.status.eq = false ∧
    State.reset.status.gt = false ∧ State.reset.status.err = false ∧
    portRead State.reset 0x52 = 0

/-- A reset event clears the four flags, from every state (70_reset_and_hazards.md R240); the data words
are unspecified, so nothing is said of them. That the operations the host has still to issue and the
replies it was given stay as they are is the model's choice (the host's lists in State: DESIGN CHOICE,
log entry 7; what a reset leaves of them: DEDUCED, log entry 2). -/
def Obligations.ResetEventClearsStatus : Prop :=
  ∀ (s : State) (rest : List HostOp), s.pending = .reset :: rest →
    ∃ t, step s = .next t ∧ t.status.borrow = false ∧ t.status.eq = false ∧ t.status.gt = false ∧
      t.status.err = false ∧ t.pending = rest ∧ t.replies = s.replies

/-- A step whose host operation writes a legal word to CMD executes exactly that command, on the state
with the operation taken off the host's list (20_memory.md R53, 30_encoding.md R74). -/
def Obligations.StepRunsTheDecodedCommand : Prop :=
  ∀ (s : State) (c : Word) (i : Instr) (rest : List HostOp),
    s.pending = .regWrite 0x51 c :: rest → decode c = .ok i →
      step s = exec i { s with pending := rest }

/-- An illegal word written to CMD sets STATUS.ERR and changes nothing else: no register, no other
flag, no reply to the host (60_exceptions.md R216). Illegal is what 30_encoding.md R74 and R75 say. -/
def Obligations.IllegalCommandSetsErrOnly : Prop :=
  ∀ (s : State) (c : Word) (rest : List HostOp),
    s.pending = .regWrite 0x51 c :: rest → (Fields.ofWord c).wellFormed = false →
      step s = .next { s with pending := rest, status := { s.status with err := true } }

/-- Every step from every state answers a next state: no command and no port access faults or is
refused (60_exceptions.md R229, R215). -/
def Obligations.EveryStepAnswersNext : Prop :=
  ∀ s : State, ∃ t, step s = .next t

/-- Every command, on any operand values, completes and raises no event: ERR is as before
(60_exceptions.md R229, R215; 00_scope.md R15). -/
def Obligations.EveryCommandCompletesWithoutEvent : Prop :=
  ∀ (i : Instr) (s : State), ∃ t, exec i s = .next t ∧ t.status.err = s.status.err

/-! ### Encoding -/

/-- Decoding and encoding agree both ways: a word decodes to a command exactly when it is the word of
that command (30_encoding.md R74: each word is exactly one legal command or illegal). -/
def Obligations.DecodeAndEncodeAgree : Prop :=
  ∀ (w : Word) (i : Instr), decode w = .ok i ↔ w = encode i

/-- A word is a legal command exactly when a row of the opcode table selects it, `c & mask = match`,
and never do two rows select one word (30_encoding.md R72, R74). -/
def Obligations.LegalWordsAreTheTableRows : Prop :=
  ∀ w : Word,
    ((∃ i, decode w = .ok i) ↔ ∃ row ∈ opcodeTable, w &&& row.2.mask = row.1) ∧
      ∀ row ∈ opcodeTable, ∀ row' ∈ opcodeTable,
        w &&& row.2.mask = row.1 → w &&& row'.2.mask = row'.1 → row = row'

/-- The encoded word is OPC + (d << 8) + (a << 10) + (b << 12), with the opcodes of the map
(30_encoding.md R73, R79). -/
def Obligations.EncodedWordsAreOpcodePlusFields : Prop :=
  ∀ d a b : Reg,
    (encode (.zero d)).toNat = 0x01 + d.val <<< 8 ∧
    (encode (.cmpEq32 a b)).toNat = 0x10 + a.val <<< 10 + b.val <<< 12 ∧
    (encode (.cmpEq30 a b)).toNat = 0x11 + a.val <<< 10 + b.val <<< 12 ∧
    (encode (.cmpEq29 a b)).toNat = 0x12 + a.val <<< 10 + b.val <<< 12 ∧
    (encode (.cmpGt32 a b)).toNat = 0x14 + a.val <<< 10 + b.val <<< 12 ∧
    (encode (.cmpGt30 a b)).toNat = 0x15 + a.val <<< 10 + b.val <<< 12 ∧
    (encode (.cmpGt29 a b)).toNat = 0x16 + a.val <<< 10 + b.val <<< 12 ∧
    (encode (.sub32 d a b)).toNat = 0x18 + d.val <<< 8 + a.val <<< 10 + b.val <<< 12 ∧
    (encode (.sub30 d a b)).toNat = 0x19 + d.val <<< 8 + a.val <<< 10 + b.val <<< 12 ∧
    (encode (.sub29 d a b)).toNat = 0x1A + d.val <<< 8 + a.val <<< 10 + b.val <<< 12 ∧
    (encode (.mulCios32 d a b)).toNat = 0x20 + d.val <<< 8 + a.val <<< 10 + b.val <<< 12 ∧
    (encode (.mulBm17s d a b)).toNat = 0x21 + d.val <<< 8 + a.val <<< 10 + b.val <<< 12 ∧
    (encode (.mulBm17v d a b)).toNat = 0x22 + d.val <<< 8 + a.val <<< 10 + b.val <<< 12 ∧
    (encode (.mulF51 d a b)).toNat = 0x23 + d.val <<< 8 + a.val <<< 10 + b.val <<< 12 ∧
    (encode (.mulDc30 d a b)).toNat = 0x24 + d.val <<< 8 + a.val <<< 10 + b.val <<< 12 ∧
    (encode (.mulDc29 d a b)).toNat = 0x25 + d.val <<< 8 + a.val <<< 10 + b.val <<< 12 ∧
    (encode (.resolveF51 d a)).toNat = 0x30 + d.val <<< 8 + a.val <<< 10 ∧
    (encode (.reduceF51 d a)).toNat = 0x31 + d.val <<< 8 + a.val <<< 10

/-- Words written out in the spec decode to the commands they stand for, and words it calls illegal do
not decode (30_encoding.md R79; 95_test_vectors.md section 8). -/
def Obligations.WordsOfTheSpecDecode : Prop :=
  decode 0x201 = .ok (.zero 2) ∧ decode 0x3810 = .ok (.cmpEq32 2 3) ∧
    decode 0x414 = .ok (.cmpGt32 1 0) ∧ decode 0x2F19 = .ok (.sub30 3 3 2) ∧
    decode 0x1220 = .ok (.mulCios32 2 0 1) ∧ decode 0x1322 = .ok (.mulBm17v 3 0 1) ∧
    decode 0x1B25 = .ok (.mulDc29 3 2 1) ∧ decode 0x0A30 = .ok (.resolveF51 2 2) ∧
    decode 0x0331 = .ok (.reduceF51 3 0) ∧ (decode 0).toOption = none ∧
    (decode 0x401).toOption = none ∧ (decode 0x110).toOption = none ∧
    (decode 0x1A30).toOption = none ∧ (decode 0x4220).toOption = none ∧
    (decode 0x8000000000001220).toOption = none

/-! ### The register port and the bus wrapper -/

/-- The STATUS word is BORROW + 2·EQ + 4·GT + 8·ERR, and a read of any location returns a word, changes
no state of the block, and would return the same word again (20_memory.md R54). -/
def Obligations.ReadsHaveNoSideEffect : Prop :=
  (∀ s : State, (portRead s 0x52).toNat = s.status.borrow.toNat + 2 * s.status.eq.toNat
      + 4 * s.status.gt.toNat + 8 * s.status.err.toNat) ∧
    ∀ (s : State) (a : Addr) (rest : List HostOp), s.pending = .regRead a :: rest →
      ∃ t, step s = .next t ∧ t.replies = .data (portRead s a) :: s.replies ∧
        (∀ r, t.reg r = s.reg r) ∧ t.modulus = s.modulus ∧ t.n0 = s.n0 ∧ t.status = s.status ∧
        t.pending = rest ∧ t.draws = s.draws ∧ ∀ a', portRead t a' = portRead s a'

/-- A write to a read/write location stores all 64 bits there, every other location reads as before,
and the location reads back the word (20_memory.md R51, R52). -/
def Obligations.WrittenWordIsReadBack : Prop :=
  ∀ (s : State) (a : Addr) (v : Word) (rest : List HostOp),
    ((∃ r k, a = xAddr r k) ∨ (∃ k, a = modAddr k) ∨ a = 0x50) →
    s.pending = .regWrite a v :: rest →
      ∃ t, step s = .next t ∧ portRead t a = v ∧ (∀ a', a' ≠ a → portRead t a' = portRead s a') ∧
        t.status = s.status ∧ t.replies = s.replies ∧ t.pending = rest

/-- The port names the cells of the state: word k of X r is read at 0x10·r + k, MOD[k] at 0x40 + k, N0
at 0x50 (20_memory.md R51, R52). -/
def Obligations.PortReadsTheCells : Prop :=
  ∀ s : State,
    (∀ (r : Reg) (k : Fin 9), portRead s (BitVec.ofNat 7 (0x10 * r.val + k.val)) = (s.reg r).get k) ∧
      (∀ k : Fin 9, portRead s (BitVec.ofNat 7 (0x40 + k.val)) = s.modulus.get k) ∧
      portRead s 0x50 = s.n0

/-- Writes to STATUS and to reserved addresses are ignored; reads of CMD and of reserved addresses
return 0; none of them sets ERR (20_memory.md R51, R55). -/
def Obligations.IgnoredWritesAndZeroReads : Prop :=
  ∀ (s : State) (a : Addr),
    (a = 0x52 ∨ 0x53 ≤ a.toNat ∨ (a.toNat < 0x50 ∧ 9 ≤ a.toNat % 16) →
      ∀ (v : Word) (rest : List HostOp), s.pending = .regWrite a v :: rest →
        step s = .next { s with pending := rest }) ∧
    (a = 0x51 ∨ 0x53 ≤ a.toNat ∨ (a.toNat < 0x50 ∧ 9 ≤ a.toNat % 16) →
      portRead s a = 0 ∧
        ∀ rest : List HostOp, s.pending = .regRead a :: rest →
          step s = .next { s with pending := rest, replies := .data 0 :: s.replies })

/-- An aligned 8-byte bus access is the port access at a word address an eighth of the byte address, the
byte of the lowest address holding bits 7:0 (20_memory.md R58). -/
def Obligations.AlignedBusAccessIsLittleEndian : Prop :=
  ∀ (s : State) (a : BusAddr) (rest : List HostOp), a.toNat % 8 = 0 →
    (∀ (l : List Byte) (w : Word), l.length = 8 → w.toNat = val 8 (l.map BitVec.toNat) →
      step { s with pending := .busWrite a l :: rest }
        = step { s with pending := .regWrite (BitVec.ofNat 7 (a.toNat / 8)) w :: rest }) ∧
    ∃ l : List Byte, l.length = 8 ∧
      val 8 (l.map BitVec.toNat) = (portRead s (BitVec.ofNat 7 (a.toNat / 8))).toNat ∧
      step { s with pending := .busRead a 8 :: rest }
        = .next { s with pending := rest, replies := .bytes l :: s.replies }

/-- The wrapper refuses every other bus access with no effect on the block (20_memory.md R59); that the
refusal reaches the host as a reply is the model's choice (DESIGN CHOICE, log entry 10). -/
def Obligations.OtherBusAccessIsRefused : Prop :=
  ∀ (s : State) (a : BusAddr) (rest : List HostOp),
    (∀ l : List Byte, l.length ≠ 8 ∨ a.toNat % 8 ≠ 0 → s.pending = .busWrite a l :: rest →
      step s = .next { s with pending := rest, replies := .busError :: s.replies }) ∧
    (∀ n : Nat, n ≠ 8 ∨ a.toNat % 8 ≠ 0 → s.pending = .busRead a n :: rest →
      step s = .next { s with pending := rest, replies := .busError :: s.replies })

/-! ### Frames: what each command leaves alone, on any operand values -/

/-- CMPEQ.w writes EQ only and CMPGT.w writes GT only, whatever the registers hold: no big register, no
other flag, not MOD, not N0 (41_fwi_primitives.md R121 to R126, 10_state.md R26, 00_scope.md R15). -/
def Obligations.ComparesWriteTheirFlagOnly : Prop :=
  ∀ (s : State) (ra rb : Reg),
    (∀ i ∈ [Instr.cmpEq32 ra rb, .cmpEq30 ra rb, .cmpEq29 ra rb],
      ∃ t b, exec i s = .next t ∧ AllRegsKept s t ∧ RestKept s t ∧
        t.status = { s.status with eq := b }) ∧
    (∀ i ∈ [Instr.cmpGt32 ra rb, .cmpGt30 ra rb, .cmpGt29 ra rb],
      ∃ t b, exec i s = .next t ∧ AllRegsKept s t ∧ RestKept s t ∧
        t.status = { s.status with gt := b })

/-- SUB.w writes RD and BORROW only, whatever the registers hold; SUB.32 writes 0 to word 8
(41_fwi_primitives.md R127 to R129, 10_state.md R26, R44, 00_scope.md R15). -/
def Obligations.SubtractionsWriteDestinationAndBorrowOnly : Prop :=
  ∀ (s : State) (rd ra rb : Reg),
    (∀ i ∈ [Instr.sub32 rd ra rb, .sub30 rd ra rb, .sub29 rd ra rb],
      ∃ t b, exec i s = .next t ∧ OtherRegsKept rd s t ∧ RestKept s t ∧
        t.status = { s.status with borrow := b }) ∧
    ∃ t, exec (.sub32 rd ra rb) s = .next t ∧ ZeroFilled 8 rd t

/-- ZERO, the multipliers, RESOLVE and REDUCE write RD only and no flag, whatever the registers hold,
and write 0 to the words past their format (10_state.md R29, R44; 00_scope.md R15; 60_exceptions.md
R218). -/
def Obligations.MultipliersWriteDestinationOnly : Prop :=
  ∀ (s : State) (rd ra rb : Reg), ∀ c ∈
    [(Instr.zero rd, 0), (.mulCios32 rd ra rb, 8), (.mulBm17s rd ra rb, 8), (.mulBm17v rd ra rb, 8),
      (.mulF51 rd ra rb, 5), (.mulDc30 rd ra rb, 9), (.mulDc29 rd ra rb, 9), (.resolveF51 rd ra, 5),
      (.reduceF51 rd ra, 5)],
    ∃ t, exec c.1 s = .next t ∧ OnlyRegChanged rd s t ∧ ZeroFilled c.2 rd t

/-- Through the port: after any command every location reads as before but STATUS and the nine words of
the destination register, if the command has one (10_state.md R23, R24, R25). -/
def Obligations.CommandsChangeOnlyDestinationAndStatus : Prop :=
  ∀ (i : Instr) (s : State), ∃ t, exec i s = .next t ∧
    ∀ a : Addr, a ≠ 0x52 → (∀ rd k, i.dest? = some rd → a ≠ xAddr rd k) →
      portRead t a = portRead s a

/-! ### Operand discipline -/

/-- The destination may be any register, also a source: the result and the flags do not depend on which
register receives it (10_state.md R43). The free values of the model do not depend on it either (log
entry 4). -/
def Obligations.ResultDoesNotDependOnDestination : Prop :=
  ∀ (s : State) (rd rd' ra rb : Reg),
    (∀ k ∈ [Instr.sub32, .sub30, .sub29, .mulCios32, .mulBm17s, .mulBm17v, .mulF51, .mulDc30,
        .mulDc29],
      ∃ t t', exec (k rd ra rb) s = .next t ∧ exec (k rd' ra rb) s = .next t' ∧
        t.reg rd = t'.reg rd' ∧ t.status = t'.status) ∧
    (∀ k ∈ [Instr.resolveF51, .reduceF51],
      ∃ t t', exec (k rd ra) s = .next t ∧ exec (k rd' ra) s = .next t' ∧
        t.reg rd = t'.reg rd' ∧ t.status = t'.status)

/-- What a command writes, the words of RD and its flag, is a function of the words of RA, RB and MOD
its format reads, and of N0: two states that agree on them give the same, whatever else they hold, the
flags of STATUS and word 8 of an I32 source included (10_state.md R22, R29, R31). That where
preconditions fail the free values are equal too, for equal counters of draws, is the model's choice
(DESIGN CHOICE, log entries 3 and 4). -/
def Obligations.CommandsReadNothingElse : Prop :=
  ∀ (s s' : State) (rd ra rb : Reg), s'.draws = s.draws →
    (∀ c ∈ [(Instr.cmpEq32 ra rb, 8, Status.eq), (.cmpEq30 ra rb, 9, Status.eq),
        (.cmpEq29 ra rb, 9, Status.eq), (.cmpGt32 ra rb, 8, Status.gt),
        (.cmpGt30 ra rb, 9, Status.gt), (.cmpGt29 ra rb, 9, Status.gt),
        (.sub32 rd ra rb, 8, Status.borrow), (.sub30 rd ra rb, 9, Status.borrow),
        (.sub29 rd ra rb, 9, Status.borrow)],
      (s'.reg ra).firstWords c.2.1 = (s.reg ra).firstWords c.2.1 →
      (s'.reg rb).firstWords c.2.1 = (s.reg rb).firstWords c.2.1 →
        ∃ t t', exec c.1 s = .next t ∧ exec c.1 s' = .next t' ∧
          c.2.2 t'.status = c.2.2 t.status ∧ ∀ d, c.1.dest? = some d → t'.reg d = t.reg d) ∧
    (∀ c ∈ [(Instr.mulCios32 rd ra rb, 8, 9), (.mulBm17s rd ra rb, 8, 8), (.mulBm17v rd ra rb, 8, 8),
        (.mulF51 rd ra rb, 5, 5), (.mulDc30 rd ra rb, 9, 9), (.mulDc29 rd ra rb, 9, 9)],
      (s'.reg ra).firstWords c.2.1 = (s.reg ra).firstWords c.2.1 →
      (s'.reg rb).firstWords c.2.1 = (s.reg rb).firstWords c.2.1 →
      s'.modulus.firstWords c.2.2 = s.modulus.firstWords c.2.2 → s'.n0 = s.n0 →
        ∃ t t', exec c.1 s = .next t ∧ exec c.1 s' = .next t' ∧ t'.reg rd = t.reg rd) ∧
    ((s'.reg ra).firstWords 5 = (s.reg ra).firstWords 5 →
      (∃ t t', exec (.resolveF51 rd ra) s = .next t ∧ exec (.resolveF51 rd ra) s' = .next t' ∧
        t'.reg rd = t.reg rd) ∧
      (s'.modulus.firstWords 5 = s.modulus.firstWords 5 →
        ∃ t t', exec (.reduceF51 rd ra) s = .next t ∧ exec (.reduceF51 rd ra) s' = .next t' ∧
          t'.reg rd = t.reg rd))

/-- ERR does not inhibit, alter or delay a command: with ERR set a command does exactly what it does
with ERR clear (60_exceptions.md R217). That where preconditions fail the free values with ERR 0 and with
ERR 1 are equal too is the model's choice (DESIGN CHOICE, log entry 4). -/
def Obligations.ErrIsInert : Prop :=
  ∀ (i : Instr) (s : State) (e : Bool), ∃ t, exec i s = .next t ∧
    exec i { s with status := { s.status with err := e } }
      = .next { t with status := { t.status with err := e } }

/-! ### The primitives -/

/-- ZERO leaves nine words of 0 in RD and changes nothing else (41_fwi_primitives.md R120). -/
def Obligations.ZeroClearsTheRegister : Prop :=
  ∀ (s : State) (rd : Reg), ∃ t, exec (.zero rd) s = .next t ∧
    (∀ k : Fin 9, (t.reg rd).get k = 0) ∧ OnlyRegChanged rd s t ∧ t.draws = s.draws

/-- CMPEQ.w on canonical operands sets EQ exactly when the two values are equal, and changes nothing
else (41_fwi_primitives.md R121, R122, R123). -/
def Obligations.CompareEqualComparesValues : Prop :=
  ∀ (s : State) (ra rb : Reg),
    (Canonical 32 (s.reg ra).i32 → Canonical 32 (s.reg rb).i32 →
      exec (.cmpEq32 ra rb) s = .next { s with status := { s.status with
        eq := decide (val 32 (s.reg ra).i32 = val 32 (s.reg rb).i32) } }) ∧
    (Canonical 30 (s.reg ra).i9 → Canonical 30 (s.reg rb).i9 →
      exec (.cmpEq30 ra rb) s = .next { s with status := { s.status with
        eq := decide (val 30 (s.reg ra).i9 = val 30 (s.reg rb).i9) } }) ∧
    (Canonical 29 (s.reg ra).i9 → Canonical 29 (s.reg rb).i9 →
      exec (.cmpEq29 ra rb) s = .next { s with status := { s.status with
        eq := decide (val 29 (s.reg ra).i9 = val 29 (s.reg rb).i9) } })

/-- CMPGT.w on canonical operands sets GT exactly when the value of RA is greater, and changes nothing
else (41_fwi_primitives.md R124, R125, R126). -/
def Obligations.CompareGreaterComparesValues : Prop :=
  ∀ (s : State) (ra rb : Reg),
    (Canonical 32 (s.reg ra).i32 → Canonical 32 (s.reg rb).i32 →
      exec (.cmpGt32 ra rb) s = .next { s with status := { s.status with
        gt := decide (val 32 (s.reg ra).i32 > val 32 (s.reg rb).i32) } }) ∧
    (Canonical 30 (s.reg ra).i9 → Canonical 30 (s.reg rb).i9 →
      exec (.cmpGt30 ra rb) s = .next { s with status := { s.status with
        gt := decide (val 30 (s.reg ra).i9 > val 30 (s.reg rb).i9) } }) ∧
    (Canonical 29 (s.reg ra).i9 → Canonical 29 (s.reg rb).i9 →
      exec (.cmpGt29 ra rb) s = .next { s with status := { s.status with
        gt := decide (val 29 (s.reg ra).i9 > val 29 (s.reg rb).i9) } })

/-- One canonical register named twice: CMPEQ gives 1, CMPGT gives 0, SUB gives nine zero words and
BORROW 0, and nothing else changes (the corner cases of 41_fwi_primitives.md R121, R124, R127). On a
register that is not canonical what is written is any value (10_state.md R35; log entry 5), and
ComparesWriteTheirFlagOnly and SubtractionsWriteDestinationAndBorrowOnly say what holds there. -/
def Obligations.SameRegisterTwice : Prop :=
  ∀ (s : State) (rd ra : Reg),
    (∀ c ∈ [(Instr.cmpEq32 ra ra, 32, 8), (.cmpEq30 ra ra, 30, 9), (.cmpEq29 ra ra, 29, 9)],
      Canonical c.2.1 ((s.reg ra).limbs c.2.2) →
        exec c.1 s = .next { s with status := { s.status with eq := true } }) ∧
    (∀ c ∈ [(Instr.cmpGt32 ra ra, 32, 8), (.cmpGt30 ra ra, 30, 9), (.cmpGt29 ra ra, 29, 9)],
      Canonical c.2.1 ((s.reg ra).limbs c.2.2) →
        exec c.1 s = .next { s with status := { s.status with gt := false } }) ∧
    (∀ c ∈ [(Instr.sub32 rd ra ra, 32, 8), (.sub30 rd ra ra, 30, 9), (.sub29 rd ra ra, 29, 9)],
      Canonical c.2.1 ((s.reg ra).limbs c.2.2) →
      ∃ t, exec c.1 s = .next t ∧ (∀ k : Fin 9, (t.reg rd).get k = 0) ∧
        t.status = { s.status with borrow := false } ∧ OtherRegsKept rd s t ∧ RestKept s t)

/-- SUB.w on canonical operands: RD holds the canonical limbs of the difference modulo 2^(L·W), BORROW
is 1 exactly when the minuend is smaller, word 8 is 0 for SUB.32, and nothing else changes
(41_fwi_primitives.md R127, R128, R129). -/
def Obligations.SubtractionWrapsAndBorrows : Prop :=
  ∀ (s : State) (rd ra rb : Reg),
    (Canonical 32 (s.reg ra).i32 → Canonical 32 (s.reg rb).i32 →
      ∃ t, exec (.sub32 rd ra rb) s = .next t ∧ Canonical 32 (t.reg rd).i32 ∧
        (val 32 (t.reg rd).i32 : Int)
          = ((val 32 (s.reg ra).i32 : Int) - val 32 (s.reg rb).i32) % 2 ^ 256 ∧
        t.status = { s.status with
          borrow := decide (val 32 (s.reg ra).i32 < val 32 (s.reg rb).i32) } ∧
        ZeroFilled 8 rd t ∧ OtherRegsKept rd s t ∧ RestKept s t) ∧
    (Canonical 30 (s.reg ra).i9 → Canonical 30 (s.reg rb).i9 →
      ∃ t, exec (.sub30 rd ra rb) s = .next t ∧ Canonical 30 (t.reg rd).i9 ∧
        (val 30 (t.reg rd).i9 : Int)
          = ((val 30 (s.reg ra).i9 : Int) - val 30 (s.reg rb).i9) % 2 ^ 270 ∧
        t.status = { s.status with
          borrow := decide (val 30 (s.reg ra).i9 < val 30 (s.reg rb).i9) } ∧
        OtherRegsKept rd s t ∧ RestKept s t) ∧
    (Canonical 29 (s.reg ra).i9 → Canonical 29 (s.reg rb).i9 →
      ∃ t, exec (.sub29 rd ra rb) s = .next t ∧ Canonical 29 (t.reg rd).i9 ∧
        (val 29 (t.reg rd).i9 : Int)
          = ((val 29 (s.reg ra).i9 : Int) - val 29 (s.reg rb).i9) % 2 ^ 261 ∧
        t.status = { s.status with
          borrow := decide (val 29 (s.reg ra).i9 < val 29 (s.reg rb).i9) } ∧
        OtherRegsKept rd s t ∧ RestKept s t)

/-! ### The shared datapath units -/

/-- Subtract with borrow: for canonical operands the value of the result is the difference modulo
2^(L·W), and the borrow is 1 exactly when the minuend is smaller (40_datapath_units.md R105). -/
def Obligations.SubLimbsIsTheWrappedDifference : Prop :=
  ∀ (W : Nat) (a b : List Nat), a.length = b.length → Canonical W a → Canonical W b →
    Canonical W (subLimbs W a b).1 ∧ (subLimbs W a b).1.length = a.length ∧
      (val W (subLimbs W a b).1 : Int) = ((val W a : Int) - val W b) % (2 ^ (W * a.length) : Nat) ∧
      ((subLimbs W a b).2 = true ↔ val W a < val W b)

/-- Greater-than from the most significant limb decides by value whenever the limbs below the top ones
are canonical, whatever the size of the top limbs; equal operands give 0 (40_datapath_units.md R106). -/
def Obligations.GtLimbsComparesValues : Prop :=
  (∀ (W : Nat) (a b : List Nat), a.length = b.length → Canonical W a.dropLast →
      Canonical W b.dropLast → (gtLimbs a b = true ↔ val W b < val W a)) ∧
    ∀ a : List Nat, gtLimbs a a = false

/-- The full carry pass keeps the value and the length, and cuts every limb below the top one to W bits
(40_datapath_units.md R102). -/
def Obligations.CarryPassKeepsTheValue : Prop :=
  ∀ (W : Nat) (S : List Nat), val W (carryPass W S) = val W S ∧
    (carryPass W S).length = S.length ∧ Canonical W (carryPass W S).dropLast

/-- The conditional final subtraction of a candidate below twice the modulus, whose top limb may exceed
W bits, gives the candidate modulo m, canonical (40_datapath_units.md R107). -/
def Obligations.CondSubReducesOnce : Prop :=
  ∀ (W : Nat) (c m : List Nat), c.length = m.length → Canonical W c.dropLast → Canonical W m →
    val W c < 2 * val W m →
      val W (condSub W c m) = (if val W c < val W m then val W c else val W c - val W m) ∧
        Canonical W (condSub W c m)

/-- The three-operand combination gives (D − E) mod m, canonical (40_datapath_units.md R108). -/
def Obligations.CombineIsTheModularDifference : Prop :=
  ∀ (W : Nat) (d e m : List Nat), d.length = m.length → e.length = m.length → Canonical W d →
    Canonical W e → Canonical W m → val W d < val W m → val W e < val W m →
      (val W (combine W d e m) : Int) = ((val W d : Int) - val W e) % (val W m : Int) ∧
        Canonical W (combine W d e m)

/-- The CIOS quotient digit is below 2^W and cancels the low limb (40_datapath_units.md R110). -/
def Obligations.QuotientDigitCancelsTheLowLimb : Prop :=
  ∀ t0 n0 p0 W : Nat, (n0 * p0 + 1) % 2 ^ W = 0 →
    qDigit t0 n0 W < 2 ^ W ∧ (t0 + qDigit t0 n0 W * p0) % 2 ^ W = 0

/-- The BM17 quotient digit makes the two dropped low words equal (40_datapath_units.md R111). -/
def Obligations.Bm17DigitEqualizesTheLowWords : Prop :=
  ∀ mu b0 aj d0 e0 p0 : Nat, mu < 2 ^ 32 → b0 < 2 ^ 32 → aj < 2 ^ 32 → d0 < 2 ^ 32 → e0 < 2 ^ 32 →
    (mu * p0) % 2 ^ 32 = 1 →
      (aj * b0 + d0) % 2 ^ 32 = (qDigitBM mu b0 aj d0 e0 * p0 + e0) % 2 ^ 32

/-- The 51-bit digit from 32-bit halves is the digit of rule R110 for W = 51 (40_datapath_units.md
R112). -/
def Obligations.SplitDigitIsTheDigit : Prop :=
  ∀ t0 n0 : Nat, n0 < 2 ^ 51 → qDigit51 t0 n0 = qDigit t0 n0 51

/-! ### Binary64 and the bit extractor -/

/-- The pattern of an integer below 2^53 is a valid F51 word of that integer, and every valid F51 word
is the pattern of its integer (44_float_cios.md R166 (a), 10_state.md R34). -/
def Obligations.IntegerPatternsAreFaithful : Prop :=
  (∀ n : Nat, n < 2 ^ 53 → f51Valid (f64OfNat n) = true ∧ f64Int (f64OfNat n) = n) ∧
    ∀ w : Word, f51Valid w = true → f64Int w < 2 ^ 53 ∧ f64OfNat (f64Int w) = w

/-- Rounding is to nearest, the even one at a tie (44_float_cios.md R168, 00_scope.md R14). -/
def Obligations.RoundingIsToNearestEven : Prop :=
  ∀ n k : Nat, 0 < k →
    2 * ((n : Int) - rneShift n k * 2 ^ k).natAbs ≤ 2 ^ k ∧
      (2 * ((n : Int) - rneShift n k * 2 ^ k).natAbs = 2 ^ k → rneShift n k % 2 = 0)

/-- The conversion by bias gives the binary64 of the integer, in both lanes (44_float_cios.md R176). -/
def Obligations.BiasConversionIsExact : Prop :=
  ∀ n : Nat, n < 2 ^ 52 → i2f (vSplat (BitVec.ofNat 64 n)) = vSplat (f64OfNat n)

/-- The steps of the extractor: h1 is 2^103 + hr·2^51 with hr the product over 2^51 rounded to nearest
even, and the reinterpreted low part is the signed rest P − hr·2^51 (44_float_cios.md R170, R172,
R173). -/
def Obligations.ExtractorStepsSplitTheProduct : Prop :=
  ∀ a b : Nat, a < 2 ^ 51 → b < 2 ^ 51 →
    let A := vSplat (f64OfNat a)
    let B := vSplat (f64OfNat b)
    let h1 := splitH1 A B
    let hr := rneShift (a * b) 51
    h1 = vSplat (BitVec.ofNat 64 (0x4660000000000000 + hr)) ∧
      splitHr h1 = vSplat (BitVec.ofNat 64 hr) ∧
      splitLsw (splitL1 A B (splitSub h1)) = vSplat (BitVec.ofInt 64 ((a * b : Int) - hr * 2 ^ 51))

/-- The extractor's contract: hi is the floor of the product over 2^51 and lo the rest, in both lanes,
for all integers below 2^51 (44_float_cios.md R175). -/
def Obligations.ExtractorGivesFloorAndRest : Prop :=
  ∀ a b : Nat, a < 2 ^ 51 → b < 2 ^ 51 →
    split51 (vSplat (f64OfNat a)) (vSplat (f64OfNat b))
      = (vSplat (BitVec.ofNat 64 (a * b / 2 ^ 51)), vSplat (BitVec.ofNat 64 (a * b % 2 ^ 51)))

/-! ### The multipliers -/

/-- MUL.CIOS32 under its preconditions writes the canonical limbs of the Montgomery product for
R = 2^256, below p, zero in word 8, and changes nothing else (42_classic_cios.md R140). The product
is taken in ZMod p (DEDUCED, log entry 13). -/
def Obligations.ClassicCiosIsTheMontgomeryProduct : Prop :=
  ∀ (s : State) (rd ra rb : Reg),
    Cios32Pre (s.reg ra).i32 (s.reg rb).i32 (s.modulus.limbs 9) s.n0.toNat →
      ∃ t, exec (.mulCios32 rd ra rb) s = .next t ∧ Canonical 32 (t.reg rd).i32 ∧
        val 32 (t.reg rd).i32
          = montMul (val 32 (s.reg ra).i32) (val 32 (s.reg rb).i32) (val 32 s.modulus.i32) (2 ^ 256) ∧
        val 32 (t.reg rd).i32 < val 32 s.modulus.i32 ∧ ZeroFilled 8 rd t ∧ OnlyRegChanged rd s t

/-- The candidate of MUL.CIOS32 is (a·b + M·p) / 2^256 exactly, for a multiplier M below 2^256, and it
is below 2p; its ninth limb is at most 1 (42_classic_cios.md R140, properties (iii) and (iv)). -/
def Obligations.ClassicCiosCandidateIsExact : Prop :=
  ∀ (a b pw : List Nat) (n0 : Nat), a.length = 8 → b.length = 8 → pw.length = 9 →
    Cios32Pre a b pw n0 →
      let cand := ciosCandidate a b (pw.take 8) n0
      (∃ M, M < 2 ^ 256 ∧ val 32 cand * 2 ^ 256 = val 32 a * val 32 b + M * val 32 (pw.take 8)) ∧
        val 32 cand < 2 * val 32 (pw.take 8) ∧ cand.getD 8 0 ≤ 1

/-- MUL.BM17S under its preconditions writes the canonical limbs of the Montgomery product for
R = 2^256, below p, zero in word 8, and changes nothing else (43_paired_bm17.md R150). The product is
taken in ZMod p (DEDUCED, log entry 13). -/
def Obligations.PairedScalarIsTheMontgomeryProduct : Prop :=
  ∀ (s : State) (rd ra rb : Reg),
    Bm17Pre (s.reg ra).i32 (s.reg rb).i32 s.modulus.i32 s.n0.toNat →
      ∃ t, exec (.mulBm17s rd ra rb) s = .next t ∧ Canonical 32 (t.reg rd).i32 ∧
        val 32 (t.reg rd).i32
          = montMul (val 32 (s.reg ra).i32) (val 32 (s.reg rb).i32) (val 32 s.modulus.i32) (2 ^ 256) ∧
        val 32 (t.reg rd).i32 < val 32 s.modulus.i32 ∧ ZeroFilled 8 rd t ∧ OnlyRegChanged rd s t

/-- The two accumulators of BM17 stay canonical and below p, and their difference is (A·B − Q·P) / 2^256
exactly for a quotient Q below 2^256 (43_paired_bm17.md R153, R154). -/
def Obligations.PairedAccumulatorsStayBelowModulus : Prop :=
  ∀ (a b p : List Nat) (mu : Nat), a.length = 8 → b.length = 8 → p.length = 8 → Bm17Pre a b p mu →
    let acc := bmAccumulate a b p mu
    Canonical 32 acc.d ∧ Canonical 32 acc.e ∧ val 32 acc.d < val 32 p ∧ val 32 acc.e < val 32 p ∧
      ∃ Q : Nat, Q < 2 ^ 256 ∧
        ((val 32 acc.d : Int) - val 32 acc.e) * 2 ^ 256 = val 32 a * val 32 b - Q * val 32 p

/-- The vectorized and the scalar form do the same, bit for bit, for every valid input
(43_paired_bm17.md R151). -/
def Obligations.PairedVectorEqualsScalar : Prop :=
  ∀ (s : State) (rd ra rb : Reg),
    Bm17Pre (s.reg ra).i32 (s.reg rb).i32 s.modulus.i32 s.n0.toNat →
      ∃ t, exec (.mulBm17v rd ra rb) s = .next t ∧ exec (.mulBm17s rd ra rb) s = .next t

/-- MUL.F51 under its preconditions writes five integers below 2^56 with the weighted sum
U = (A·B + M·p) / 2^255 exactly, M = (A·B·N) mod 2^255 for N = −p⁻¹ mod 2^255; U is congruent to the
Montgomery product modulo p and below 2p; words 5 to 8 are 0 and nothing else changes
(44_float_cios.md R183, R184). The product is taken in ZMod p (DEDUCED, log entry 13). -/
def Obligations.FloatCiosCandidateIsExact : Prop :=
  ∀ (s : State) (rd ra rb : Reg) (N : Nat),
    F51Pre (s.reg ra).f51Words (s.reg rb).f51Words s.modulus.f51Words s.n0.toNat →
    IsNegInverse N (val 51 s.modulus.f51) 255 →
      ∃ t, exec (.mulF51 rd ra rb) s = .next t ∧
        (let A := val 51 (s.reg ra).f51
         let B := val 51 (s.reg rb).f51
         let p := val 51 s.modulus.f51
         let U := val 51 (t.reg rd).u51
         U * 2 ^ 255 = A * B + (A * B * N % 2 ^ 255) * p ∧ U < 2 * p ∧
           U % p = montMul A B p (2 ^ 255)) ∧
        Canonical 56 (t.reg rd).u51 ∧ ZeroFilled 5 rd t ∧ OnlyRegChanged rd s t

/-- Both lanes of every slot of MUL.F51 hold the same value, and slots 6 to 10 are always zero, for any
words and any constant (44_float_cios.md R181, R182). -/
def Obligations.FloatCiosLanesAgree : Prop :=
  ∀ (a b p : List Word) (n0 : Nat), b.length = 5 → p.length = 5 →
    let T := f51Accumulate a b p n0
    T.length = 11 ∧ (∀ v ∈ T, v.lane0 = v.lane1) ∧ ∀ v ∈ T.drop 6, v = vSplat 0

/-- MUL.DC30 and MUL.DC29 under their preconditions write the canonical limbs of the Montgomery product
for R = 2^270 and R = 2^261, below p, and change nothing else (45_delayed_carry.md R195, R196). The
product is taken in ZMod p (DEDUCED, log entry 13). -/
def Obligations.DelayedCarryIsTheMontgomeryProduct : Prop :=
  ∀ (s : State) (rd ra rb : Reg),
    (DcPre 30 (s.reg ra).i9 (s.reg rb).i9 s.modulus.i9 s.n0.toNat →
      ∃ t, exec (.mulDc30 rd ra rb) s = .next t ∧ Canonical 30 (t.reg rd).i9 ∧
        val 30 (t.reg rd).i9
          = montMul (val 30 (s.reg ra).i9) (val 30 (s.reg rb).i9) (val 30 s.modulus.i9) (2 ^ 270) ∧
        val 30 (t.reg rd).i9 < val 30 s.modulus.i9 ∧ OnlyRegChanged rd s t) ∧
    (DcPre 29 (s.reg ra).i9 (s.reg rb).i9 s.modulus.i9 s.n0.toNat →
      ∃ t, exec (.mulDc29 rd ra rb) s = .next t ∧ Canonical 29 (t.reg rd).i9 ∧
        val 29 (t.reg rd).i9
          = montMul (val 29 (s.reg ra).i9) (val 29 (s.reg rb).i9) (val 29 s.modulus.i9) (2 ^ 261) ∧
        val 29 (t.reg rd).i9 < val 29 s.modulus.i9 ∧ OnlyRegChanged rd s t)

/-- No slot of the delayed-carry accumulator and no sum of its schedule reaches 2^64, for any canonical
a, b, p and any constant, in any outer iteration; and no sum of a limb and the carry into it does, if
the carry pass follows that iteration (45_delayed_carry.md R199). -/
def Obligations.DelayedCarrySlotsDoNotOverflow : Prop :=
  ∀ (W : Nat) (done more b p : List Nat) (ai n0 : Nat), W = 30 ∨ W = 29 →
    (done ++ ai :: more).length = 9 → b.length = 9 → p.length = 9 →
    Canonical W (done ++ ai :: more) → Canonical W b → Canonical W p →
      let S := dcAccumulate W done b p n0
      let q := dcDigit W b n0 S ai
      let sums := dcSums ai q S b p
      Canonical 64 sums ∧ sums.getD 1 0 + sums.getD 0 0 / 2 ^ W < 2 ^ 64 ∧
        Canonical 64 (dcStep W b p n0 S ai) ∧
        ∀ k, k < 9 → (dcStep W b p n0 S ai).getD k 0
          + val W ((dcStep W b p n0 S ai).take k) / 2 ^ (W * k) < 2 ^ 64

/-- The product does not depend on the order of the operands: under the preconditions the same words
are written with RA and RB exchanged, the unresolved words of MUL.F51 included
(93_implementation_defined.md U12). -/
def Obligations.ProductsCommute : Prop :=
  ∀ (s : State) (rd ra rb : Reg),
    (Cios32Pre (s.reg ra).i32 (s.reg rb).i32 (s.modulus.limbs 9) s.n0.toNat →
      ∃ t, exec (.mulCios32 rd ra rb) s = .next t ∧ exec (.mulCios32 rd rb ra) s = .next t) ∧
    (Bm17Pre (s.reg ra).i32 (s.reg rb).i32 s.modulus.i32 s.n0.toNat →
      (∃ t, exec (.mulBm17s rd ra rb) s = .next t ∧ exec (.mulBm17s rd rb ra) s = .next t) ∧
      ∃ t, exec (.mulBm17v rd ra rb) s = .next t ∧ exec (.mulBm17v rd rb ra) s = .next t) ∧
    (F51Pre (s.reg ra).f51Words (s.reg rb).f51Words s.modulus.f51Words s.n0.toNat →
      ∃ t, exec (.mulF51 rd ra rb) s = .next t ∧ exec (.mulF51 rd rb ra) s = .next t) ∧
    (DcPre 30 (s.reg ra).i9 (s.reg rb).i9 s.modulus.i9 s.n0.toNat →
      ∃ t, exec (.mulDc30 rd ra rb) s = .next t ∧ exec (.mulDc30 rd rb ra) s = .next t) ∧
    (DcPre 29 (s.reg ra).i9 (s.reg rb).i9 s.modulus.i9 s.n0.toNat →
      ∃ t, exec (.mulDc29 rd ra rb) s = .next t ∧ exec (.mulDc29 rd rb ra) s = .next t)

/-- The classic and the paired multiplier give the same register words for the same operands and
modulus, each with its own constant in N0 (00_scope.md R2, R19; 43_paired_bm17.md R152). -/
def Obligations.ClassicAndPairedAgree : Prop :=
  ∀ (s : State) (rd ra rb : Reg) (n mu : Word),
    Cios32Pre (s.reg ra).i32 (s.reg rb).i32 (s.modulus.limbs 9) n.toNat →
    IsPosInverse mu.toNat (val 32 s.modulus.i32) 32 →
      ∃ t u v, exec (.mulCios32 rd ra rb) { s with n0 := n } = .next t ∧
        exec (.mulBm17s rd ra rb) { s with n0 := mu } = .next u ∧
        exec (.mulBm17v rd ra rb) { s with n0 := mu } = .next v ∧
        u.reg rd = t.reg rd ∧ v.reg rd = t.reg rd

/-! ### Resolution and reduction -/

/-- RESOLVE.F51 under its precondition keeps the value: RD holds valid F51 words with the same weighted
sum, the limbs 0 to 3 below 2^51; words 5 to 8 are 0 and nothing else changes
(46_resolve_reduce.md R205, R206). -/
def Obligations.ResolveNormalisesAndKeepsTheValue : Prop :=
  ∀ (s : State) (rd ra : Reg), ResolvePre (s.reg ra).u51 →
    ∃ t, exec (.resolveF51 rd ra) s = .next t ∧ F51Valid (t.reg rd).f51Words ∧
      val 51 (t.reg rd).f51 = val 51 (s.reg ra).u51 ∧ Canonical 51 ((t.reg rd).f51.take 4) ∧
      ZeroFilled 5 rd t ∧ OnlyRegChanged rd s t

/-- REDUCE.F51 without a tie gives the normalised F51 limbs of the value modulo p; words 5 to 8 are 0
and nothing else changes (46_resolve_reduce.md R208, R209). -/
def Obligations.ReduceWithoutTieIsModulo : Prop :=
  ∀ (s : State) (rd ra : Reg), ReducePre (s.reg ra).f51Words s.modulus.f51Words →
    ∃ t, exec (.reduceF51 rd ra) s = .next t ∧ F51Normal (t.reg rd).f51Words ∧
      val 51 (t.reg rd).f51 = val 51 (s.reg ra).f51 % val 51 s.modulus.f51 ∧
      ZeroFilled 5 rd t ∧ OnlyRegChanged rd s t

/-- The tie of REDUCE.F51: words 0 to 4 of RD are unspecified, words 5 to 8 are 0, no flag is written,
ERR is not set, and the command completes (46_resolve_reduce.md R210). -/
def Obligations.ReduceTieCompletes : Prop :=
  ∀ (s : State) (rd ra : Reg), topLimb (s.reg ra).f51 = topLimb s.modulus.f51 →
    ∃ t, exec (.reduceF51 rd ra) s = .next t ∧ ZeroFilled 5 rd t ∧ t.status = s.status ∧
      OtherRegsKept rd s t ∧ RestKept s t

/-- The required sequence MUL.F51, RESOLVE.F51, REDUCE.F51, without a tie, leaves in RD the normalised
F51 limbs of the Montgomery product for R = 2^255, below p: a valid operand again
(46_resolve_reduce.md R211). The product is taken in ZMod p (DEDUCED, log entry 13). -/
def Obligations.FloatSequenceIsTheMontgomeryProduct : Prop :=
  ∀ (s : State) (rd rt ra rb : Reg),
    F51Pre (s.reg ra).f51Words (s.reg rb).f51Words s.modulus.f51Words s.n0.toNat →
      ∃ t u, exec (.mulF51 rt ra rb) s = .next t ∧ exec (.resolveF51 rt rt) t = .next u ∧
        (topLimb (u.reg rt).f51 ≠ topLimb s.modulus.f51 →
          ∃ v, exec (.reduceF51 rd rt) u = .next v ∧ F51Normal (v.reg rd).f51Words ∧
            val 51 (v.reg rd).f51
              = montMul (val 51 (s.reg ra).f51) (val 51 (s.reg rb).f51) (val 51 s.modulus.f51)
                  (2 ^ 255) ∧
            val 51 (v.reg rd).f51 < val 51 s.modulus.f51)

/-! ### Invariants that every step keeps -/

/-- At reset no illegal command was written: ERR is 0 (10_state.md R40). That none is pending holds
because State.reset lists no host operation, which is the model's choice (DESIGN CHOICE, log entry 7). -/
def Obligations.ResetHasALegalHost : Prop := LegalHost State.reset

/-- ERR stays 0 as long as the host writes only legal commands: every step keeps it so
(60_exceptions.md R215, R216, R229). -/
def Obligations.LegalHostsKeepErrClear : Prop :=
  ∀ s t : State, LegalHost s → step s = .next t → LegalHost t

/-- ERR is sticky: once set it stays set through every step until a reset (60_exceptions.md R217). -/
def Obligations.ErrIsStickyUntilReset : Prop :=
  ∀ s t : State, ErrorHeld s → step s = .next t → ErrorHeld t

/-- In a session with an odd modulus every big register keeps holding a canonical residue below it, so
chains of products need no extra step (70_reset_and_hazards.md R243, R247). -/
def Obligations.SessionsKeepResidues : Prop :=
  ∀ (p : Nat) (s t : State), ResidueSession p s → step s = .next t → ResidueSession p t
end

