-- ==== Sys2Proof/Laws/Binary64.lean ====
section
/-! SUPPORT. Laws of binary64: the fields and value of a pattern, rounding of a quotient and of an
exact value, and the two operations on exact values (Machine/Binary64.lean). -/

namespace Sys2Proof.Machine

/-! ### Fields of a pattern (44_float_cios.md R166) -/

/-- A pattern made of sign, exponent and fraction has these fields. -/
theorem f64_fields {s : Bool} {e f : Nat} (he : e < 2 ^ 11) (hf : f < 2 ^ 52) :
    let w : Word := BitVec.ofNat 64 ((if s then 2 ^ 63 else 0) + (e * 2 ^ 52 + f))
    w.toNat = (if s then 2 ^ 63 else 0) + (e * 2 ^ 52 + f) ∧
      f64Sign w = s ∧ f64Exp w = e ∧ f64Frac w = f := by
  intro w
  have hw : w.toNat = (if s then 2 ^ 63 else 0) + (e * 2 ^ 52 + f) := by
    rw [BitVec.toNat_ofNat, Nat.mod_eq_of_lt]
    split <;> omega
  refine ⟨hw, ?_, ?_, ?_⟩
  · rw [f64Sign, hw]
    cases s <;> simp <;> omega
  · rw [f64Exp, hw]
    cases s <;> simp <;> omega
  · rw [f64Frac, hw]
    cases s <;> simp <;> omega

/-- The value of a normal number (R166), in units of 2^-1074. -/
theorem f64_normal {s : Bool} {e f : Nat} (h1 : 1 ≤ e) (h2 : e ≤ 2046) (hf : f < 2 ^ 52) :
    let w : Word := BitVec.ofNat 64 ((if s then 2 ^ 63 else 0) + (e * 2 ^ 52 + f))
    f64Finite w = true ∧ f64Mag w = (2 ^ 52 + f) * 2 ^ (e - 1) := by
  intro w
  obtain ⟨-, -, he, hfr⟩ := f64_fields (s := s) (by omega : e < 2 ^ 11) hf
  change f64Exp w = e at he
  change f64Frac w = f at hfr
  constructor
  · simp only [f64Finite, he, bne_iff_ne]; omega
  · rw [f64Mag, he, hfr, if_neg (by omega)]

/-! ### Numbers n·2^t with n below 2^53 -/

/-- The exponent and fraction bits of n·2^t, n positive and below 2^53 (R166 (a)). -/
def f64Bits (n t : Nat) : Nat :=
  (1023 + Nat.log2 n + t) * 2 ^ 52 + (n - 2 ^ Nat.log2 n) * 2 ^ (52 - Nat.log2 n)

theorem log2_bounds {n : Nat} (h0 : 0 < n) (h : n < 2 ^ 53) :
    2 ^ Nat.log2 n ≤ n ∧ n < 2 ^ (Nat.log2 n + 1) ∧ Nat.log2 n ≤ 52 := by
  refine ⟨Nat.log2_self_le h0.ne', Nat.lt_log2_self, ?_⟩
  have := (Nat.log2_lt h0.ne').mpr h
  omega

theorem f64Bits_frac_lt {n : Nat} (h0 : 0 < n) (h : n < 2 ^ 53) :
    (n - 2 ^ Nat.log2 n) * 2 ^ (52 - Nat.log2 n) < 2 ^ 52 := by
  obtain ⟨h1, h2, h3⟩ := log2_bounds h0 h
  have : (n - 2 ^ Nat.log2 n) * 2 ^ (52 - Nat.log2 n) < 2 ^ Nat.log2 n * 2 ^ (52 - Nat.log2 n) :=
    Nat.mul_lt_mul_of_pos_right (by rw [Nat.pow_succ] at h2; omega) (by positivity)
  rwa [← Nat.pow_add, Nat.add_sub_cancel' h3] at this

/-- The pattern of ±n·2^t is a finite number of that value. -/
theorem f64Bits_spec {s : Bool} {n t : Nat} (h0 : 0 < n) (h : n < 2 ^ 53) (ht : t ≤ 900) :
    let w : Word := BitVec.ofNat 64 ((if s then 2 ^ 63 else 0) + f64Bits n t)
    f64Finite w = true ∧ f64Sign w = s ∧ f64Mag w = n * 2 ^ (t + 1074) := by
  intro w
  obtain ⟨h1, h2, h3⟩ := log2_bounds h0 h
  have hf := f64Bits_frac_lt h0 h
  obtain ⟨a, b⟩ := f64_normal (s := s) (e := 1023 + Nat.log2 n + t) (by omega) (by omega) hf
  obtain ⟨-, c, -, -⟩ := f64_fields (s := s) (e := 1023 + Nat.log2 n + t) (by omega) hf
  refine ⟨a, c, b.trans ?_⟩
  have e1 : 2 ^ 52 + (n - 2 ^ Nat.log2 n) * 2 ^ (52 - Nat.log2 n) = n * 2 ^ (52 - Nat.log2 n) := by
    have : (2 ^ 52 : Nat) = 2 ^ Nat.log2 n * 2 ^ (52 - Nat.log2 n) := by
      rw [← Nat.pow_add, Nat.add_sub_cancel' h3]
    rw [this, ← Nat.add_mul, Nat.add_sub_cancel' h1]
  rw [e1, Nat.mul_assoc, ← Nat.pow_add]
  congr 2
  omega

theorem f64OfNat_eq {n : Nat} (h0 : 0 < n) :
    f64OfNat n = BitVec.ofNat 64 ((if false then 2 ^ 63 else 0) + f64Bits n 0) := by
  simp [f64OfNat, f64Bits, h0.ne']

/-- The pattern of an integer below 2^53 is a finite number, not negative, of that value. -/
theorem f64OfNat_spec {n : Nat} (h : n < 2 ^ 53) :
    f64Finite (f64OfNat n) = true ∧ f64Sign (f64OfNat n) = false ∧
      f64Mag (f64OfNat n) = n * 2 ^ 1074 := by
  rcases Nat.eq_zero_or_pos n with rfl | h0
  · refine ⟨by decide, by decide, ?_⟩
    rw [Nat.zero_mul]; rfl
  · have := f64Bits_spec (s := false) (t := 0) h0 h (by omega)
    rw [← f64OfNat_eq h0, Nat.zero_add] at this
    exact this

/-! ### Rounding (R168) -/

theorem rneShift_exact (n k : Nat) : rneShift (n * 2 ^ k) k = n := by
  have hp : 0 < 2 ^ k := by positivity
  simp [rneShift]
  omega

theorem rneShift_scale (n k j : Nat) : rneShift (n * 2 ^ j) (k + j) = rneShift n k := by
  have hp : 0 < 2 ^ j := by positivity
  have e : (2 ^ (k + j) : Nat) = 2 ^ k * 2 ^ j := Nat.pow_add 2 k j
  have h1 : n * 2 ^ j / 2 ^ (k + j) = n / 2 ^ k := by rw [e, Nat.mul_div_mul_right _ _ hp]
  have h2 : n * 2 ^ j % 2 ^ (k + j) = n % 2 ^ k * 2 ^ j := by rw [e, Nat.mul_mod_mul_right]
  have h3 : 2 * (n % 2 ^ k * 2 ^ j) > 2 ^ (k + j) ↔ 2 * (n % 2 ^ k) > 2 ^ k := by
    rw [e, ← Nat.mul_assoc]
    exact Nat.mul_lt_mul_right hp
  have h4 : 2 * (n % 2 ^ k * 2 ^ j) = 2 ^ (k + j) ↔ 2 * (n % 2 ^ k) = 2 ^ k := by
    rw [e, ← Nat.mul_assoc]
    exact Nat.mul_left_inj hp.ne'
  simp only [rneShift, h1, h2, h3, h4]

/-- Adding an even multiple of the unit adds it to the rounded quotient. -/
theorem rneShift_add_even (n c k : Nat) : rneShift (n + 2 * c * 2 ^ k) k = rneShift n k + 2 * c := by
  have hp : 0 < 2 ^ k := by positivity
  have h1 : (n + 2 * c * 2 ^ k) / 2 ^ k = n / 2 ^ k + 2 * c := Nat.add_mul_div_right _ _ hp
  have h2 : (n + 2 * c * 2 ^ k) % 2 ^ k = n % 2 ^ k := Nat.add_mul_mod_self_right _ _ _
  have h3 : (n / 2 ^ k + 2 * c) % 2 = n / 2 ^ k % 2 := Nat.add_mul_mod_self_left _ _ _
  simp only [rneShift, h1, h2, h3]
  split <;> omega

/-- The magnitude bits of a number whose leading bit is known. -/
theorem roundMag_of_binade {v u : Nat} (h1 : 2 ^ (52 + u) ≤ v) (h2 : v < 2 ^ (53 + u))
    (hu : 1074 ≤ u) : roundMag v = (u - 1074) * 2 ^ 52 + rneShift v u := by
  have hv : v ≠ 0 := by
    have : 0 < 2 ^ (52 + u) := by positivity
    omega
  have h3 : Nat.log2 v = 52 + u := by
    have a := (Nat.le_log2 hv).mpr h1
    have b := (Nat.log2_lt hv).mpr h2
    omega
  have h4 : max (Nat.log2 v - 52) 1074 = u := by omega
  simp only [roundMag, h4]

/-- n·2^t is exact for n below 2^53. -/
theorem roundMag_exact {n t : Nat} (h0 : 0 < n) (h : n < 2 ^ 53) :
    roundMag (n * 2 ^ (t + 2148)) = f64Bits n t := by
  obtain ⟨h1, h2, h3⟩ := log2_bounds h0 h
  obtain ⟨T, hT⟩ : ∃ T, T = t + 2148 := ⟨_, rfl⟩
  obtain ⟨u, hu⟩ : ∃ u, u = Nat.log2 n + t + 2096 := ⟨_, rfl⟩
  rw [← hT]
  have hp : 0 < 2 ^ T := by positivity
  have b1 : 2 ^ (52 + u) ≤ n * 2 ^ T := by
    have : 52 + u = Nat.log2 n + T := by omega
    rw [this, Nat.pow_add]
    exact Nat.mul_le_mul_right _ h1
  have b2 : n * 2 ^ T < 2 ^ (53 + u) := by
    have : 53 + u = (Nat.log2 n + 1) + T := by omega
    rw [this, Nat.pow_add 2 (Nat.log2 n + 1)]
    exact Nat.mul_lt_mul_of_pos_right h2 hp
  rw [roundMag_of_binade b1 b2 (by omega)]
  have e : n * 2 ^ T = n * 2 ^ (52 - Nat.log2 n) * 2 ^ u := by
    rw [Nat.mul_assoc, ← Nat.pow_add]
    congr 2
    omega
  rw [e, rneShift_exact, f64Bits]
  have e1 : n * 2 ^ (52 - Nat.log2 n)
      = 2 ^ 52 + (n - 2 ^ Nat.log2 n) * 2 ^ (52 - Nat.log2 n) := by
    have : (2 ^ 52 : Nat) = 2 ^ Nat.log2 n * 2 ^ (52 - Nat.log2 n) := by
      rw [← Nat.pow_add, Nat.add_sub_cancel' h3]
    rw [this, ← Nat.add_mul, Nat.add_sub_cancel' h1]
  rw [e1]
  have : u - 1074 = Nat.log2 n + t + 1022 := by omega
  rw [this]
  ring

/-- An exact nonzero value ±n·2^t, n below 2^53, rounds to its own pattern. -/
theorem roundBits_exact {nz : Bool} {v : Int} {n t : Nat} (h0 : 0 < n) (h : n < 2 ^ 53) (ht : t ≤ 900)
    (hv : v.natAbs = n * 2 ^ (t + 2148)) :
    roundBits nz v
      = some (BitVec.ofNat 64 ((if decide (v < 0) then 2 ^ 63 else 0) + f64Bits n t)) := by
  have hne : v ≠ 0 := by
    rintro rfl
    have : 0 < n * 2 ^ (t + 2148) := by positivity
    simp at hv
    omega
  obtain ⟨h1, h2, h3⟩ := log2_bounds h0 h
  have hf := f64Bits_frac_lt h0 h
  have hlt : f64Bits n t < 2047 * 2 ^ 52 := by unfold f64Bits; omega
  unfold roundBits
  simp only [hv, roundMag_exact h0 h, if_neg hne, if_pos hlt]


/-! ### The operations on exact values -/

theorem f64Units_of_spec {w : Word} {s : Bool} {m : Nat} (h : f64Sign w = s) (h' : f64Mag w = m) :
    f64Units w = if s then -(m : Int) else m := by rw [f64Units, h, h']

theorem f64Units_f64OfNat {n : Nat} (h : n < 2 ^ 53) :
    f64Units (f64OfNat n) = n * (2 ^ 1074 : Nat) := by
  obtain ⟨-, h1, h2⟩ := f64OfNat_spec h
  rw [f64Units_of_spec h1 h2]
  exact Nat.cast_mul n _

theorem signed_natAbs {neg : Bool} {N : Nat} (h : 0 < N) :
    (if neg then -(N : Int) else N).natAbs = N ∧ decide ((if neg then -(N : Int) else N) < 0) = neg := by
  cases neg with
  | false => simp
  | true => simp; omega

/-- A fused multiply-add whose exact value is ±n·2^t, n positive and below 2^53, gives its pattern. -/
theorem fmaBits_exact {x y z : Word} {n t : Nat} (hx : f64Finite x = true) (hy : f64Finite y = true)
    (hz : f64Finite z = true) (h0 : 0 < n) (h : n < 2 ^ 53) (ht : t ≤ 900) {neg : Bool}
    (hv : f64Units x * f64Units y + f64Units z * (2 ^ 1074 : Nat)
      = if neg then -((n * 2 ^ (t + 2148) : Nat) : Int) else (n * 2 ^ (t + 2148) : Nat)) :
    fmaBits x y z = BitVec.ofNat 64 ((if neg then 2 ^ 63 else 0) + f64Bits n t) := by
  obtain ⟨hn, hs⟩ := signed_natAbs (neg := neg) (by positivity : 0 < n * 2 ^ (t + 2148))
  rw [fmaBits, hx, hy, hz, hv, roundBits_exact h0 h ht hn, hs]
  rfl

/-- A subtraction whose exact value is ±n·2^t, n positive and below 2^53, gives its pattern. -/
theorem fsubBits_exact {x y : Word} {n t : Nat} (hx : f64Finite x = true) (hy : f64Finite y = true)
    (h0 : 0 < n) (h : n < 2 ^ 53) (ht : t ≤ 900) {neg : Bool}
    (hv : (f64Units x - f64Units y) * (2 ^ 1074 : Nat)
      = if neg then -((n * 2 ^ (t + 2148) : Nat) : Int) else (n * 2 ^ (t + 2148) : Nat)) :
    fsubBits x y = BitVec.ofNat 64 ((if neg then 2 ^ 63 else 0) + f64Bits n t) := by
  obtain ⟨hn, hs⟩ := signed_natAbs (neg := neg) (by positivity : 0 < n * 2 ^ (t + 2148))
  rw [fsubBits, hx, hy, hv, roundBits_exact h0 h ht hn, hs]
  rfl

/-- A subtraction of a number from itself, not both of them −0 and +0, gives +0.0. -/
theorem fsubBits_self {x y : Word} (hx : f64Finite x = true) (hy : f64Finite y = true)
    (hs : f64Sign x = false) (hv : f64Units x = f64Units y) : fsubBits x y = 0 := by
  rw [fsubBits, hx, hy, hv, hs, Int.sub_self, Int.zero_mul]
  rfl

/-- The result of a fused multiply-add with a positive exact value in a known binade, above the
subnormals (R168). -/
theorem fmaBits_round {x y z : Word} {v u : Nat} (hx : f64Finite x = true) (hy : f64Finite y = true)
    (hz : f64Finite z = true)
    (hv : f64Units x * f64Units y + f64Units z * (2 ^ 1074 : Nat) = (v : Int))
    (h1 : 2 ^ (52 + u) ≤ v) (h2 : v < 2 ^ (53 + u)) (hu : 1074 ≤ u)
    (hlt : (u - 1074) * 2 ^ 52 + rneShift v u < 2047 * 2 ^ 52) :
    fmaBits x y z = BitVec.ofNat 64 ((u - 1074) * 2 ^ 52 + rneShift v u) := by
  have hpos : 0 < 2 ^ (52 + u) := by positivity
  have hne : (v : Int) ≠ 0 := by omega
  have hneg : decide ((v : Int) < 0) = false := by simp
  rw [fmaBits, hx, hy, hz, hv]
  simp only [roundBits, if_neg hne, Int.natAbs_natCast, roundMag_of_binade h1 h2 hu, if_pos hlt, hneg,
    Bool.and_true, if_true]
  simp

end Sys2Proof.Machine
end

