-- ==== Sys2Proof/Laws/State.lean ====
section
/-! SUPPORT. One lemma per field per update of State, true by rfl, and what reading a register gives
after an update. -/

namespace Sys2Proof.Machine

section
variable (s : State) (r r' : Reg) (v : BigReg) (b : Bool) (y : Reply) (op : HostOp)

@[simp] theorem setReg_modulus : (s.setReg r v).modulus = s.modulus := rfl
@[simp] theorem setReg_n0 : (s.setReg r v).n0 = s.n0 := rfl
@[simp] theorem setReg_status : (s.setReg r v).status = s.status := rfl
@[simp] theorem setReg_pending : (s.setReg r v).pending = s.pending := rfl
@[simp] theorem setReg_replies : (s.setReg r v).replies = s.replies := rfl
@[simp] theorem setReg_draws : (s.setReg r v).draws = s.draws := rfl
theorem setReg_x : (s.setReg r v).x = s.x.set r.val v r.isLt := rfl

@[simp] theorem reg_setReg_same : (s.setReg r v).reg r = v := by
  simp [State.reg, State.setReg, Vector.get_eq_getElem]

theorem reg_setReg_of_ne (h : r' ≠ r) : (s.setReg r v).reg r' = s.reg r' := by
  have h' : r.val ≠ r'.val := fun e => h (Fin.ext e.symm)
  simp [State.reg, State.setReg, Vector.get_eq_getElem, h']

theorem reg_setReg : (s.setReg r v).reg r' = if r' = r then v else s.reg r' := by
  by_cases h : r' = r
  · simp [h]
  · simp [h, reg_setReg_of_ne]

/-- The registers of a state depend on its field `x` only. -/
theorem reg_congr {s t : State} (h : t.x = s.x) : t.reg r = s.reg r := by
  simp [State.reg, h]

@[simp] theorem setBorrow_x : (s.setBorrow b).x = s.x := rfl
@[simp] theorem setBorrow_reg : (s.setBorrow b).reg r = s.reg r := rfl
@[simp] theorem setBorrow_modulus : (s.setBorrow b).modulus = s.modulus := rfl
@[simp] theorem setBorrow_n0 : (s.setBorrow b).n0 = s.n0 := rfl
@[simp] theorem setBorrow_pending : (s.setBorrow b).pending = s.pending := rfl
@[simp] theorem setBorrow_replies : (s.setBorrow b).replies = s.replies := rfl
@[simp] theorem setBorrow_draws : (s.setBorrow b).draws = s.draws := rfl
@[simp] theorem setBorrow_status : (s.setBorrow b).status = { s.status with borrow := b } := rfl

@[simp] theorem setEq_x : (s.setEq b).x = s.x := rfl
@[simp] theorem setEq_reg : (s.setEq b).reg r = s.reg r := rfl
@[simp] theorem setEq_modulus : (s.setEq b).modulus = s.modulus := rfl
@[simp] theorem setEq_n0 : (s.setEq b).n0 = s.n0 := rfl
@[simp] theorem setEq_pending : (s.setEq b).pending = s.pending := rfl
@[simp] theorem setEq_replies : (s.setEq b).replies = s.replies := rfl
@[simp] theorem setEq_draws : (s.setEq b).draws = s.draws := rfl
@[simp] theorem setEq_status : (s.setEq b).status = { s.status with eq := b } := rfl

@[simp] theorem setGt_x : (s.setGt b).x = s.x := rfl
@[simp] theorem setGt_reg : (s.setGt b).reg r = s.reg r := rfl
@[simp] theorem setGt_modulus : (s.setGt b).modulus = s.modulus := rfl
@[simp] theorem setGt_n0 : (s.setGt b).n0 = s.n0 := rfl
@[simp] theorem setGt_pending : (s.setGt b).pending = s.pending := rfl
@[simp] theorem setGt_replies : (s.setGt b).replies = s.replies := rfl
@[simp] theorem setGt_draws : (s.setGt b).draws = s.draws := rfl
@[simp] theorem setGt_status : (s.setGt b).status = { s.status with gt := b } := rfl

@[simp] theorem drew_x : s.drew.x = s.x := rfl
@[simp] theorem drew_reg : s.drew.reg r = s.reg r := rfl
@[simp] theorem drew_modulus : s.drew.modulus = s.modulus := rfl
@[simp] theorem drew_n0 : s.drew.n0 = s.n0 := rfl
@[simp] theorem drew_status : s.drew.status = s.status := rfl
@[simp] theorem drew_pending : s.drew.pending = s.pending := rfl
@[simp] theorem drew_replies : s.drew.replies = s.replies := rfl
@[simp] theorem drew_draws : s.drew.draws = s.draws + 1 := rfl

@[simp] theorem raiseIllegal_x : (raiseIllegal s).x = s.x := rfl
@[simp] theorem raiseIllegal_reg : (raiseIllegal s).reg r = s.reg r := rfl
@[simp] theorem raiseIllegal_modulus : (raiseIllegal s).modulus = s.modulus := rfl
@[simp] theorem raiseIllegal_n0 : (raiseIllegal s).n0 = s.n0 := rfl
@[simp] theorem raiseIllegal_pending : (raiseIllegal s).pending = s.pending := rfl
@[simp] theorem raiseIllegal_replies : (raiseIllegal s).replies = s.replies := rfl
@[simp] theorem raiseIllegal_draws : (raiseIllegal s).draws = s.draws := rfl
@[simp] theorem raiseIllegal_status :
    (raiseIllegal s).status = { s.status with err := true } := rfl

@[simp] theorem reply_x : (s.reply y).x = s.x := rfl
@[simp] theorem reply_reg : (s.reply y).reg r = s.reg r := rfl
@[simp] theorem reply_modulus : (s.reply y).modulus = s.modulus := rfl
@[simp] theorem reply_n0 : (s.reply y).n0 = s.n0 := rfl
@[simp] theorem reply_status : (s.reply y).status = s.status := rfl
@[simp] theorem reply_pending : (s.reply y).pending = s.pending := rfl
@[simp] theorem reply_replies : (s.reply y).replies = y :: s.replies := rfl
@[simp] theorem reply_draws : (s.reply y).draws = s.draws := rfl

@[simp] theorem queueFirst_x : (s.queueFirst op).x = s.x := rfl
@[simp] theorem queueFirst_reg : (s.queueFirst op).reg r = s.reg r := rfl
@[simp] theorem queueFirst_pending : (s.queueFirst op).pending = op :: s.pending := rfl

@[simp] theorem resetBlock_status : (resetBlock s).status = Status.reset := rfl
@[simp] theorem resetBlock_pending : (resetBlock s).pending = s.pending := rfl
@[simp] theorem resetBlock_replies : (resetBlock s).replies = s.replies := rfl
@[simp] theorem resetBlock_draws : (resetBlock s).draws = s.draws + 1 := rfl

end

/-- Two states with the same fields are one state. -/
theorem State.ext_fields {s t : State} (hx : t.x = s.x) (hm : t.modulus = s.modulus)
    (hn : t.n0 = s.n0) (hs : t.status = s.status) (hp : t.pending = s.pending)
    (hr : t.replies = s.replies) (hd : t.draws = s.draws) : t = s := by
  cases s; cases t; simp_all

/-- The registers determine the field `x`. -/
theorem x_ext {s t : State} (h : ∀ r, t.reg r = s.reg r) : t.x = s.x := by
  apply Vector.ext
  intro i hi
  exact h ⟨i, hi⟩

/-! ### Words of a register -/

theorem word_setWord_same (v : BigReg) (k : Fin Config.nWord) (w : Word) :
    BigReg.word (BigReg.setWord v k w) k = w := by
  simp [BigReg.word, BigReg.setWord, Vector.get_eq_getElem]

theorem word_setWord_of_ne (v : BigReg) {k j : Fin Config.nWord} (w : Word) (h : j ≠ k) :
    BigReg.word (BigReg.setWord v k w) j = BigReg.word v j := by
  have h' : k.val ≠ j.val := fun e => h (Fin.ext e.symm)
  simp [BigReg.word, BigReg.setWord, Vector.get_eq_getElem, h']

/-- Word `k` of a register made of result words is the k-th word, or 0 past the end. -/
theorem word_ofWords (l : List Word) (k : Fin Config.nWord) :
    BigReg.word (BigReg.ofWords l) k = l.getD k.val 0 := by
  fin_cases k <;> rfl

theorem word_zero (k : Fin Config.nWord) : BigReg.word BigReg.zero k = 0 := by
  fin_cases k <;> rfl

/-- Two registers with the same words are one register. -/
theorem BigReg.ext_word {u v : BigReg} (h : ∀ k, BigReg.word u k = BigReg.word v k) : u = v := by
  apply Vector.ext
  intro i hi
  exact h ⟨i, hi⟩

end Sys2Proof.Machine
end

