-- ==== Sys2Proof/Laws/Limbs.lean ====
section
/-! SUPPORT. Laws of limb sequences (00_scope.md R12): the value of a sequence, the limbs of an
integer, and the limbs read back from a register that result limbs were written to. -/

namespace Sys2Proof.Machine

@[simp] theorem val_nil (W : Nat) : val W [] = 0 := rfl

@[simp] theorem val_cons (W a : Nat) (l : List Nat) : val W (a :: l) = a + 2 ^ W * val W l := rfl

theorem val_append (W : Nat) (a b : List Nat) :
    val W (a ++ b) = val W a + 2 ^ (W * a.length) * val W b := by
  induction a with
  | nil => simp
  | cons x a ih =>
    simp only [List.cons_append, val_cons, ih, List.length_cons, Nat.mul_succ, Nat.pow_add]
    ring

theorem canonical_nil (W : Nat) : Canonical W [] := by simp [Canonical]

theorem canonical_cons {W a : Nat} {l : List Nat} :
    Canonical W (a :: l) ↔ a < 2 ^ W ∧ Canonical W l := by
  simp [Canonical]

theorem canonical_append {W : Nat} {a b : List Nat} :
    Canonical W (a ++ b) ↔ Canonical W a ∧ Canonical W b := by
  simp [Canonical, or_imp, forall_and]

/-- A canonical sequence of L limbs of W bits is below 2^(W·L). -/
theorem val_lt {W : Nat} {l : List Nat} (h : Canonical W l) : val W l < 2 ^ (W * l.length) := by
  induction l with
  | nil => simp
  | cons a l ih =>
    obtain ⟨ha, hl⟩ := canonical_cons.mp h
    have := ih hl
    simp only [val_cons, List.length_cons, Nat.mul_succ, Nat.pow_add]
    have h2 : 2 ^ W * (val W l + 1) ≤ 2 ^ W * 2 ^ (W * l.length) := Nat.mul_le_mul_left _ this
    rw [Nat.mul_comm (2 ^ (W * l.length))]
    linarith [Nat.mul_add (2 ^ W) (val W l) 1]

@[simp] theorem length_limbsOf (L W v : Nat) : (limbsOf L W v).length = L := by
  induction L generalizing v with
  | zero => rfl
  | succ L ih => simp [limbsOf, ih]

theorem canonical_limbsOf (L W v : Nat) : Canonical W (limbsOf L W v) := by
  induction L generalizing v with
  | zero => exact canonical_nil W
  | succ L ih => exact canonical_cons.mpr ⟨Nat.mod_lt _ (by positivity), ih _⟩

/-- The limbs of an integer have its value, modulo the radix. -/
theorem val_limbsOf (L W v : Nat) : val W (limbsOf L W v) = v % 2 ^ (W * L) := by
  induction L generalizing v with
  | zero => simp [limbsOf, Nat.mod_one]
  | succ L ih =>
    rw [limbsOf, val_cons, ih, Nat.mul_succ, Nat.add_comm (W * L), Nat.pow_add, Nat.mod_mul]

/-- The limbs of the value of a canonical sequence are the sequence. -/
theorem limbsOf_val {W : Nat} {l : List Nat} (h : Canonical W l) :
    limbsOf l.length W (val W l) = l := by
  induction l with
  | nil => rfl
  | cons a l ih =>
    obtain ⟨ha, hl⟩ := canonical_cons.mp h
    have hp : 0 < 2 ^ W := by positivity
    simp [limbsOf, Nat.add_mul_mod_self_left, Nat.mod_eq_of_lt ha, Nat.add_mul_div_left _ _ hp,
      Nat.div_eq_of_lt ha, ih hl]

/-- Canonical sequences of one length are equal when their values are. -/
theorem eq_of_val_eq {W : Nat} {a b : List Nat} (ha : Canonical W a) (hb : Canonical W b)
    (hl : a.length = b.length) (hv : val W a = val W b) : a = b := by
  rw [← limbsOf_val ha, ← limbsOf_val hb, hl, hv]

/-! ### Reading result limbs back -/

@[simp] theorem length_firstWords (v : BigReg) (L : Nat) :
    (BigReg.firstWords v L).length = min L 9 := by
  simp [BigReg.firstWords]

@[simp] theorem length_limbs (v : BigReg) (L : Nat) : (BigReg.limbs v L).length = min L 9 := by
  simp [BigReg.limbs]

@[simp] theorem length_i32 (v : BigReg) : (BigReg.i32 v).length = 8 := by simp [BigReg.i32]

@[simp] theorem length_i9 (v : BigReg) : (BigReg.i9 v).length = 9 := by simp [BigReg.i9]

@[simp] theorem length_u51 (v : BigReg) : (BigReg.u51 v).length = 5 := by simp [BigReg.u51]

@[simp] theorem length_f51Words (v : BigReg) : (BigReg.f51Words v).length = 5 := by
  simp [BigReg.f51Words]

@[simp] theorem length_f51 (v : BigReg) : (BigReg.f51 v).length = 5 := by simp [BigReg.f51]

/-- The first L words of a register made of L result words are those words. -/
theorem firstWords_ofWords {l : List Word} (h : l.length ≤ 9) :
    BigReg.firstWords (BigReg.ofWords l) l.length = l := by
  match l, h with
  | [], _ => rfl
  | [_], _ => rfl
  | [_, _], _ => rfl
  | [_, _, _], _ => rfl
  | [_, _, _, _], _ => rfl
  | [_, _, _, _, _], _ => rfl
  | [_, _, _, _, _, _], _ => rfl
  | [_, _, _, _, _, _, _], _ => rfl
  | [_, _, _, _, _, _, _, _], _ => rfl
  | [_, _, _, _, _, _, _, _, _], _ => rfl
  | _ :: _ :: _ :: _ :: _ :: _ :: _ :: _ :: _ :: _ :: _, h =>
    simp only [List.length_cons] at h
    omega

@[simp] theorem length_wordsOfLimbs (l : List Nat) : (wordsOfLimbs l).length = l.length := by
  simp [wordsOfLimbs]

/-- Result limbs that fit their words are read back as they were written (10_state.md R36, R45). -/
theorem limbs_ofWords {l : List Nat} (hlen : l.length ≤ 9) (h : Canonical 64 l) :
    BigReg.limbs (BigReg.ofWords (wordsOfLimbs l)) l.length = l := by
  have := firstWords_ofWords (l := wordsOfLimbs l) (by simpa using hlen)
  rw [length_wordsOfLimbs] at this
  rw [BigReg.limbs, this, wordsOfLimbs, List.map_map]
  conv_rhs => rw [← List.map_id l]
  refine List.map_congr_left fun a ha => ?_
  simpa using Nat.mod_eq_of_lt (h a ha)

/-- Canonical limbs of at most 64 bits fit their words. -/
theorem Canonical.mono {W V : Nat} {l : List Nat} (h : Canonical W l) (hWV : W ≤ V) :
    Canonical V l := fun a ha =>
  Nat.lt_of_lt_of_le (h a ha) (Nat.pow_le_pow_right (by decide) hWV)

/-- The words of a register past its result words are 0 (10_state.md R44). -/
theorem word_ofWords_of_le {l : List Word} {k : Fin Config.nWord} (h : l.length ≤ k.val) :
    BigReg.word (BigReg.ofWords l) k = 0 := by
  rw [word_ofWords, List.getD_eq_default _ _ h]

/-- Limb `k` of a register is its word `k` as an integer. -/
theorem getD_limbs (v : BigReg) {L : Nat} (k : Fin Config.nWord) (h : k.val < L) :
    (BigReg.limbs v L).getD k.val 0 = (BigReg.word v k).toNat := by
  have hk := k.isLt
  simp only [Config.nWord] at hk
  rw [List.getD_eq_getElem _ _ (by simp; omega)]
  simp [BigReg.limbs, BigReg.firstWords, BigReg.word, Vector.get_eq_getElem]

/-! ### The row of multiply-accumulate steps -/

theorem length_mulAddRow (x c : Nat) (t y : List Nat) :
    (mulAddRow x c t y).1.length = min t.length y.length := by
  induction t generalizing c y with
  | nil => simp [mulAddRow]
  | cons a t ih =>
    cases y with
    | nil => simp [mulAddRow]
    | cons b y => simp [mulAddRow, ih, Nat.succ_min_succ]

/-- A row adds `x` times the value of `y` and the carry to the value of `t`; its last carry has the
weight of the next limb (40_datapath_units.md R100). -/
theorem val_mulAddRow (x c : Nat) {t y : List Nat} (h : t.length = y.length) :
    val 32 (mulAddRow x c t y).1 + 2 ^ (32 * t.length) * (mulAddRow x c t y).2
      = val 32 t + x * val 32 y + c := by
  induction t generalizing c y with
  | nil =>
    have : y = [] := by simpa using h.symm
    simp [mulAddRow, this]
  | cons a t ih =>
    cases y with
    | nil => simp at h
    | cons b y =>
      have hl : t.length = y.length := by simpa using h
      have := ih ((a + x * b + c) / 2 ^ 32) hl
      have hd := Nat.div_add_mod (a + x * b + c) (2 ^ 32)
      rw [List.length_cons, Nat.mul_succ, Nat.pow_add]
      change (a + x * b + c) % 2 ^ 32
          + 2 ^ 32 * val 32 (mulAddRow x ((a + x * b + c) / 2 ^ 32) t y).1
          + 2 ^ (32 * t.length) * 2 ^ 32 * (mulAddRow x ((a + x * b + c) / 2 ^ 32) t y).2
        = a + 2 ^ 32 * val 32 t + x * (b + 2 ^ 32 * val 32 y) + c
      generalize (a + x * b + c) % 2 ^ 32 = lo at *
      generalize (a + x * b + c) / 2 ^ 32 = hi at *
      generalize val 32 (mulAddRow x hi t y).1 = r at *
      generalize (mulAddRow x hi t y).2 = f at *
      generalize 2 ^ (32 * t.length) = B at *
      generalize 2 ^ 32 = R at *
      linear_combination hd + R * this

theorem canonical_mulAddRow (x c : Nat) (t y : List Nat) : Canonical 32 (mulAddRow x c t y).1 := by
  induction t generalizing c y with
  | nil => simp [mulAddRow, Canonical]
  | cons a t ih =>
    cases y with
    | nil => simp [mulAddRow, Canonical]
    | cons b y => exact canonical_cons.mpr ⟨Nat.mod_lt _ (by decide), ih _ _⟩

/-- The bound of 40_datapath_units.md R100: no carry reaches 2^32. -/
theorem mulAdd32_carry_lt {t x y c : Nat} (ht : t < 2 ^ 32) (hx : x < 2 ^ 32) (hy : y < 2 ^ 32)
    (hc : c < 2 ^ 32) : (mulAdd32 t x y c).1 < 2 ^ 32 := by
  have h : x * y ≤ 4294967295 * 4294967295 := Nat.mul_le_mul (by omega) (by omega)
  refine Nat.div_lt_of_lt_mul ?_
  generalize x * y = m at h ⊢
  omega

theorem mulAddRow_carry_lt {x c : Nat} {t y : List Nat} (hx : x < 2 ^ 32) (hc : c < 2 ^ 32)
    (ht : Canonical 32 t) (hy : Canonical 32 y) : (mulAddRow x c t y).2 < 2 ^ 32 := by
  induction t generalizing c y with
  | nil => simpa [mulAddRow] using hc
  | cons a t ih =>
    cases y with
    | nil => simpa [mulAddRow] using hc
    | cons b y =>
      obtain ⟨ha, ht'⟩ := canonical_cons.mp ht
      obtain ⟨hb, hy'⟩ := canonical_cons.mp hy
      exact ih (mulAdd32_carry_lt ha hx hb hc) ht' hy'

theorem qDigit_lt (t0 n0 W : Nat) : qDigit t0 n0 W < 2 ^ W := Nat.mod_lt _ (by positivity)

theorem qDigitBM_lt (mu b0 aj d0 e0 : Nat) : qDigitBM mu b0 aj d0 e0 < 2 ^ 32 :=
  Nat.mod_lt _ (by decide)

end Sys2Proof.Machine
end

