-- ==== Sys2Proof/Laws/Datapath.lean ====
section
/-! SUPPORT. Laws of the shared datapath units (40_datapath_units.md): the carry pass, the comparator,
the subtractor, the conditional subtraction and combination, the quotient digits. -/

namespace Sys2Proof.Machine

/-! ### The carry pass (R102) -/

@[simp] theorem length_carryPassFrom (W c : Nat) (S : List Nat) :
    (carryPassFrom W c S).length = S.length := by
  induction S generalizing c with
  | nil => rfl
  | cons t S ih => cases S with
    | nil => rfl
    | cons u l => simp only [carryPassFrom, List.length_cons, ih]

@[simp] theorem length_carryPass (W : Nat) (S : List Nat) : (carryPass W S).length = S.length :=
  length_carryPassFrom W 0 S

/-- A carry pass adds the incoming carry to the value of a sequence that has a limb. -/
theorem val_carryPassFrom (W c : Nat) {S : List Nat} (h : S ≠ []) :
    val W (carryPassFrom W c S) = val W S + c := by
  induction S generalizing c with
  | nil => exact absurd rfl h
  | cons t S ih => cases S with
    | nil => simp [carryPassFrom]
    | cons u l =>
      have hd := Nat.div_add_mod (t + c) (2 ^ W)
      rw [carryPassFrom, val_cons, ih _ (by simp), val_cons W t, Nat.mul_add]
      omega

theorem canonical_dropLast_carryPassFrom (W c : Nat) (S : List Nat) :
    Canonical W (carryPassFrom W c S).dropLast := by
  induction S generalizing c with
  | nil => simp [carryPassFrom, Canonical]
  | cons t S ih => cases S with
    | nil => simp [carryPassFrom, Canonical]
    | cons u l =>
      have hne : carryPassFrom W ((t + c) / 2 ^ W) (u :: l) ≠ [] := by
        intro h
        simpa using congrArg List.length h
      rw [carryPassFrom, List.dropLast_cons_of_ne_nil hne]
      exact canonical_cons.mpr ⟨Nat.mod_lt _ (by positivity), ih _⟩

/-! ### The comparator (R104, R106) -/

/-- Equality of the limbs is equality of the sequences. -/
theorem eqLimbs_iff {a b : List Nat} (h : a.length = b.length) : eqLimbs a b = true ↔ a = b := by
  induction a generalizing b with
  | nil => cases b with
    | nil => simp [eqLimbs]
    | cons y b => simp at h
  | cons x a ih => cases b with
    | nil => simp at h
    | cons y b => simp [eqLimbs, ih (by simpa using h)]

/-- The top limbs decide first. -/
theorem gtLimbs_concat (a b : List Nat) (x y : Nat) :
    gtLimbs (a ++ [x]) (b ++ [y]) = if x > y then true else if x < y then false else gtLimbs a b := by
  simp [gtLimbs, gtLex]

theorem gtLimbs_self (a : List Nat) : gtLimbs a a = false := by
  have h : ∀ l : List Nat, gtLex l l = false := by
    intro l
    induction l with
    | nil => rfl
    | cons x l ih => simp [gtLex, ih]
  exact h _

/-- With canonical limbs below the top ones, greater-than decides by value. -/
theorem gtLimbs_iff {W : Nat} {a b : List Nat} (h : a.length = b.length)
    (ha : Canonical W a.dropLast) (hb : Canonical W b.dropLast) :
    gtLimbs a b = true ↔ val W b < val W a := by
  induction a using List.reverseRecOn generalizing b with
  | nil =>
    have : b = [] := by simpa using h.symm
    simp [this, gtLimbs, gtLex]
  | append_singleton a x ih =>
    obtain ⟨b, y, rfl⟩ : ∃ b' y, b = b' ++ [y] := by
      refine ⟨b.dropLast, b.getLast ?_, (List.dropLast_append_getLast _).symm⟩
      rintro rfl
      simp at h
    have hl : a.length = b.length := by simpa using h
    simp only [List.dropLast_concat] at ha hb
    have hva := val_lt ha
    have hvb := val_lt hb
    rw [gtLimbs_concat, val_append, val_append, hl]
    rw [hl] at hva
    simp only [val_cons, val_nil, Nat.mul_zero, Nat.add_zero]
    have hd : ∀ {l : List Nat}, Canonical W l → Canonical W l.dropLast :=
      fun hl x hx => hl x (List.dropLast_subset _ hx)
    rcases Nat.lt_trichotomy x y with hxy | rfl | hxy
    · have : 2 ^ (W * b.length) * (x + 1) ≤ 2 ^ (W * b.length) * y := Nat.mul_le_mul_left _ hxy
      rw [Nat.mul_add] at this
      simp only [if_neg (by omega : ¬ x > y), if_pos hxy, Bool.false_eq_true, false_iff]
      omega
    · simp [ih hl (hd ha) (hd hb)]
    · have : 2 ^ (W * b.length) * (y + 1) ≤ 2 ^ (W * b.length) * x := Nat.mul_le_mul_left _ hxy
      rw [Nat.mul_add] at this
      simp only [if_pos hxy, true_iff]
      omega

/-! ### The subtractor (R105) -/

theorem length_subLimbsFrom (W : Nat) (bw : Bool) {a b : List Nat} (h : a.length = b.length) :
    (subLimbsFrom W bw a b).1.length = a.length := by
  induction a generalizing b bw with
  | nil => simp [subLimbsFrom]
  | cons x a ih => cases b with
    | nil => simp at h
    | cons y b => simp [subLimbsFrom, ih _ (by simpa using h)]

@[simp] theorem length_subLimbs (W : Nat) {a b : List Nat} (h : a.length = b.length) :
    (subLimbs W a b).1.length = a.length := length_subLimbsFrom W false h

theorem canonical_subLimbsFrom (W : Nat) (bw : Bool) (a b : List Nat) :
    Canonical W (subLimbsFrom W bw a b).1 := by
  induction a generalizing b bw with
  | nil => simp [subLimbsFrom, Canonical]
  | cons x a ih => cases b with
    | nil => simp [subLimbsFrom, Canonical]
    | cons y b =>
      refine canonical_cons.mpr ⟨?_, ih _ _⟩
      have := Int.emod_lt_of_pos ((x : Int) - y - bw.toNat) (by positivity : (0 : Int) < (2 ^ W : Nat))
      have := Int.emod_nonneg ((x : Int) - y - bw.toNat) (by positivity : ((2 ^ W : Nat) : Int) ≠ 0)
      omega

theorem canonical_subLimbs (W : Nat) (a b : List Nat) : Canonical W (subLimbs W a b).1 :=
  canonical_subLimbsFrom W false a b

/-- What the subtractor does with a borrow coming in, for a minuend whose top limb may exceed W bits:
the difference modulo 2^(W·L), and a borrow exactly when it is negative. -/
theorem subLimbsFrom_spec (W : Nat) (bw : Bool) {a b : List Nat} (hl : a.length = b.length)
    (ha : Canonical W a.dropLast) (hb : Canonical W b) :
    (val W (subLimbsFrom W bw a b).1 : Int)
        = ((val W a : Int) - val W b - bw.toNat) % (2 ^ (W * a.length) : Nat) ∧
      ((subLimbsFrom W bw a b).2 = true ↔ (val W a : Int) - val W b - bw.toNat < 0) := by
  induction a generalizing b bw with
  | nil =>
    have : b = [] := by simpa using hl.symm
    subst this
    cases bw <;> simp [subLimbsFrom]
  | cons x a ih =>
    obtain ⟨y, b, rfl⟩ : ∃ y b', b = y :: b' := by
      cases b with
      | nil => simp at hl
      | cons y b => exact ⟨y, b, rfl⟩
    have hl' : a.length = b.length := by simpa using hl
    obtain ⟨hy, hb'⟩ := canonical_cons.mp hb
    by_cases hnil : a = []
    · subst hnil
      have : b = [] := by simpa using hl'.symm
      subst this
      have h0 := Int.emod_nonneg ((x : Int) - y - bw.toNat) (by positivity : ((2 ^ W : Nat) : Int) ≠ 0)
      simp only [subLimbsFrom, val_cons, val_nil, List.length_cons, List.length_nil, Nat.mul_zero,
        Nat.add_zero, Nat.zero_add, Nat.mul_one, decide_eq_true_eq]
      exact ⟨Int.toNat_of_nonneg h0, trivial⟩
    · rw [List.dropLast_cons_of_ne_nil hnil] at ha
      obtain ⟨hx, ha'⟩ := canonical_cons.mp ha
      have hM : (0 : Int) < (2 ^ (W * a.length) : Nat) := by positivity
      have hR : (0 : Int) < (2 ^ W : Nat) := by positivity
      have hpow : ((2 ^ (W * (x :: a).length) : Nat) : Int)
          = (2 ^ W : Nat) * (2 ^ (W * a.length) : Nat) := by
        rw [List.length_cons, Nat.mul_succ, Nat.add_comm, Nat.pow_add]; push_cast; ring
      rw [hpow]
      simp only [subLimbsFrom, val_cons]
      set t : Int := (x : Int) - y - bw.toNat with ht
      obtain ⟨i1, i2⟩ := ih (decide (t < 0)) hl' ha' hb'
      have hbw : (bw.toNat : Int) ≤ 1 := by cases bw <;> simp
      have hbw0 : (0 : Int) ≤ bw.toNat := by positivity
      -- the limb written and the borrow passed on make up t
      have hr : t % (2 ^ W : Nat) = t + (2 ^ W : Nat) * (decide (t < 0)).toNat := by
        have hx' : (x : Int) < (2 ^ W : Nat) := by exact_mod_cast hx
        have hy' : (y : Int) < (2 ^ W : Nat) := by exact_mod_cast hy
        by_cases hneg : t < 0
        · simp only [hneg, decide_true, Bool.toNat_true, Nat.cast_one, mul_one]
          rw [← Int.add_emod_right, Int.emod_eq_of_lt (by omega) (by omega)]
        · simp only [hneg, decide_false, Bool.toNat_false, Nat.cast_zero, mul_zero, add_zero]
          exact Int.emod_eq_of_lt (by omega) (by omega)
      have hr0 := Int.emod_nonneg t hR.ne'
      have hr1 := Int.emod_lt_of_pos t hR
      set r0 : Int := t % (2 ^ W : Nat) with hr0def
      set Z : Int := (val W a : Int) - val W b - (decide (t < 0)).toNat with hZ
      have harg : (x + 2 ^ W * val W a : Nat) - ((y + 2 ^ W * val W b : Nat) : Int) - bw.toNat
          = r0 + (2 ^ W : Nat) * Z := by
        push_cast at hr ⊢
        rw [hZ]
        linear_combination ht - hr
      rw [harg]
      constructor
      · push_cast at i1 ⊢
        rw [Int.toNat_of_nonneg hr0, i1]
        have e1 : r0 + (2 ^ W : Int) * Z = (r0 + 2 ^ W * (Z % 2 ^ (W * a.length)))
            + (2 ^ W * 2 ^ (W * a.length)) * (Z / 2 ^ (W * a.length)) := by
          have := Int.mul_ediv_add_emod Z (2 ^ (W * a.length))
          linear_combination (-(2 ^ W : Int)) * this
        rw [e1, Int.add_mul_emod_self_left]
        have hz0 := Int.emod_nonneg Z (b := 2 ^ (W * a.length)) (by positivity)
        have hz1 := Int.emod_lt_of_pos Z (b := 2 ^ (W * a.length)) (by positivity)
        push_cast at hr1
        refine (Int.emod_eq_of_lt (by positivity) ?_).symm
        have := mul_le_mul_of_nonneg_left (Int.add_one_le_of_lt hz1) (by positivity : (0 : Int) ≤ 2 ^ W)
        linarith
      · rw [i2]
        push_cast at hr1 hR ⊢
        constructor
        · intro h
          have := mul_le_mul_of_nonneg_left (Int.add_one_le_of_lt h) hR.le
          linarith
        · intro h
          by_contra hc
          have := mul_nonneg hR.le (not_lt.mp hc)
          linarith

/-- A difference that is not negative comes out exactly. -/
theorem val_subLimbs_of_le {W : Nat} {a b : List Nat} (hl : a.length = b.length)
    (ha : Canonical W a.dropLast) (hb : Canonical W b) (h : val W b ≤ val W a)
    (hlt : val W a < val W b + 2 ^ (W * a.length)) :
    val W (subLimbs W a b).1 = val W a - val W b := by
  have := (subLimbsFrom_spec W false hl ha hb).1
  have hlt' : (val W a : Int) < val W b + (2 ^ (W * a.length) : Nat) := by exact_mod_cast hlt
  rw [Bool.toNat_false, Int.emod_eq_of_lt (by omega) (by omega)] at this
  change (val W (subLimbs W a b).1 : Int) = _ at this
  push_cast at this
  omega

theorem canonical_dropLast {W : Nat} {l : List Nat} (h : Canonical W l) : Canonical W l.dropLast :=
  fun x hx => h x (List.dropLast_subset _ hx)

/-- A sequence below the radix whose limbs below the top one are canonical is canonical. -/
theorem canonical_of_dropLast {W : Nat} {c : List Nat} (h : Canonical W c.dropLast)
    (hv : val W c < 2 ^ (W * c.length)) : Canonical W c := by
  induction c with
  | nil => exact canonical_nil W
  | cons x c ih =>
    by_cases hc : c = []
    · subst hc; simpa [Canonical] using hv
    · rw [List.dropLast_cons_of_ne_nil hc] at h
      obtain ⟨hx, h'⟩ := canonical_cons.mp h
      refine canonical_cons.mpr ⟨hx, ih h' ?_⟩
      rw [val_cons, List.length_cons, Nat.mul_succ, Nat.add_comm (W * c.length), Nat.pow_add] at hv
      exact Nat.lt_of_mul_lt_mul_left (a := 2 ^ W) (by omega)

/-! ### The conditional final subtraction and combination (R107, R108) -/

theorem length_condSub (W : Nat) {c m : List Nat} (h : c.length = m.length) :
    (condSub W c m).length = m.length := by
  unfold condSub
  split
  · exact h
  · rw [length_subLimbs W h, h]

theorem length_combine (W : Nat) {d e m : List Nat} (hd : d.length = m.length)
    (he : e.length = m.length) : (combine W d e m).length = m.length := by
  unfold combine
  split
  · rw [length_subLimbs W (by rw [length_subLimbs W (by omega), he])]
  · rw [length_subLimbs W (by omega), hd]

/-! ### The quotient digits (R110 to R112) -/

theorem qDigit_spec {t0 n0 p0 W : Nat} (h : (n0 * p0 + 1) % 2 ^ W = 0) :
    (t0 + qDigit t0 n0 W * p0) % 2 ^ W = 0 := by
  have h1 : t0 + t0 * n0 * p0 ≡ 0 [MOD 2 ^ W] := by
    have : t0 * (n0 * p0 + 1) ≡ t0 * 0 [MOD 2 ^ W] := Nat.ModEq.mul_left _ h
    calc t0 + t0 * n0 * p0 = t0 * (n0 * p0 + 1) := by ring
      _ ≡ 0 [MOD 2 ^ W] := by simpa using this
  have h2 : qDigit t0 n0 W ≡ t0 * n0 [MOD 2 ^ W] :=
    (Nat.mod_modEq _ _).trans ((Nat.mod_modEq _ _).mul_right _)
  exact ((h2.mul_right p0).add_left t0).trans h1

/-! ### The comparator and the subtractor by value, and on equal operands -/

/-- EqLimbs on canonical operands is the equality of the values (41_fwi_primitives.md R121). -/
theorem eqLimbs_eq_decide {W : Nat} {a b : List Nat} (ha : Canonical W a) (hb : Canonical W b)
    (hl : a.length = b.length) : eqLimbs a b = decide (val W a = val W b) := by
  rw [Bool.eq_iff_iff, decide_eq_true_eq, eqLimbs_iff hl]
  exact ⟨fun h => h ▸ rfl, eq_of_val_eq ha hb hl⟩

/-- GtLimbs on canonical operands is the order of the values (41_fwi_primitives.md R124). -/
theorem gtLimbs_eq_decide {W : Nat} {a b : List Nat} (ha : Canonical W a) (hb : Canonical W b)
    (hl : a.length = b.length) : gtLimbs a b = decide (val W a > val W b) := by
  rw [Bool.eq_iff_iff, decide_eq_true_eq,
    gtLimbs_iff hl (canonical_dropLast ha) (canonical_dropLast hb)]

/-- A sequence less itself is zero, with no borrow (41_fwi_primitives.md R127 (a)). -/
theorem subLimbs_self (W : Nat) (a : List Nat) :
    subLimbs W a a = (List.replicate a.length 0, false) := by
  unfold subLimbs
  induction a with
  | nil => rfl
  | cons x a ih => simp [subLimbsFrom, ih, List.replicate_succ]

end Sys2Proof.Machine
end

