-- ==== Sys2Proof/Laws/Encoding.lean ====
section
/-! SUPPORT. Laws of the encoding: fields and words (30_encoding.md R70), what the decoder accepts (R74), the
masks of the opcode table (R72). -/

namespace Sys2Proof

/-- Fields laid out in a word are read back as they were (30_encoding.md R70). -/
@[simp] theorem ofWord_toWord (f : Fields) : Fields.ofWord f.toWord = f := by
  obtain ⟨opc, rd, ra, rb, z⟩ := f
  simp only [Fields.ofWord, Fields.toWord, Fields.mk.injEq]
  refine ⟨?_, ?_, ?_, ?_, ?_⟩ <;>
  · apply BitVec.eq_of_getLsbD_eq
    intro i hi
    simp
    grind

/-- A word is the word of its fields (30_encoding.md R70). -/
@[simp] theorem toWord_ofWord (w : Word) : (Fields.ofWord w).toWord = w := by
  apply BitVec.eq_of_getLsbD_eq
  intro i hi
  simp [Fields.ofWord, Fields.toWord]
  grind

@[simp] theorem regOfField_fieldOfReg (r : Reg) : regOfField (fieldOfReg r) = r := rfl

@[simp] theorem fieldOfReg_regOfField (b : BitVec 2) : fieldOfReg (regOfField b) = b := rfl

theorem decodeZ_eq_ok {f : Fields} {k : Reg → Instr} {i : Instr} :
    decodeZ f k = .ok i ↔ f.ra = 0 ∧ f.rb = 0 ∧ i = k (regOfField f.rd) := by
  unfold decodeZ
  split <;> rename_i h
  · simp [h, eq_comm]
  · simp only [reduceCtorEq, false_iff]
    tauto

theorem decodeC_eq_ok {f : Fields} {k : Reg → Reg → Instr} {i : Instr} :
    decodeC f k = .ok i ↔ f.rd = 0 ∧ i = k (regOfField f.ra) (regOfField f.rb) := by
  unfold decodeC
  split <;> rename_i h
  · simp [h, eq_comm]
  · simp only [reduceCtorEq, false_iff]
    tauto

theorem decodeR3_eq_ok {f : Fields} {k : Reg → Reg → Reg → Instr} {i : Instr} :
    decodeR3 f k = .ok i ↔ i = k (regOfField f.rd) (regOfField f.ra) (regOfField f.rb) := by
  simp [decodeR3, eq_comm]

theorem decodeR2_eq_ok {f : Fields} {k : Reg → Reg → Instr} {i : Instr} :
    decodeR2 f k = .ok i ↔ f.rb = 0 ∧ i = k (regOfField f.rd) (regOfField f.ra) := by
  unfold decodeR2
  split <;> rename_i h
  · simp [h, eq_comm]
  · simp only [reduceCtorEq, false_iff]
    tauto

/-- The fields of a command decode to it. -/
theorem decodeFields_fields (i : Instr) : decodeFields i.fields = .ok i := by
  cases i <;> simp [decodeFields, decodeOpcode, Instr.fields, Instr.opcode, decodeZ, decodeC,
    decodeR3, decodeR2]

/-- Fields that decode to a command are its fields: no bit of the word is left over. -/
theorem fields_of_decodeFields {f : Fields} {i : Instr} (h : decodeFields f = .ok i) :
    f = i.fields := by
  obtain ⟨opc, rd, ra, rb, z⟩ := f
  unfold decodeFields at h
  split at h
  · cases h
  obtain rfl : z = 0 := by simp_all
  have ho : opc = BitVec.ofNat 8 opc.toNat := by simp
  simp only [decodeOpcode] at h
  split at h <;> rename_i hn <;> (try rw [hn] at ho) <;>
    simp only [decodeZ_eq_ok, decodeC_eq_ok, decodeR3_eq_ok, decodeR2_eq_ok, reduceCtorEq] at h <;>
    subst ho <;> simp [h, Instr.fields, Instr.opcode]

@[simp] theorem opcode_fields (i : Instr) : i.fields.opc = i.opcode := by cases i <;> rfl

/-- The fields of every command are legal. -/
theorem wellFormed_fields (i : Instr) : i.fields.wellFormed = true := by
  cases i <;> simp [Fields.wellFormed, Fields.upperZero, Fields.opcodeAssigned, Fields.unusedZero,
    Instr.fields, Instr.opcode, formatOf?, Format.uses]

/-- Legal fields decode to some command (30_encoding.md R74). -/
theorem decodeFields_of_wellFormed {f : Fields} (h : f.wellFormed = true) :
    ∃ i, decodeFields f = .ok i := by
  obtain ⟨opc, rd, ra, rb, z⟩ := f
  simp only [Fields.wellFormed, Fields.upperZero, Fields.opcodeAssigned, Fields.unusedZero,
    Bool.and_eq_true, beq_iff_eq] at h
  obtain ⟨⟨rfl, hs⟩, hu⟩ := h
  simp only [decodeFields, ne_eq, not_true_eq_false, if_false]
  unfold formatOf? at hs hu
  split at hs
  · rename_i ho; subst ho
    simp [Format.uses] at hu
    simp [decodeOpcode, decodeZ, hu]
  rename_i h1; rw [if_neg h1] at hu
  split at hs
  · rename_i ho
    rw [if_pos ho] at hu
    simp [Format.uses] at hu ho
    rcases ho with rfl | rfl | rfl | rfl | rfl | rfl <;> simp [decodeOpcode, decodeC, hu]
  rename_i h2; rw [if_neg h2] at hu
  split at hs
  · rename_i ho
    simp at ho
    rcases ho with rfl | rfl | rfl | rfl | rfl | rfl | rfl | rfl | rfl <;>
      simp [decodeOpcode, decodeR3]
  rename_i h3; rw [if_neg h3] at hu
  split at hs
  · rename_i ho
    rw [if_pos ho] at hu
    simp [Format.uses] at hu ho
    rcases ho with rfl | rfl <;> simp [decodeOpcode, decodeR2, hu]
  · cases hs

/-! ### The table's masks, field by field (30_encoding.md R72) -/

theorem and_toWord (f g : Fields) : f.toWord &&& g.toWord
    = Fields.toWord ⟨f.opc &&& g.opc, f.rd &&& g.rd, f.ra &&& g.ra, f.rb &&& g.rb, f.z &&& g.z⟩ := by
  have h : (f.z ++ f.rb ++ f.ra ++ f.rd ++ f.opc) &&& (g.z ++ g.rb ++ g.ra ++ g.rd ++ g.opc)
      = (f.z &&& g.z) ++ (f.rb &&& g.rb) ++ (f.ra &&& g.ra) ++ (f.rd &&& g.rd) ++ (f.opc &&& g.opc) := by
    simp only [BitVec.and_append]
  exact h

theorem toWord_inj {f g : Fields} : f.toWord = g.toWord ↔ f = g := by
  refine ⟨fun h => ?_, fun h => h ▸ rfl⟩
  rw [← ofWord_toWord f, h, ofWord_toWord]

/-- The mask of a format: all of OPC and of the upper bits, and the register fields it does not use. -/
theorem mask_eq (fmt : Format) : fmt.mask = Fields.toWord ⟨BitVec.allOnes 8,
    if fmt.uses.1 then 0 else BitVec.allOnes 2, if fmt.uses.2.1 then 0 else BitVec.allOnes 2,
    if fmt.uses.2.2 then 0 else BitVec.allOnes 2, BitVec.allOnes 50⟩ := by
  cases fmt <;> decide

/-- A row selects a word when the opcode is its match value and every field its format does not use,
and every upper bit, is zero (30_encoding.md R72). -/
theorem and_mask_eq_iff (f : Fields) (fmt : Format) (opc : BitVec 8) :
    f.toWord &&& fmt.mask = opc.setWidth 64 ↔ f.opc = opc ∧ f.z = 0 ∧
      (fmt.uses.1 = true ∨ f.rd = 0) ∧ (fmt.uses.2.1 = true ∨ f.ra = 0) ∧
      (fmt.uses.2.2 = true ∨ f.rb = 0) := by
  have h : opc.setWidth 64 = Fields.toWord ⟨opc, 0, 0, 0, 0⟩ := by
    apply BitVec.eq_of_getLsbD_eq
    intro i hi
    simp [Fields.toWord]
    grind
  rw [mask_eq, and_toWord, h, toWord_inj]
  cases fmt <;> simp [Format.uses, -BitVec.reduceAllOnes] <;> tauto

/-- The rows of the table are the assigned opcodes with their formats (30_encoding.md R72, R73). -/
theorem mem_opcodeTable {row : Word × Format} :
    row ∈ opcodeTable ↔ ∃ o : BitVec 8, row.1 = o.setWidth 64 ∧ formatOf? o = some row.2 := by
  constructor
  · have h : ∀ row ∈ opcodeTable, row.1 = (row.1.setWidth 8).setWidth 64 ∧
        formatOf? (row.1.setWidth 8) = some row.2 := by decide
    exact fun hr => ⟨_, h row hr⟩
  · have h : ∀ o : Fin 256, (formatOf? (BitVec.ofFin o)).all
        (fun fmt => ((BitVec.ofFin o : BitVec 8).setWidth 64, fmt) ∈ opcodeTable) = true := by
      decide +kernel
    rintro ⟨o, h1, h2⟩
    have := h o.toFin
    change (formatOf? o).all (fun fmt => (o.setWidth 64, fmt) ∈ opcodeTable) = true at this
    rw [h2] at this
    obtain ⟨w, fmt⟩ := row
    simp only at h1
    subst h1
    simpa using this

/-- Legal fields, field by field (30_encoding.md R74). -/
theorem wellFormed_iff {f : Fields} : f.wellFormed = true ↔ f.z = 0 ∧ ∃ fmt, formatOf? f.opc = some fmt ∧
    (fmt.uses.1 = true ∨ f.rd = 0) ∧ (fmt.uses.2.1 = true ∨ f.ra = 0) ∧
      (fmt.uses.2.2 = true ∨ f.rb = 0) := by
  simp only [Fields.wellFormed, Fields.upperZero, Fields.opcodeAssigned, Fields.unusedZero,
    Bool.and_eq_true, beq_iff_eq]
  cases formatOf? f.opc with
  | none => simp
  | some fmt => simp [and_assoc]

end Sys2Proof
end

