-- ==== Sys2Proof/Laws/Montgomery.lean ====
section
/-! SUPPORT. When a number is the Montgomery product (00_scope.md R19), and what the outer loop of a
CIOS multiplier does to the value of its accumulator, whatever its limbs. -/

namespace Sys2Proof.Machine

/-- The Montgomery product is a residue. -/
theorem montMul_lt {p : Nat} (hp : 0 < p) (a b R : Nat) : montMul a b p R < p := by
  have : NeZero p := ⟨hp.ne'⟩
  exact ZMod.val_lt _

/-- The residue congruent to a·b·R⁻¹ is the Montgomery product (R19). -/
theorem eq_montMul {p n a b r : Nat} (hodd : p % 2 = 1) (hr : r < p)
    (h : r * 2 ^ n ≡ a * b [MOD p]) : r = montMul a b p (2 ^ n) := by
  have : NeZero p := ⟨by omega⟩
  have hc : Nat.Coprime (2 ^ n) p := by
    apply Nat.Coprime.pow_left
    rw [Nat.coprime_two_left, Nat.odd_iff]
    exact hodd
  have hu := ZMod.coe_mul_inv_eq_one (2 ^ n) hc
  have hm : (r : ZMod p) * (2 ^ n : Nat) = a * b := by
    have := (ZMod.natCast_eq_natCast_iff _ _ _).mpr h
    push_cast at this ⊢
    exact this
  have : (r : ZMod p) = a * b * ((2 ^ n : Nat) : ZMod p)⁻¹ := by
    rw [← hm, mul_assoc, hu, mul_one]
  rw [montMul, ← this, ZMod.val_natCast, Nat.mod_eq_of_lt hr]

/-- The Montgomery product does not depend on the order of its operands. -/
theorem montMul_comm (a b p R : Nat) : montMul a b p R = montMul b a p R := by
  rw [montMul, montMul, mul_comm (a : ZMod p)]

/-- The outer loop of CIOS: if one iteration on a digit x adds x·B and some multiple m·P, m below 2^W,
to the accumulator's value and divides it by 2^W, then the loop over the digits of a adds a·B and M·P,
M below 2^(W·L), and divides by 2^(W·L). -/
theorem foldl_cios {σ α : Type} (step : σ → α → σ) (v : σ → Nat) (dig : α → Nat) (Inv : σ → Prop)
    (good : α → Prop) (W B P : Nat)
    (hstep : ∀ s x, Inv s → good x →
      Inv (step s x) ∧ ∃ m, m < 2 ^ W ∧ v (step s x) * 2 ^ W = v s + dig x * B + m * P)
    (l : List α) (hl : ∀ x ∈ l, good x) (s : σ) (hs : Inv s) :
    Inv (l.foldl step s) ∧ ∃ M, M < 2 ^ (W * l.length) ∧
      v (l.foldl step s) * 2 ^ (W * l.length) = v s + val W (l.map dig) * B + M * P := by
  induction l generalizing s with
  | nil => exact ⟨hs, 0, by simp, by simp⟩
  | cons x l ih =>
    obtain ⟨h1, m, hm, e1⟩ := hstep s x hs (hl x (by simp))
    obtain ⟨h2, M, hM, e2⟩ := ih (fun y hy => hl y (by simp [hy])) (step s x) h1
    refine ⟨h2, m + 2 ^ W * M, ?_, ?_⟩
    · rw [List.length_cons, Nat.mul_succ, Nat.pow_add]
      have : 2 ^ W * (M + 1) ≤ 2 ^ W * 2 ^ (W * l.length) := Nat.mul_le_mul_left _ hM
      rw [Nat.mul_add] at this
      rw [Nat.mul_comm (2 ^ (W * l.length))]
      omega
    · rw [List.foldl_cons, List.length_cons, Nat.mul_succ, Nat.pow_add, List.map_cons, val_cons]
      linear_combination 2 ^ W * e2 + e1

/-- A candidate of such a loop, started at 0, is below twice the modulus when both operands are below
it, and is congruent to the Montgomery product. -/
theorem cios_candidate {C n A B P M : Nat} (hP : P % 2 = 1) (hA : A < P) (hB : B < P) (hn : P < 2 ^ n)
    (hM : M < 2 ^ n) (h : C * 2 ^ n = A * B + M * P) :
    C < 2 * P ∧ C % P = montMul A B P (2 ^ n) := by
  constructor
  · have h1 : A * B ≤ 2 ^ n * B := Nat.mul_le_mul_right _ (by omega)
    have h2 : M * P < 2 ^ n * P := Nat.mul_lt_mul_of_pos_right hM (by omega)
    have h3 : 2 ^ n * B < 2 ^ n * P := Nat.mul_lt_mul_of_pos_left hB (by positivity)
    have : 2 ^ n * C < 2 ^ n * (2 * P) := by rw [Nat.mul_comm, h]; linarith
    exact Nat.lt_of_mul_lt_mul_left this
  · refine eq_montMul hP (Nat.mod_lt _ (by omega)) ?_
    have h1 : C % P * 2 ^ n ≡ C * 2 ^ n [MOD P] := (Nat.mod_modEq C P).mul_right _
    rw [h] at h1
    exact h1.trans (by simp [Nat.ModEq])

end Sys2Proof.Machine
end

