-- ==== Sys2Proof/Laws/Multipliers.lean ====
section
/-! SUPPORT. What one outer iteration of each integer multiplier does to its accumulators
(Machine/ClassicCios.lean, PairedBm17.lean, DelayedCarry.lean), and how many limbs a command writes. -/

namespace Sys2Proof.Machine

/-! ### MUL.CIOS32 (42_classic_cios.md R140) -/

/-- The value of the accumulator of MUL.CIOS32. -/
def ciosValue (acc : CiosAcc) : Nat := val 32 acc.low + 2 ^ 256 * (acc.t8 + 2 ^ 32 * acc.t9)

/-- Between outer iterations the accumulator has eight canonical low words, a ninth word and no
tenth, and its value is below 2p. -/
structure CiosInv (P : Nat) (acc : CiosAcc) : Prop where
  length : acc.low.length = 8
  canonical : Canonical 32 acc.low
  top : acc.t9 = 0
  bound : ciosValue acc < 2 * P

theorem ciosInit_inv {P : Nat} (h : 0 < P) : CiosInv P ciosInit :=
  ⟨rfl, by decide, rfl, by simp [ciosValue, ciosInit]; omega⟩

theorem addC_spec (t c W : Nat) : (addC t c W).2 + 2 ^ W * (addC t c W).1 = t + c :=
  Nat.mod_add_div _ _

/-- The multiply pass adds a[i]·B. -/
theorem ciosMultiply_spec {b : List Nat} {ai : Nat} {acc : CiosAcc} (hb : b.length = 8)
    (hl : acc.low.length = 8) (h9 : acc.t9 = 0) :
    (ciosMultiply b ai acc).low.length = 8 ∧ Canonical 32 (ciosMultiply b ai acc).low ∧
      ciosValue (ciosMultiply b ai acc) = ciosValue acc + ai * val 32 b := by
  have hv := val_mulAddRow ai 0 (t := acc.low) (y := b) (by omega)
  have hc := addC_spec acc.t8 (mulAddRow ai 0 acc.low b).2 32
  rw [hl] at hv
  refine ⟨by simp [ciosMultiply, length_mulAddRow, hl, hb], canonical_mulAddRow _ _ _ _, ?_⟩
  simp only [ciosMultiply, ciosValue, h9]
  linear_combination hv + 2 ^ 256 * hc

/-- The reduce pass adds m·P and drops the low word, which is 0 for the right digit. -/
theorem ciosReduce_spec {p : List Nat} {n0 : Nat} {acc : CiosAcc} (hp : p.length = 8)
    (hl : acc.low.length = 8) (hpn : IsNegInverse n0 (val 32 p) 32)
    (hb : ciosValue acc + ciosDigit n0 acc * val 32 p < 2 ^ 33 * 2 ^ 256) :
    (ciosReduce p (ciosDigit n0 acc) acc).low.length = 8 ∧
      Canonical 32 (ciosReduce p (ciosDigit n0 acc) acc).low ∧
      (ciosReduce p (ciosDigit n0 acc) acc).t9 = 0 ∧
      ciosValue (ciosReduce p (ciosDigit n0 acc) acc) * 2 ^ 32
        = ciosValue acc + ciosDigit n0 acc * val 32 p := by
  set m := ciosDigit n0 acc with hm
  have hv := val_mulAddRow m 0 (t := acc.low) (y := p) (by omega)
  have hlen : (mulAddRow m 0 acc.low p).1.length = 8 := by simp [length_mulAddRow, hl, hp]
  have hcan := canonical_mulAddRow m 0 acc.low p
  have hc := addC_spec acc.t8 (mulAddRow m 0 acc.low p).2 32
  have hc2 : (addC acc.t8 (mulAddRow m 0 acc.low p).2 32).2 < 2 ^ 32 := Nat.mod_lt _ (by decide)
  -- the dropped word is 0
  obtain ⟨t0, ts, hlow⟩ : ∃ t0 ts, acc.low = t0 :: ts := by
    cases h : acc.low with
    | nil => simp [h] at hl
    | cons t0 ts => exact ⟨t0, ts, rfl⟩
  obtain ⟨p0, ps, hps⟩ : ∃ p0 ps, p = p0 :: ps := by
    cases h : p with
    | nil => simp [h] at hp
    | cons p0 ps => exact ⟨p0, ps, rfl⟩
  have hs : (mulAddRow m 0 acc.low p).1 = 0 :: (mulAddRow m 0 acc.low p).1.tail := by
    have h1 : (n0 * p0 + 1) % 2 ^ 32 = 0 := by
      have h2 := hpn.2
      rw [hps, val_cons] at h2
      have e : n0 * (p0 + 2 ^ 32 * val 32 ps) + 1 = n0 * p0 + 1 + 2 ^ 32 * (n0 * val 32 ps) := by ring
      rwa [e, Nat.add_mul_mod_self_left] at h2
    have h3 := qDigit_spec (t0 := t0) h1
    have h4 : m = qDigit t0 n0 32 := by rw [hm, ciosDigit, hlow]; rfl
    rw [hlow, hps]
    simp only [mulAddRow, mulAdd32, List.tail_cons, Nat.add_zero, h4, h3]
  set row := mulAddRow m 0 acc.low p with hrow
  set top := addC acc.t8 row.2 32 with htop
  have htl : row.1.tail.length = 7 := by simp [hlen]
  have hvt : val 32 row.1 = 2 ^ 32 * val 32 row.1.tail := by rw [hs]; simp
  have hval : val 32 (row.1.tail ++ [top.2]) = val 32 row.1.tail + 2 ^ 224 * top.2 := by
    rw [val_append, htl]; simp
  rw [hl] at hv
  -- the whole sum, before the word t[8] is cut
  have hsum : (val 32 (row.1.tail ++ [top.2]) + 2 ^ 256 * (acc.t9 + top.1)) * 2 ^ 32
      = ciosValue acc + m * val 32 p := by
    rw [hval]
    simp only [ciosValue]
    rw [hvt] at hv
    linear_combination hv + 2 ^ 256 * hc
  have hsmall : acc.t9 + top.1 < 2 ^ 32 := by
    rw [← hsum] at hb
    have : 2 ^ 256 * (acc.t9 + top.1) * 2 ^ 32 < 2 ^ 33 * 2 ^ 256 := by nlinarith
    omega
  refine ⟨by simp [ciosReduce, hlen, ← hrow], ?_, rfl, ?_⟩
  · exact canonical_append.mpr ⟨fun x hx => hcan x (List.mem_of_mem_tail hx),
      canonical_cons.mpr ⟨hc2, canonical_nil 32⟩⟩
  · rw [← hsum]
    simp only [ciosReduce, ciosValue, ← hrow, ← htop, Nat.mod_eq_of_lt hsmall, Nat.mul_zero,
      Nat.add_zero]

/-- One outer iteration adds a[i]·B and m·P to the accumulator's value and divides it by 2^32; the
value stays below 2p. -/
theorem ciosStep_spec {b p : List Nat} {n0 ai : Nat} {acc : CiosAcc} (hb : b.length = 8)
    (hp : p.length = 8) (hpc : Canonical 32 p) (hpn : IsNegInverse n0 (val 32 p) 32)
    (hB : val 32 b < val 32 p) (h : CiosInv (val 32 p) acc) (hai : ai < 2 ^ 32) :
    CiosInv (val 32 p) (ciosStep b p n0 acc ai) ∧ ∃ m, m < 2 ^ 32 ∧
      ciosValue (ciosStep b p n0 acc ai) * 2 ^ 32
        = ciosValue acc + ai * val 32 b + m * val 32 p := by
  obtain ⟨m1, m2, m3⟩ := ciosMultiply_spec (ai := ai) hb h.length h.top
  set acc1 := ciosMultiply b ai acc with hacc1
  have hm := qDigit_lt (acc1.low.headD 0) n0 32
  have hP := val_lt hpc
  rw [hp] at hP
  have hVb := h.bound
  have h1 : ai * val 32 b ≤ (2 ^ 32 - 1) * val 32 p :=
    Nat.mul_le_mul (by omega) (by omega)
  have h2 : ciosDigit n0 acc1 * val 32 p ≤ (2 ^ 32 - 1) * val 32 p :=
    Nat.mul_le_mul_right _ (by unfold ciosDigit; omega)
  obtain ⟨r1, r2, r3, r4⟩ := ciosReduce_spec hp m1 hpn (by rw [m3]; omega)
  rw [m3] at r4
  exact ⟨⟨r1, r2, r3, by change ciosValue (ciosReduce p (ciosDigit n0 acc1) acc1) < _; omega⟩,
    ciosDigit n0 acc1, hm, r4⟩

/-! ### MUL.BM17S (43_paired_bm17.md R150, R153, R154) -/

@[simp] theorem length_bmRow {x : Nat} {acc y : List Nat} (ha : acc.length = 8) (hy : y.length = 8) :
    (bmRow x acc y).length = 8 := by simp [bmRow, length_mulAddRow, ha, hy]

theorem canonical_bmRow {x : Nat} {acc y : List Nat} (hx : x < 2 ^ 32) (ha : Canonical 32 acc)
    (hy : Canonical 32 y) : Canonical 32 (bmRow x acc y) := by
  refine canonical_append.mpr ⟨fun z hz => canonical_mulAddRow x 0 acc y z (List.mem_of_mem_tail hz), ?_⟩
  exact canonical_cons.mpr ⟨mulAddRow_carry_lt hx (by decide) ha hy, canonical_nil 32⟩

/-- One accumulator's pass adds x·Y, drops the low word and shifts down (R153). -/
theorem val_bmRow {x : Nat} {acc y : List Nat} (ha : acc.length = 8) (hy : y.length = 8) :
    val 32 (bmRow x acc y) * 2 ^ 32 + (acc.headD 0 + x * y.headD 0) % 2 ^ 32
      = val 32 acc + x * val 32 y := by
  have hv := val_mulAddRow x 0 (t := acc) (y := y) (by omega)
  obtain ⟨t0, ts, rfl⟩ : ∃ t0 ts, acc = t0 :: ts := by
    cases acc with
    | nil => simp at ha
    | cons t0 ts => exact ⟨t0, ts, rfl⟩
  obtain ⟨y0, ys, rfl⟩ : ∃ y0 ys, y = y0 :: ys := by
    cases y with
    | nil => simp at hy
    | cons y0 ys => exact ⟨y0, ys, rfl⟩
  have hlen : (mulAddRow x 0 (t0 :: ts) (y0 :: ys)).1.length = 8 := by
    simp only [length_mulAddRow, ha, hy, Nat.min_self]
  set row := mulAddRow x 0 (t0 :: ts) (y0 :: ys) with hrow
  have hs : row.1 = (t0 + x * y0) % 2 ^ 32 :: row.1.tail := by
    simp [hrow, mulAddRow, mulAdd32]
  have htl : row.1.tail.length = 7 := by simp [hlen]
  have h1 : val 32 row.1 = (t0 + x * y0) % 2 ^ 32 + 2 ^ 32 * val 32 row.1.tail := by
    conv_lhs => rw [hs]
    rw [val_cons]
  have h2 : val 32 (bmRow x (t0 :: ts) (y0 :: ys)) = val 32 row.1.tail + 2 ^ 224 * row.2 := by
    rw [bmRow, ← hrow, val_append, htl]; simp
  rw [ha] at hv
  rw [h2, List.headD_cons, List.headD_cons]
  linear_combination hv - h1

/-- An accumulator that starts at most at the bound of its addend keeps below it (R154). -/
theorem bmRow_le {x : Nat} {acc y : List Nat} (ha : acc.length = 8) (hy : y.length = 8)
    (hx : x < 2 ^ 32) (h : val 32 acc ≤ val 32 y) : val 32 (bmRow x acc y) ≤ val 32 y := by
  have hv := val_bmRow (x := x) ha hy
  have h1 : x * val 32 y ≤ (2 ^ 32 - 1) * val 32 y := Nat.mul_le_mul_right _ (by omega)
  omega

theorem bmRow_lt {x : Nat} {acc y : List Nat} (ha : acc.length = 8) (hy : y.length = 8)
    (hx : x < 2 ^ 32) (h : val 32 acc < val 32 y) : val 32 (bmRow x acc y) < val 32 y := by
  have hv := val_bmRow (x := x) ha hy
  have h1 : x * val 32 y ≤ (2 ^ 32 - 1) * val 32 y := Nat.mul_le_mul_right _ (by omega)
  omega

/-- What holds of the two accumulators between outer iterations. -/
structure BmInv (B P : Nat) (acc : BmAcc) : Prop where
  lengthD : acc.d.length = 8
  lengthE : acc.e.length = 8
  canonicalD : Canonical 32 acc.d
  canonicalE : Canonical 32 acc.e
  boundD : val 32 acc.d ≤ B
  boundE : val 32 acc.e < P

theorem bmInit_inv {B P : Nat} (h : 0 < P) : BmInv B P bmInit :=
  ⟨rfl, rfl, by decide, by decide, by simp [bmInit], by simpa [bmInit] using h⟩

theorem qDigitBM_spec {mu b0 aj d0 e0 p0 : Nat} (h : (mu * p0) % 2 ^ 32 = 1) :
    (d0 + aj * b0) % 2 ^ 32 = (e0 + qDigitBM mu b0 aj d0 e0 * p0) % 2 ^ 32 := by
  have hint : ((mu * p0 : Nat) : Int) ≡ 1 [ZMOD (2 ^ 32 : Nat)] := by
    exact_mod_cast (Int.natCast_modEq_iff.mpr (show mu * p0 ≡ 1 [MOD 2 ^ 32] from h))
  have hq : (qDigitBM mu b0 aj d0 e0 : Int) ≡ mu * b0 * aj + mu * (d0 - e0) [ZMOD (2 ^ 32 : Nat)] := by
    unfold qDigitBM
    have h0 := Int.emod_nonneg ((d0 : Int) - e0) (b := (2 ^ 32 : Nat)) (by decide)
    push_cast
    rw [Int.toNat_of_nonneg (by exact_mod_cast h0)]
    refine (Int.mod_modEq _ _).trans ?_
    exact ((Int.mod_modEq _ _).mul_right _).add ((Int.mod_modEq _ _).mul_left _)
  have : ((d0 + aj * b0 : Nat) : Int)
      ≡ ((e0 + qDigitBM mu b0 aj d0 e0 * p0 : Nat) : Int) [ZMOD (2 ^ 32 : Nat)] := by
    push_cast
    refine Int.ModEq.trans ?_ ((hq.mul_right p0).add_left e0).symm
    have h2 : (e0 : Int) + (mu * b0 * aj + mu * (d0 - e0)) * p0
        = ((mu * p0 : Nat) : Int) * (b0 * aj + (d0 - e0)) + e0 := by push_cast; ring
    rw [h2]
    refine Int.ModEq.trans ?_ ((hint.mul_right (b0 * aj + ((d0 : Int) - e0))).add_right e0).symm
    have : (1 : Int) * (b0 * aj + ((d0 : Int) - e0)) + e0 = d0 + aj * b0 := by ring
    rw [this]
  exact Int.natCast_modEq_iff.mp this

/-- One outer iteration keeps the invariant, and the difference of the accumulators becomes
(D − E + a[j]·B − q·P) / 2^32 exactly (R153). -/
theorem bmStep_spec {b p : List Nat} {mu aj : Nat} {acc : BmAcc} (hb : b.length = 8)
    (hp : p.length = 8) (cb : Canonical 32 b) (cp : Canonical 32 p)
    (hmu : IsPosInverse mu (val 32 p) 32) (h : BmInv (val 32 b) (val 32 p) acc) (haj : aj < 2 ^ 32) :
    BmInv (val 32 b) (val 32 p) (bmStep b p mu acc aj) ∧ ∃ q : Nat, q < 2 ^ 32 ∧
      ((val 32 (bmStep b p mu acc aj).d : Int) - val 32 (bmStep b p mu acc aj).e) * 2 ^ 32
        = val 32 acc.d - val 32 acc.e + aj * val 32 b - q * val 32 p := by
  have hq : bmDigit mu b aj acc < 2 ^ 32 := qDigitBM_lt _ _ _ _ _
  refine ⟨⟨length_bmRow h.lengthD hb, length_bmRow h.lengthE hp, canonical_bmRow haj h.canonicalD cb,
    canonical_bmRow hq h.canonicalE cp, bmRow_le h.lengthD hb haj h.boundD,
    bmRow_lt h.lengthE hp hq h.boundE⟩, bmDigit mu b aj acc, hq, ?_⟩
  have hd := val_bmRow (x := aj) h.lengthD hb
  have he := val_bmRow (x := bmDigit mu b aj acc) h.lengthE hp
  have hmu0 : (mu * p.headD 0) % 2 ^ 32 = 1 := by
    have := hmu.2
    obtain ⟨p0, ps, rfl⟩ : ∃ p0 ps, p = p0 :: ps := by
      cases p with
      | nil => simp at hp
      | cons p0 ps => exact ⟨p0, ps, rfl⟩
    rw [val_cons] at this
    have e : mu * (p0 + 2 ^ 32 * val 32 ps) = mu * p0 + 2 ^ 32 * (mu * val 32 ps) := by ring
    rwa [e, Nat.add_mul_mod_self_left] at this
  have hlow := qDigitBM_spec (b0 := b.headD 0) (aj := aj) (d0 := acc.d.headD 0) (e0 := acc.e.headD 0) hmu0
  change _ = (acc.e.headD 0 + bmDigit mu b aj acc * p.headD 0) % 2 ^ 32 at hlow
  rw [hlow] at hd
  zify at hd he
  change ((val 32 (bmRow aj acc.d b) : Int) - val 32 (bmRow (bmDigit mu b aj acc) acc.e p)) * 2 ^ 32 = _
  linear_combination hd - he

/-! ### MUL.BM17V (R151, R154) -/

/-- A multiply-accumulate step on one 64-bit lane, with 32-bit operands, is that of R100: nothing
overflows (43_paired_bm17.md R154). -/
theorem lane_mulAdd {x y c t : Nat} (hx : x < 2 ^ 32) (hy : y < 2 ^ 32) (hc : c < 2 ^ 32)
    (ht : t < 2 ^ 32) :
    BitVec.ofNat 64 x * BitVec.ofNat 64 y + BitVec.ofNat 64 c + BitVec.ofNat 64 t
      = BitVec.ofNat 64 (t + x * y + c) ∧ t + x * y + c < 2 ^ 64 := by
  have h : x * y ≤ 4294967295 * 4294967295 := Nat.mul_le_mul (by omega) (by omega)
  refine ⟨?_, by omega⟩
  rw [← BitVec.ofNat_mul, ← BitVec.ofNat_add, ← BitVec.ofNat_add]
  congr 1
  omega

theorem lane_shr {n : Nat} (h : n < 2 ^ 64) : BitVec.ofNat 64 n >>> 32 = BitVec.ofNat 64 (n / 2 ^ 32) := by
  apply BitVec.eq_of_toNat_eq
  rw [BitVec.toNat_ushiftRight, Nat.shiftRight_eq_div_pow, BitVec.toNat_ofNat, BitVec.toNat_ofNat,
    Nat.mod_eq_of_lt h, Nat.mod_eq_of_lt (by omega)]

theorem lane_and {n : Nat} (h : n < 2 ^ 64) :
    BitVec.ofNat 64 n &&& 0xFFFFFFFF = BitVec.ofNat 64 (n % 2 ^ 32) := by
  apply BitVec.eq_of_toNat_eq
  have : (0xFFFFFFFF : BitVec 64).toNat = 2 ^ 32 - 1 := by decide
  have h2 : n % 2 ^ 32 % 2 ^ 64 = n % 2 ^ 32 := Nat.mod_eq_of_lt (by omega)
  rw [BitVec.toNat_and, this, BitVec.toNat_ofNat, BitVec.toNat_ofNat, Nat.and_two_pow_sub_one_eq_mod,
    Nat.mod_eq_of_lt h, h2]

/-- The inner loop of MUL.BM17V does in lane 0 the row of d and in lane 1 the row of e (R151). -/
theorem bmvRow_eq {x q : Nat} (hx : x < 2 ^ 32) (hq : q < 2 ^ 32) {ds es bs ps : List Nat} {c c' : Nat}
    (hc : c < 2 ^ 32) (hc' : c' < 2 ^ 32) (hds : Canonical 32 ds) (hes : Canonical 32 es)
    (hbs : Canonical 32 bs) (hps : Canonical 32 ps) (h1 : bs.length = ps.length)
    (h2 : ds.length = ps.length) (h3 : es.length = ps.length) :
    bmvRow (vMake (BitVec.ofNat 64 x) (BitVec.ofNat 64 q))
        (vMake (BitVec.ofNat 64 c) (BitVec.ofNat 64 c')) (bmvPack bs ps) (bmvPack ds es)
      = (bmvPack (mulAddRow x c ds bs).1 (mulAddRow q c' es ps).1,
          vMake (BitVec.ofNat 64 (mulAddRow x c ds bs).2) (BitVec.ofNat 64 (mulAddRow q c' es ps).2)) := by
  induction ps generalizing ds es bs c c' with
  | nil =>
    obtain rfl : bs = [] := by simpa using h1
    obtain rfl : ds = [] := by simpa using h2
    obtain rfl : es = [] := by simpa using h3
    rfl
  | cons p ps ih =>
    obtain ⟨b, bs, rfl⟩ : ∃ b bs', bs = b :: bs' := by
      cases bs with
      | nil => simp at h1
      | cons b bs => exact ⟨b, bs, rfl⟩
    obtain ⟨d, ds, rfl⟩ : ∃ b bs', ds = b :: bs' := by
      cases ds with
      | nil => simp at h2
      | cons b bs => exact ⟨b, bs, rfl⟩
    obtain ⟨e, es, rfl⟩ : ∃ b bs', es = b :: bs' := by
      cases es with
      | nil => simp at h3
      | cons b bs => exact ⟨b, bs, rfl⟩
    obtain ⟨hb, hbs⟩ := canonical_cons.mp hbs
    obtain ⟨hp, hps⟩ := canonical_cons.mp hps
    obtain ⟨hd, hds⟩ := canonical_cons.mp hds
    obtain ⟨he, hes⟩ := canonical_cons.mp hes
    obtain ⟨l1, l2⟩ := lane_mulAdd hx hb hc hd
    obtain ⟨m1, m2⟩ := lane_mulAdd hq hp hc' he
    have := ih (mulAdd32_carry_lt hd hx hb hc) (mulAdd32_carry_lt he hq hp hc') hds hes hbs hps
      (by simpa using h1) (by simpa using h2) (by simpa using h3)
    simp only [bmvPack, vMake, mulAdd32] at this
    simp only [bmvPack, List.zipWith_cons_cons, bmvRow, mulAddRow, vAdd, vMul, vMake, vShr, vAnd, bmMask,
      vSplat, l1, m1, lane_shr l2, lane_shr m2, mulAdd32, this]
    rw [lane_and l2, lane_and m2]

/-- One outer iteration of MUL.BM17V does in its lanes what one of MUL.BM17S does (R151). -/
theorem bmvStep_eq {b p : List Nat} {mu aj : Nat} {acc : BmAcc} (hb : b.length = 8)
    (hp : p.length = 8) (cb : Canonical 32 b) (cp : Canonical 32 p) (haj : aj < 2 ^ 32)
    (hd : acc.d.length = 8) (he : acc.e.length = 8) (cd : Canonical 32 acc.d)
    (ce : Canonical 32 acc.e) :
    bmvStep (bmvPack b p) (b.headD 0) mu (bmvPack acc.d acc.e) aj
      = bmvPack (bmStep b p mu acc aj).d (bmStep b p mu acc aj).e := by
  obtain ⟨ds, es⟩ := acc
  simp only at hd he cd ce
  obtain ⟨b0, bs, rfl⟩ : ∃ b0 bs, b = b0 :: bs := by
    cases b with
    | nil => simp at hb
    | cons b bs => exact ⟨b, bs, rfl⟩
  obtain ⟨p0, ps, rfl⟩ : ∃ b0 bs, p = b0 :: bs := by
    cases p with
    | nil => simp at hp
    | cons b bs => exact ⟨b, bs, rfl⟩
  obtain ⟨d0, ds, rfl⟩ : ∃ b0 bs, ds = b0 :: bs := by
    cases ds with
    | nil => simp at hd
    | cons b bs => exact ⟨b, bs, rfl⟩
  obtain ⟨e0, es, rfl⟩ : ∃ b0 bs, es = b0 :: bs := by
    cases es with
    | nil => simp at he
    | cons b bs => exact ⟨b, bs, rfl⟩
  obtain ⟨hb0, cb⟩ := canonical_cons.mp cb
  obtain ⟨hp0, cp⟩ := canonical_cons.mp cp
  obtain ⟨hd0, cd⟩ := canonical_cons.mp cd
  obtain ⟨he0, ce⟩ := canonical_cons.mp ce
  have hdt : (BitVec.ofNat 64 d0).toNat = d0 := by
    rw [BitVec.toNat_ofNat, Nat.mod_eq_of_lt (by omega)]
  have het : (BitVec.ofNat 64 e0).toNat = e0 := by
    rw [BitVec.toNat_ofNat, Nat.mod_eq_of_lt (by omega)]
  have hq := qDigitBM_lt mu b0 aj d0 e0
  obtain ⟨l1, l2⟩ := lane_mulAdd haj hb0 (by decide : 0 < 2 ^ 32) hd0
  obtain ⟨m1, m2⟩ := lane_mulAdd hq hp0 (by decide : 0 < 2 ^ 32) he0
  have hrow := bmvRow_eq haj hq (mulAdd32_carry_lt hd0 haj hb0 (by decide : 0 < 2 ^ 32))
    (mulAdd32_carry_lt he0 hq hp0 (by decide : 0 < 2 ^ 32)) cd ce cb cp
    (by simp at hb hp; omega) (by simp at hd hp; omega) (by simp at he hp; omega)
  simp only [BitVec.add_zero, Nat.add_zero] at l1 m1 l2 m2
  simp only [bmvPack, vMake, mulAdd32, Nat.add_zero] at hrow
  simp only [bmvPack, List.zipWith_cons_cons, bmvStep, vLo, vHi, vMake, hdt, het, List.headD_cons,
    vMul, vAdd, vShr, l1, m1, lane_shr l2, lane_shr m2, hrow, bmStep, bmRow, bmDigit, mulAddRow,
    mulAdd32, Nat.add_zero, List.tail_cons]
  rw [List.zipWith_append (by simp only [length_mulAddRow]; simp at hb hd he hp; omega)]
  rfl

/-! ### MUL.DC30 and MUL.DC29 (45_delayed_carry.md R190) -/

theorem length_dcSums (ai q : Nat) {S b p : List Nat} (hb : b.length = S.length)
    (hp : p.length = S.length) : (dcSums ai q S b p).length = S.length := by
  induction S generalizing b p with
  | nil => simp [dcSums]
  | cons t S ih =>
    cases b with
    | nil => simp at hb
    | cons y b => cases p with
      | nil => simp at hp
      | cons m p => simp [dcSums, ih (by simpa using hb) (by simpa using hp)]

/-- The slot sums add a[i]·B and q·P to the value. -/
theorem val_dcSums (W ai q : Nat) {S b p : List Nat} (hb : b.length = S.length)
    (hp : p.length = S.length) :
    val W (dcSums ai q S b p) = val W S + ai * val W b + q * val W p := by
  induction S generalizing b p with
  | nil =>
    obtain rfl : b = [] := by simpa using hb
    obtain rfl : p = [] := by simpa using hp
    simp [dcSums]
  | cons t S ih =>
    cases b with
    | nil => simp at hb
    | cons y b => cases p with
      | nil => simp at hp
      | cons m p =>
        simp only [dcSums, val_cons, ih (by simpa using hb) (by simpa using hp)]
        ring

theorem length_dcShift (W : Nat) {S : List Nat} (h : S.length = 9) : (dcShift W S).length = 9 := by
  match S, h with
  | [a, b, c, d, e, f, g, i, j], _ => rfl

/-- The window shift divides the value by 2^W when the low slot is a multiple of it. -/
theorem val_dcShift {W : Nat} {S : List Nat} (h : S.length = 9) (h0 : S.headD 0 % 2 ^ W = 0) :
    val W (dcShift W S) * 2 ^ W = val W S := by
  match S, h with
  | [a, b, c, d, e, f, g, i, j], _ =>
    have ha : 2 ^ W * (a / 2 ^ W) = a := Nat.mul_div_cancel' (Nat.dvd_of_mod_eq_zero h0)
    have hj := Nat.mod_add_div j (2 ^ W)
    simp only [dcShift, List.dropLast_cons_cons, List.dropLast_singleton, List.getLastD_cons,
      List.getLastD_nil, List.cons_append, List.nil_append, val_cons, val_nil]
    generalize 2 ^ W = R at *
    generalize a / R = u at *
    generalize j % R = x at *
    generalize j / R = y at *
    subst hj
    rw [← ha]
    ring

theorem length_dcStep (W : Nat) {b p : List Nat} (n0 : Nat) {S : List Nat} (ai : Nat)
    (hS : S.length = 9) (hb : b.length = 9) (hp : p.length = 9) :
    (dcStep W b p n0 S ai).length = 9 :=
  length_dcShift W (by rw [length_dcSums _ _ (by omega) (by omega), hS])

/-- One outer iteration adds a[i]·B and q·P to the accumulator's value and divides it by 2^W. -/
theorem dcStep_spec {W : Nat} {b p : List Nat} {n0 : Nat} {S : List Nat} {ai : Nat}
    (hS : S.length = 9) (hb : b.length = 9) (hp : p.length = 9) (hn : IsNegInverse n0 (val W p) W) :
    ∃ q, q < 2 ^ W ∧ val W (dcStep W b p n0 S ai) * 2 ^ W = val W S + ai * val W b + q * val W p := by
  refine ⟨dcDigit W b n0 S ai, qDigit_lt _ _ _, ?_⟩
  rw [← val_dcSums W ai _ (by omega : b.length = S.length) (by omega : p.length = S.length)]
  refine val_dcShift (by rw [length_dcSums _ _ (by omega) (by omega), hS]) ?_
  obtain ⟨t, S, rfl⟩ : ∃ t S', S = t :: S' := by
    cases S with
    | nil => simp at hS
    | cons t S => exact ⟨t, S, rfl⟩
  obtain ⟨y, b, rfl⟩ : ∃ t S', b = t :: S' := by
    cases b with
    | nil => simp at hb
    | cons t S => exact ⟨t, S, rfl⟩
  obtain ⟨m, p, rfl⟩ : ∃ t S', p = t :: S' := by
    cases p with
    | nil => simp at hp
    | cons t S => exact ⟨t, S, rfl⟩
  have h1 : (n0 * m + 1) % 2 ^ W = 0 := by
    have h2 := hn.2
    rw [val_cons] at h2
    have e : n0 * (m + 2 ^ W * val W p) + 1 = n0 * m + 1 + 2 ^ W * (n0 * val W p) := by ring
    rwa [e, Nat.add_mul_mod_self_left] at h2
  exact qDigit_spec (t0 := t + ai * y) h1

/-! ### How many limbs each command writes (10_state.md R44) -/

theorem length_ciosMul (a b pw : List Nat) (n0 : Nat) : (ciosMul a b pw n0).length ≤ 8 := by
  simp [ciosMul]

theorem length_bmAccumulate {b p : List Nat} (a : List Nat) (mu : Nat) (hb : b.length = 8)
    (hp : p.length = 8) :
    (bmAccumulate a b p mu).d.length = 8 ∧ (bmAccumulate a b p mu).e.length = 8 := by
  have key : ∀ acc : BmAcc, acc.d.length = 8 → acc.e.length = 8 →
      (a.foldl (bmStep b p mu) acc).d.length = 8 ∧ (a.foldl (bmStep b p mu) acc).e.length = 8 := by
    induction a with
    | nil => exact fun _ h1 h2 => ⟨h1, h2⟩
    | cons x a ih => exact fun acc h1 h2 => ih _ (length_bmRow h1 hb) (length_bmRow h2 hp)
  exact key bmInit rfl rfl

theorem length_bmMul {b p : List Nat} (a : List Nat) (mu : Nat) (hb : b.length = 8)
    (hp : p.length = 8) : (bmMul a b p mu).length = 8 := by
  obtain ⟨h1, h2⟩ := length_bmAccumulate a mu hb hp
  exact (length_combine 32 (by omega) (by omega)).trans hp

theorem length_bmvRow (AQ T : Vec2) (B D : List Vec2) :
    (bmvRow AQ T B D).1.length = min B.length D.length := by
  induction B generalizing T D with
  | nil => simp [bmvRow]
  | cons b B ih => cases D with
    | nil => simp [bmvRow]
    | cons d D => simp [bmvRow, ih]

theorem length_bmvStep {BP DE : List Vec2} (b0 mu aj : Nat) (h : BP.length = 8) (h' : DE.length = 8) :
    (bmvStep BP b0 mu DE aj).length = 8 := by
  match BP, DE, h, h' with
  | _ :: BPs, _ :: DEs, h, h' =>
    simp at h h'
    simp [bmvStep, length_bmvRow, h, h']

theorem length_bmvMul {b p : List Nat} (a : List Nat) (mu : Nat) (hb : b.length = 8)
    (hp : p.length = 8) : (bmvMul a b p mu).length = 8 := by
  have hBP : (bmvPack b p).length = 8 := by simp [bmvPack, hb, hp]
  have key : ∀ DE : List Vec2, DE.length = 8 →
      (a.foldl (bmvStep (bmvPack b p) (b.headD 0) mu) DE).length = 8 := by
    induction a with
    | nil => exact fun _ h => h
    | cons x a ih => exact fun DE h => ih _ (length_bmvStep _ _ _ hBP h)
  have hl : (bmvAccumulate a b p mu).length = p.length :=
    (key (List.replicate 8 (vSplat 0)) rfl).trans hp.symm
  exact (length_combine 32 (by rw [List.length_map, hl]) (by rw [List.length_map, hl])).trans hp

theorem length_f51Mul (a b p : List Word) (n0 : Nat) : (f51Mul a b p n0).length ≤ 5 := by
  simp [f51Mul]

theorem length_dcMul (W : Nat) {b p : List Nat} (a : List Nat) (n0 : Nat) (hb : b.length = 9)
    (hp : p.length = 9) : (delayedCarryMul W a b p n0).length = 9 := by
  have key : ∀ S : List Nat, S.length = 9 → (a.foldl (dcStep W b p n0) S).length = 9 := by
    induction a with
    | nil => exact fun _ h => h
    | cons x a ih => exact fun S h => ih _ (length_dcStep W n0 x h hb hp)
  have := key [0, 0, 0, 0, 0, 0, 0, 0, 0] rfl
  exact (length_condSub W (by rw [carryPass, length_carryPassFrom, dcAccumulate, this, hp])).trans hp

theorem length_resolve (u : List Nat) (h : u.length = 5) :
    (f51WordsOf (resolveLimbs u)).length = 5 := by
  simp [f51WordsOf, resolveLimbs, carryPass, length_carryPassFrom, h]

theorem length_reduce (v m : List Word) (h : v.length = 5) (h' : m.length = 5) :
    (reduceWords v m).length = 5 := by
  unfold reduceWords
  split
  · rw [f51WordsOf, List.length_map, subLimbs, length_subLimbsFrom _ _ (by simp [h, h']),
      List.length_map, h]
  · simpa using h

end Sys2Proof.Machine
end

