-- ==== Sys2Proof/Laws/Ops.lean ====
section
/-! SUPPORT. One lemma for each shared operation that says what it can do: writing a result, comparing,
subtracting, the port map, the bus bytes, one step. -/

namespace Sys2Proof.Machine

/-! ### Writing a result (10_state.md R43, R44; 00_scope.md R15) -/

theorem RestKept.refl (s : State) : RestKept s s := ⟨rfl, rfl, rfl, rfl⟩

theorem setReg_otherRegsKept (rd : Reg) (v : BigReg) (s : State) :
    OtherRegsKept rd s (s.setReg rd v) := fun _ h => reg_setReg_of_ne s rd _ v h

theorem freeResult_onlyReg (op : BitVec 8) (inputs : List Word) (len : Nat) (rd : Reg) (s : State) :
    OnlyRegChanged rd s (freeResult op inputs len rd s) :=
  ⟨setReg_otherRegsKept rd _ s, rfl, ⟨rfl, rfl, rfl, rfl⟩⟩

theorem freeResult_zeroFilled (op : BitVec 8) (inputs : List Word) (len : Nat) (rd : Reg)
    (s : State) : ZeroFilled len rd (freeResult op inputs len rd s) := by
  intro k hk
  have : (freeResult op inputs len rd s).reg rd
      = BigReg.ofWords ((List.range len).map (Config.freeWord s.draws op inputs)) :=
    reg_setReg_same s rd _
  rw [this]
  exact word_ofWords_of_le (by simpa using hk)

/-- Where a command's rule gives its result, that result is written and nothing else changes. -/
theorem commitLimbs_defined {d : Bool} (h : d = true) (op : BitVec 8) (inputs : List Word) (len : Nat)
    (result : List Nat) (rd : Reg) (s : State) :
    commitLimbs op inputs len d result rd s
      = s.setReg rd (BigReg.ofWords (wordsOfLimbs result)) := by simp [commitLimbs, h]

/-- Whatever the preconditions, writing a result changes RD and nothing else of the block. -/
theorem commitLimbs_onlyReg (op : BitVec 8) (inputs : List Word) (len : Nat) (d : Bool)
    (result : List Nat) (rd : Reg) (s : State) :
    OnlyRegChanged rd s (commitLimbs op inputs len d result rd s) := by
  cases d
  · exact freeResult_onlyReg op inputs len rd s
  · exact ⟨setReg_otherRegsKept rd _ s, rfl, ⟨rfl, rfl, rfl, rfl⟩⟩

/-- Whatever the preconditions, the words of RD past the format are 0. -/
theorem commitLimbs_zeroFilled (op : BitVec 8) (inputs : List Word) {len : Nat} (d : Bool)
    {result : List Nat} (h : result.length ≤ len) (rd : Reg) (s : State) :
    ZeroFilled len rd (commitLimbs op inputs len d result rd s) := by
  cases d
  · exact freeResult_zeroFilled op inputs len rd s
  · intro k hk
    rw [commitLimbs_defined rfl, reg_setReg_same]
    exact word_ofWords_of_le (by simpa using h.trans hk)

/-- What is read back of a written result. -/
theorem limbs_commitLimbs {d : Bool} (h : d = true) (op : BitVec 8) (inputs : List Word)
    {len : Nat} (hlen : len ≤ 9) {result : List Nat} (hr : result.length = len)
    (hc : Canonical 64 result) (rd : Reg) (s : State) :
    BigReg.limbs ((commitLimbs op inputs len d result rd s).reg rd) len = result := by
  rw [commitLimbs_defined h, reg_setReg_same, ← hr]
  exact limbs_ofWords (hr ▸ hlen) hc

/-- Result limbs of zero make a register of nine zero words. -/
theorem ofWords_wordsOfLimbs_zeros (n : Nat) :
    BigReg.ofWords (wordsOfLimbs (List.replicate n 0)) = BigReg.zero := by
  apply BigReg.ext_word
  intro k
  rw [word_ofWords, word_zero]
  simp [wordsOfLimbs, List.getD]

/-! ### Compare and subtract (41_fwi_primitives.md) -/

theorem compareEq_defined {W L : Nat} {ra rb : Reg} {s : State} (h : PairDefined W L ra rb s)
    (op : BitVec 8) : compareEq op W L ra rb s
      = s.setEq (eqLimbs ((s.reg ra).limbs L) ((s.reg rb).limbs L)) := by simp only [compareEq, if_pos h]

theorem compareGt_defined {W L : Nat} {ra rb : Reg} {s : State} (h : PairDefined W L ra rb s)
    (op : BitVec 8) : compareGt op W L ra rb s
      = s.setGt (gtLimbs ((s.reg ra).limbs L) ((s.reg rb).limbs L)) := by simp only [compareGt, if_pos h]

/-- CMPEQ.w writes EQ and nothing else of the block, defined or not. -/
theorem compareEq_only (op : BitVec 8) (W L : Nat) (ra rb : Reg) (s : State) :
    AllRegsKept s (compareEq op W L ra rb s) ∧ RestKept s (compareEq op W L ra rb s) ∧
      ∃ b, (compareEq op W L ra rb s).status = { s.status with eq := b } := by
  unfold compareEq
  split
  · exact ⟨fun _ => rfl, ⟨rfl, rfl, rfl, rfl⟩, _, rfl⟩
  · exact ⟨fun _ => rfl, ⟨rfl, rfl, rfl, rfl⟩, _, rfl⟩

/-- CMPGT.w writes GT and nothing else of the block, defined or not. -/
theorem compareGt_only (op : BitVec 8) (W L : Nat) (ra rb : Reg) (s : State) :
    AllRegsKept s (compareGt op W L ra rb s) ∧ RestKept s (compareGt op W L ra rb s) ∧
      ∃ b, (compareGt op W L ra rb s).status = { s.status with gt := b } := by
  unfold compareGt
  split
  · exact ⟨fun _ => rfl, ⟨rfl, rfl, rfl, rfl⟩, _, rfl⟩
  · exact ⟨fun _ => rfl, ⟨rfl, rfl, rfl, rfl⟩, _, rfl⟩

theorem subtract_defined {W L : Nat} {ra rb : Reg} {s : State} (h : PairDefined W L ra rb s)
    (op : BitVec 8) (rd : Reg) : subtract op W L rd ra rb s
      = (s.setReg rd (BigReg.ofWords (wordsOfLimbs
          (subLimbs W ((s.reg ra).limbs L) ((s.reg rb).limbs L)).1))).setBorrow
        (subLimbs W ((s.reg ra).limbs L) ((s.reg rb).limbs L)).2 := by
  simp only [subtract, if_pos h]

/-- SUB.w writes RD and BORROW and nothing else of the block, defined or not. -/
theorem subtract_only (op : BitVec 8) (W L : Nat) (rd ra rb : Reg) (s : State) :
    OtherRegsKept rd s (subtract op W L rd ra rb s) ∧ RestKept s (subtract op W L rd ra rb s) ∧
      ∃ b, (subtract op W L rd ra rb s).status = { s.status with borrow := b } := by
  unfold subtract
  split
  · exact ⟨setReg_otherRegsKept rd _ s, ⟨rfl, rfl, rfl, rfl⟩, _, rfl⟩
  · exact ⟨(freeResult_onlyReg _ _ L rd s).1, ⟨rfl, rfl, rfl, rfl⟩, _, rfl⟩

/-! ### The port map (20_memory.md R51) -/

@[simp] theorem portLoc_xAddr (r : Reg) (k : Fin Config.nWord) : portLoc (xAddr r k) = .x r k := by
  revert r k; decide

@[simp] theorem portLoc_modAddr (k : Fin Config.nWord) : portLoc (modAddr k) = .modulus k := by
  revert k; decide

@[simp] theorem portLoc_n0Addr : portLoc n0Addr = .n0 := by decide

@[simp] theorem portLoc_cmdAddr : portLoc cmdAddr = .cmd := by decide

@[simp] theorem portLoc_statusAddr : portLoc statusAddr = .status := by decide

/-- An address that is not reserved is the address of what it names: no two addresses name one word of
state. -/
theorem addr_portLoc (a : Addr) (h : portLoc a ≠ .reserved) : (portLoc a).addr? = some a := by
  have key : ∀ n : Fin 128, portLoc (BitVec.ofFin n) ≠ .reserved →
      (portLoc (BitVec.ofFin n)).addr? = some (BitVec.ofFin n) := by decide
  exact key a.toFin h

/-- What a port read gives after a register was written through the port (20_memory.md R52). -/
theorem portRead_congr {s t : State} (hx : ∀ r, t.reg r = s.reg r) (hm : t.modulus = s.modulus)
    (hn : t.n0 = s.n0) (hs : t.status = s.status) (a : Addr) : portRead t a = portRead s a := by
  unfold portRead
  split <;> simp only [hx, hm, hn, hs]

/-! ### Running a command and stepping -/

theorem runCommand_legal {c : Word} {i : Instr} (h : decode c = .ok i) (s : State) :
    runCommand c s = exec i s := by simp [runCommand, h]

theorem runCommand_illegal {c : Word} {e : Illegal} (h : decode c = .error e) (s : State) :
    runCommand c s = .next (raiseIllegal s) := by simp [runCommand, h]

theorem step_idle {s : State} (h : s.pending = []) : step s = .next s := by
  simp [step, stepPort, h]

theorem step_op {s : State} {op : HostOp} {rest : List HostOp} (h : s.pending = op :: rest) :
    step s = runHostOp op { s with pending := rest } := by simp [step, stepPort, h]

/-- Everything a step can do: nothing, or the first pending host operation. -/
theorem step_cases {s t : State} (h : step s = .next t) :
    (s.pending = [] ∧ t = s) ∨
      ∃ op rest, s.pending = op :: rest ∧ runHostOp op { s with pending := rest } = .next t := by
  match hp : s.pending with
  | [] =>
    rw [step_idle hp] at h
    exact .inl ⟨rfl, (Host.Outcome.next.inj h).symm⟩
  | op :: rest =>
    rw [step_op hp] at h
    exact .inr ⟨op, rest, rfl, h⟩

end Sys2Proof.Machine
end

