-- ==== Sys2Proof/Laws/PerInstr.lean ====
section
/-! SUPPORT. Facts about every command as syntax, one lemma per constructor. -/

namespace Sys2Proof.Laws.TableRow

/-- The word of a command is selected by exactly one row of the opcode table, the row of its own
opcode, and its fields are legal (30_encoding.md R72, R73, R74). -/
def Statement (i : Instr) : Prop :=
  (opcodeTable.filter fun row => rowSelects row (encode i)).map (fun row => row.1)
      = [i.opcode.setWidth 64] ∧
    (Fields.ofWord (encode i)).wellFormed = true ∧ i.wellFormed = true

/-- A row of the table selects the word of a command exactly when its match value is the command's
opcode. -/
theorem rowSelects_encode (i : Instr) {row : Word × Format} (h : row ∈ opcodeTable) :
    rowSelects row (encode i) = (row.1 == i.opcode.setWidth 64) := by
  obtain ⟨o, h1, h2⟩ := mem_opcodeTable.mp h
  obtain ⟨hz, fmt, hf, hu⟩ := wellFormed_iff.mp (wellFormed_fields i)
  rw [opcode_fields] at hf
  rw [Bool.eq_iff_iff, rowSelects, beq_iff_eq, beq_iff_eq, h1, encode, and_mask_eq_iff,
    opcode_fields]
  constructor
  · rintro ⟨rfl, -⟩
    rfl
  · intro he
    obtain rfl : o = i.opcode := by simpa using congrArg (BitVec.setWidth 8) he
    obtain rfl : fmt = row.2 := Option.some.inj (hf.symm.trans h2)
    exact ⟨rfl, hz, hu⟩

/-- The statement, for every command. -/
theorem statement (i : Instr) : Statement i := by
  refine ⟨?_, by rw [encode, ofWord_toWord]; exact wellFormed_fields i,
    List.all_eq_true.mpr fun r _ => decide_eq_true r.isLt⟩
  rw [List.filter_congr fun row h => rowSelects_encode i h]
  cases i <;> rfl

theorem zero (rd : Reg) : Statement (.zero rd) := statement _

theorem cmpEq32 (ra rb : Reg) : Statement (.cmpEq32 ra rb) := statement _

theorem cmpEq30 (ra rb : Reg) : Statement (.cmpEq30 ra rb) := statement _

theorem cmpEq29 (ra rb : Reg) : Statement (.cmpEq29 ra rb) := statement _

theorem cmpGt32 (ra rb : Reg) : Statement (.cmpGt32 ra rb) := statement _

theorem cmpGt30 (ra rb : Reg) : Statement (.cmpGt30 ra rb) := statement _

theorem cmpGt29 (ra rb : Reg) : Statement (.cmpGt29 ra rb) := statement _

theorem sub32 (rd ra rb : Reg) : Statement (.sub32 rd ra rb) := statement _

theorem sub30 (rd ra rb : Reg) : Statement (.sub30 rd ra rb) := statement _

theorem sub29 (rd ra rb : Reg) : Statement (.sub29 rd ra rb) := statement _

theorem mulCios32 (rd ra rb : Reg) : Statement (.mulCios32 rd ra rb) := statement _

theorem mulBm17s (rd ra rb : Reg) : Statement (.mulBm17s rd ra rb) := statement _

theorem mulBm17v (rd ra rb : Reg) : Statement (.mulBm17v rd ra rb) := statement _

theorem mulF51 (rd ra rb : Reg) : Statement (.mulF51 rd ra rb) := statement _

theorem mulDc30 (rd ra rb : Reg) : Statement (.mulDc30 rd ra rb) := statement _

theorem mulDc29 (rd ra rb : Reg) : Statement (.mulDc29 rd ra rb) := statement _

theorem resolveF51 (rd ra : Reg) : Statement (.resolveF51 rd ra) := statement _

theorem reduceF51 (rd ra : Reg) : Statement (.reduceF51 rd ra) := statement _

end Sys2Proof.Laws.TableRow
end

