-- ==== Sys2Proof/Laws/Port.lean ====
section
/-! SUPPORT. Laws of the register port and of the bus bytes (Machine/Operands.lean, Machine/Port.lean):
a read after a write, and the value of eight bytes. -/

namespace Sys2Proof.Machine

/-- No two addresses name one word of a big register. -/
theorem xAddr_inj {r r' : Reg} {k k' : Fin 9} (h : xAddr r k = xAddr r' k') : r = r' ∧ k = k' := by
  have := congrArg portLoc h
  simpa using this

/-- Two addresses that name one word of state are one address. -/
theorem addr_eq_of_portLoc_eq {a b : Addr} (ha : portLoc a ≠ .reserved)
    (h : portLoc b = portLoc a) : b = a := by
  have hb := addr_portLoc b (h ▸ ha)
  rw [h, addr_portLoc a ha] at hb
  exact (Option.some.inj hb).symm

/-- A port read after a port store of a read/write location: the word stored, or what was there before
(20_memory.md R52). -/
theorem portRead_portStore (s : State) (a a' : Addr) (v : Word) (ha : portLoc a ≠ .cmd)
    (hb : portLoc a ≠ .status) (hc : portLoc a ≠ .reserved) :
    portRead (portStore a v s) a' = if a' = a then v else portRead s a' := by
  have same : portLoc a' = portLoc a → a' = a := addr_eq_of_portLoc_eq hc
  have other : portLoc a' ≠ portLoc a → a' ≠ a := fun h e => h (congrArg portLoc e)
  unfold portStore portRead
  cases h : portLoc a with
  | x r k =>
    cases h' : portLoc a' with
    | x r' k' =>
      by_cases hr : r' = r
      · subst hr
        by_cases hk : k' = k
        · subst hk
          rw [if_pos (same (h'.trans h.symm))]
          simp [word_setWord_same]
        · rw [if_neg (other (by rw [h, h']; simp [hk]))]
          simp [word_setWord_of_ne _ _ hk]
      · rw [if_neg (other (by rw [h, h']; simp [hr]))]
        simp [reg_setReg_of_ne _ _ _ _ hr]
    | _ => exact (if_neg (other (by rw [h, h']; simp))).symm
  | modulus k =>
    cases h' : portLoc a' with
    | modulus k' =>
      by_cases hk : k' = k
      · subst hk
        rw [if_pos (same (h'.trans h.symm))]
        exact word_setWord_same _ _ _
      · rw [if_neg (other (by rw [h, h']; simp [hk]))]
        exact word_setWord_of_ne _ _ hk
    | _ => exact (if_neg (other (by rw [h, h']; simp))).symm
  | n0 =>
    cases h' : portLoc a' with
    | n0 => rw [if_pos (same (h'.trans h.symm))]
    | _ => exact (if_neg (other (by rw [h, h']; simp))).symm
  | cmd => exact absurd h ha
  | status => exact absurd h hb
  | reserved => exact absurd h hc

/-! ### Bus bytes (20_memory.md R58) -/

/-- One more byte below a word whose bytes above it leave room for it. -/
theorem toNat_or_shiftLeft_8 (b : Byte) {w : Word} (h : w.toNat * 2 ^ 8 < 2 ^ 64) :
    (b.setWidth 64 ||| w <<< 8).toNat = b.toNat + 2 ^ 8 * w.toNat := by
  have hb : b.toNat < 2 ^ 64 := Nat.lt_trans b.isLt (by decide)
  rw [BitVec.toNat_or, BitVec.toNat_setWidth, BitVec.toNat_shiftLeft, Nat.shiftLeft_eq,
    Nat.mod_eq_of_lt h, Nat.mod_eq_of_lt hb, Nat.mul_comm, Nat.or_comm,
    ← Nat.two_pow_add_eq_or_of_lt b.isLt, Nat.add_comm]

/-- At most eight bytes make the word of their value, the byte of the lowest address lowest. -/
theorem wordOfBytes_toNat {l : List Byte} (h : l.length ≤ 8) :
    (wordOfBytes l).toNat = val 8 (l.map BitVec.toNat) := by
  suffices key : (wordOfBytes l).toNat = val 8 (l.map BitVec.toNat) ∧
      (wordOfBytes l).toNat < 2 ^ (8 * l.length) from key.1
  induction l with
  | nil => simp [wordOfBytes]
  | cons b bs ih =>
    obtain ⟨h1, h2⟩ := ih (by simp at h; omega)
    have hbs : 2 ^ (8 * bs.length) ≤ 2 ^ 56 :=
      Nat.pow_le_pow_right (by decide) (by simp at h; omega)
    have h3 := toNat_or_shiftLeft_8 b (w := wordOfBytes bs) (by omega)
    simp only [List.map_cons, val_cons, ← h1, wordOfBytes]
    refine ⟨h3, ?_⟩
    rw [h3, List.length_cons, Nat.mul_succ, Nat.pow_add]
    have := b.isLt
    omega

/-- A word's eight bytes have its value. -/
theorem val_bytesOfWord (w : Word) : val 8 ((bytesOfWord w).map BitVec.toNat) = w.toNat := by
  have h := w.isLt
  simp [bytesOfWord, List.range, List.range.loop, BitVec.extractLsb'_toNat, Nat.shiftRight_eq_div_pow]
  omega

end Sys2Proof.Machine
end

