-- ==== Sys2Proof/Tests/Slice0.lean ====
section
/-! SUPPORT. Tests of the model against the spec's vectors (95_test_vectors.md), the refusals of
ill-formed command words, and a witness of the hypotheses of every statement that has some. -/

namespace Sys2Proof.Tests

open Sys2Proof Sys2Proof.Machine

/-! ### Helpers -/

/-- A nine-word register with these words, 0 past the end. -/
def regOf (l : List Nat) : BigReg := BigReg.ofWords (wordsOfLimbs l)

/-- The register that `LD.F51` makes of these limbs. -/
def f51Of (l : List Nat) : BigReg := regOf (l.map fun n => (f64OfNat n).toNat)

/-- The reset state with X0, X1, MOD and N0 loaded. -/
def loaded (x0 x1 m : BigReg) (n0 : Nat) : State :=
  { State.reset with x := #v[x0, x1, BigReg.zero, BigReg.zero], modulus := m, n0 := BitVec.ofNat 64 n0 }

/-- The reset state with X0 and X1 loaded. -/
def pair (x0 x1 : List Nat) : State := loaded (regOf x0) (regOf x1) BigReg.zero 0

/-- A loaded state with these host operations pending. -/
def host (ops : List HostOp) : State := { pair [5] [6] with pending := ops }

/-- The words of a register after a command. -/
def wordsAfter (i : Instr) (s : State) (r : Reg) : List Nat :=
  match exec i s with
  | .next t => (t.reg r).toList.map BitVec.toNat
  | _ => []

/-- The STATUS word after a command. -/
def statusAfter (i : Instr) (s : State) : Nat :=
  match exec i s with
  | .next t => t.status.word.toNat
  | _ => 16

/-- The source's modulus and operands. -/
structure SourceValues where
  p : Nat
  a0 : Nat
  b0 : Nat
  a1 : Nat
  b1 : Nat

/-- The integers of the source's values (95_test_vectors.md section 0). -/
def source : SourceValues where
  p := 0x12ab655e9a2ca55660b44d1e5c37b00159aa76fed00000010a11800000000001
  a0 := 0x05552c9522974fd00772ef23d45519d4d3a486218b3a0d238a25560beda10ce9
  b0 := 0x094c0e4dc5769c3bcc4c984fa08b0ceaf437545d83d259471a983cf05e97f19b
  a1 := 0x0c0048f9de61fa9334139e21184664eb16a77e902d9d06924a1b6b05f6d08675
  b1 := 0x0dfbb9d62fd1a0c9168072b6fe615e7626f0e5ae29e92ca41254de782f4bf8ce

/-- A state with the operands a, b and the modulus p as L limbs of W bits. -/
def limbState (L W a b p n0 : Nat) : State :=
  loaded (regOf (limbsOf L W a)) (regOf (limbsOf L W b)) (regOf (limbsOf L W p)) n0

/-- A state with the operands a, b and the modulus p in format F51. -/
def floatState (a b p n0 : Nat) : State :=
  loaded (f51Of (limbsOf 5 51 a)) (f51Of (limbsOf 5 51 b)) (f51Of (limbsOf 5 51 p)) n0

/-! ### Ill-formed command words: each check of WellFormed refuses (30_encoding.md R74, R75) -/

theorem test_illformed_upper_bits :
    (Fields.ofWord 0x4220).upperZero = false ∧ (Fields.ofWord 0x4220).wellFormed = false ∧
      (Fields.ofWord 0x8000000000001220).wellFormed = false ∧
      decode 0x0000000100000001 = .error .upperBits := by decide

theorem test_illformed_opcode :
    (Fields.ofWord 0x13).opcodeAssigned = false ∧ (Fields.ofWord 0).wellFormed = false ∧
      (Fields.ofWord 0x26).wellFormed = false ∧ decode 0xFF = .error (.opcode 0xFF) := by decide

theorem test_illformed_unused_ra :
    (Fields.ofWord 0x401).unusedZero = false ∧ decode 0x401 = .error .unusedField := by decide

theorem test_illformed_unused_rd :
    (Fields.ofWord 0x110).unusedZero = false ∧ decode 0x110 = .error .unusedField := by decide

theorem test_illformed_unused_rb :
    (Fields.ofWord 0x1A30).unusedZero = false ∧ decode 0x1A30 = .error .unusedField := by decide

/-! ### Decoding: words of 95_test_vectors.md section 8, and fields laid out as in R70 -/

theorem test_decode_primitives :
    decode 0x0301 = .ok (.zero 3) ∧ decode 0x3810 = .ok (.cmpEq32 2 3) ∧
      decode 0x1011 = .ok (.cmpEq30 0 1) ∧ decode 0x1412 = .ok (.cmpEq29 1 1) ∧
      decode 0x0414 = .ok (.cmpGt32 1 0) ∧ decode 0x0C15 = .ok (.cmpGt30 3 0) ∧
      decode 0x3016 = .ok (.cmpGt29 0 3) ∧ decode 0x1218 = .ok (.sub32 2 0 1) ∧
      decode 0x2F19 = .ok (.sub30 3 3 2) ∧ decode 0x241A = .ok (.sub29 0 1 2) := by decide

theorem test_decode_multipliers :
    decode 0x1220 = .ok (.mulCios32 2 0 1) ∧ decode 0x0520 = .ok (.mulCios32 1 1 0) ∧
      decode 0x1321 = .ok (.mulBm17s 3 0 1) ∧ decode 0x1322 = .ok (.mulBm17v 3 0 1) ∧
      decode 0x1223 = .ok (.mulF51 2 0 1) ∧ decode 0x0024 = .ok (.mulDc30 0 0 0) ∧
      decode 0x1B25 = .ok (.mulDc29 3 2 1) ∧ decode 0x0A30 = .ok (.resolveF51 2 2) ∧
      decode 0x0B30 = .ok (.resolveF51 3 2) ∧ decode 0x0331 = .ok (.reduceF51 3 0) := by decide

theorem test_decode_field_places :
    decode (0#50 ++ 0#2 ++ 0#2 ++ 2#2 ++ 0x01#8) = .ok (.zero 2) ∧
      decode (0#50 ++ 1#2 ++ 3#2 ++ 0#2 ++ 0x16#8) = .ok (.cmpGt29 3 1) ∧
      decode (0#50 ++ 1#2 ++ 2#2 ++ 3#2 ++ 0x1A#8) = .ok (.sub29 3 2 1) ∧
      decode (0#50 ++ 2#2 ++ 1#2 ++ 3#2 ++ 0x20#8) = .ok (.mulCios32 3 1 2) ∧
      decode (0#50 ++ 0#2 ++ 1#2 ++ 3#2 ++ 0x31#8) = .ok (.reduceF51 3 1) := by decide

theorem test_table_words :
    decodeTableWord 64 0x1220 = some (.mulCios32 2 0 1) ∧ decodeTableWord 64 0x4220 = none ∧
      decodeTableWord 16 0x0A31 = some (.reduceF51 2 2) := by decide

theorem test_asm_line : (Instr.mulCios32 2 0 1).asm = "MUL.CIOS32 X2, X0, X1" ∧
    (Instr.resolveF51 3 2).asm = "RESOLVE.F51 X3, X2" := by decide

/-! ### The primitives (vectors V1 to V17, B1, B2) -/

theorem test_zero : wordsAfter (.zero 0) (pair [5, 6] []) 0 = [0, 0, 0, 0, 0, 0, 0, 0, 0] := by decide

theorem test_cmpeq32 : statusAfter (.cmpEq32 0 1) (pair [5] [5, 1]) = 0 ∧
    statusAfter (.cmpEq32 0 1) (pair [5, 0, 0, 0, 0, 0, 0, 0, 1] [5]) = 2 := by decide

theorem test_cmpeq30 : statusAfter (.cmpEq30 0 1) (pair [5, 0, 0, 0, 0, 0, 0, 0, 1] [5]) = 0 := by
  decide

theorem test_cmpeq29 : statusAfter (.cmpEq29 0 0) (pair [2 ^ 29 - 1] []) = 2 := by decide

theorem test_cmpgt32 :
    statusAfter (.cmpGt32 0 1) (pair [0, 0, 0, 0, 0, 0, 0, 1]
      [0xFFFFFFFF, 0xFFFFFFFF, 0xFFFFFFFF, 0xFFFFFFFF, 0xFFFFFFFF, 0xFFFFFFFF, 0xFFFFFFFF]) = 4 := by
  decide

theorem test_cmpgt30 : statusAfter (.cmpGt30 0 1) (pair [7] [9]) = 0 := by decide

theorem test_cmpgt29 : statusAfter (.cmpGt29 0 1) (pair [0, 1] [0x1FFFFFFF]) = 4 := by decide

theorem test_sub32_wraps : wordsAfter (.sub32 2 0 1) (pair [5] [6]) 2
      = [0xFFFFFFFF, 0xFFFFFFFF, 0xFFFFFFFF, 0xFFFFFFFF, 0xFFFFFFFF, 0xFFFFFFFF, 0xFFFFFFFF,
         0xFFFFFFFF, 0] ∧ statusAfter (.sub32 2 0 1) (pair [5] [6]) = 1 := by decide

theorem test_sub32_borrows_between_limbs :
    wordsAfter (.sub32 0 0 1) (pair [5, 1] [6]) 0 = [0xFFFFFFFF, 0, 0, 0, 0, 0, 0, 0, 0] ∧
      statusAfter (.sub32 0 0 1) (pair [5, 1] [6]) = 0 := by decide

theorem test_sub30 : wordsAfter (.sub30 2 0 1) (pair [5] [6]) 2
      = [0x3FFFFFFF, 0x3FFFFFFF, 0x3FFFFFFF, 0x3FFFFFFF, 0x3FFFFFFF, 0x3FFFFFFF, 0x3FFFFFFF,
         0x3FFFFFFF, 0x3FFFFFFF] ∧ statusAfter (.sub30 2 0 1) (pair [5] [6]) = 1 := by decide

theorem test_sub29 : wordsAfter (.sub29 2 0 1) (pair [0, 1] [1]) 2
      = [0x1FFFFFFF, 0, 0, 0, 0, 0, 0, 0, 0] ∧
    statusAfter (.sub29 2 0 1) (pair [0, 1] [1]) = 0 := by decide

/-! ### The multipliers (vectors V20, V22, V30, V31, V40, V50, V51, V54) -/

theorem test_cios32 : wordsAfter (.mulCios32 2 0 1) (limbState 8 32 source.a0 source.b0 source.p 0xFFFFFFFF) 2
    = [0x12DDC8C2, 0x1F611A1E, 0x78F3C322, 0xF962821B, 0xC69775B1, 0xA118393C, 0xD59AB7C3,
       0x11AE6911, 0] := by decide +kernel

theorem test_cios32_ninth_limb : wordsAfter (.mulCios32 0 0 1)
      (limbState 8 32 (2 ^ 256 - 2) (2 ^ 256 - 2) (2 ^ 256 - 1) 1) 0
    = [1, 0, 0, 0, 0, 0, 0, 0, 0] := by decide +kernel

theorem test_bm17s : wordsAfter (.mulBm17s 3 0 1) (limbState 8 32 source.a0 source.b0 source.p 1) 3
    = [0x12DDC8C2, 0x1F611A1E, 0x78F3C322, 0xF962821B, 0xC69775B1, 0xA118393C, 0xD59AB7C3,
       0x11AE6911, 0] := by decide +kernel

theorem test_bm17v : wordsAfter (.mulBm17v 3 0 1) (limbState 8 32 source.a0 source.b0 source.p 1) 3
    = [0x12DDC8C2, 0x1F611A1E, 0x78F3C322, 0xF962821B, 0xC69775B1, 0xA118393C, 0xD59AB7C3,
       0x11AE6911, 0] := by decide +kernel

theorem test_dc30 : wordsAfter (.mulDc30 2 0 1) (limbState 9 30 source.a0 source.b0 source.p 0x3FFFFFFF) 2
    = [0x28784B78, 0x08C521E1, 0x20763CFF, 0x09503C12, 0x1C4B9181, 0x1C9546C6, 0x30FC145D,
       0x29F8491A, 0x0000101D] := by decide +kernel

theorem test_dc30_top_limb : wordsAfter (.mulDc30 0 0 1)
      (limbState 9 30 (2 ^ 270 - 2) (2 ^ 270 - 2) (2 ^ 270 - 1) 1) 0
    = [1, 0, 0, 0, 0, 0, 0, 0, 0] := by decide +kernel

theorem test_dc29 : wordsAfter (.mulDc29 2 0 1) (limbState 9 29 source.a0 source.b0 source.p 0x1FFFFFFF) 2
    = [0x1096EE47, 0x135B8687, 0x11E78682, 0x15C73F7D, 0x0F0AED3D, 0x050B2E54, 0x02FC5EC7,
       0x0A27E6D6, 0x00120E22] := by decide +kernel

/-! ### The extractor, resolution and reduction (vectors EX5, EX7, V41, V46, V47) -/

theorem test_extractor_tie_and_correction :
    split51 (vSplat (f64OfNat (2 ^ 50))) (vSplat (f64OfNat 3)) = (vSplat 1, vSplat 0x4000000000000) ∧
      split51 (vSplat (f64OfNat 123456789012345)) (vSplat (f64OfNat 987654321098765))
        = (vSplat 0x313F89DF5902, vSplat 0x6A30E51C22925) := by decide +kernel

theorem test_resolve : wordsAfter (.resolveF51 0 0)
      (pair [0x0008000000000005, 0x0007FFFFFFFFFFFF, 0, 0, 7] []) 0
    = [0x4014000000000000, 0, 0x3FF0000000000000, 0, 0x401C000000000000, 0, 0, 0, 0] := by
  decide +kernel

theorem test_reduce_subtracts : wordsAfter (.reduceF51 3 0) (floatState (source.p + 2 ^ 204) 0 source.p 0) 3
    = [0, 0, 0, 0, 0x3FF0000000000000, 0, 0, 0, 0] := by decide +kernel

theorem test_reduce_passes_through : wordsAfter (.reduceF51 3 0)
      (loaded (regOf [0x42E1A1E12DDC8C20, 0x42FB78F3C3221F60, 0x4314BBAD8FCB1410,
        0x4317C3A118393CC4, 0x42E1AE6911D59AA0]) BigReg.zero (f51Of (limbsOf 5 51 source.p)) 0) 3
    = [0x42E1A1E12DDC8C20, 0x42FB78F3C3221F60, 0x4314BBAD8FCB1410, 0x4317C3A118393CC4,
       0x42E1AE6911D59AA0, 0, 0, 0, 0] := by decide +kernel

/-! ### Fetching and stepping -/

theorem test_withFetchWord_runs_the_command :
    step (State.reset.withFetchWord 64 0x1220) = exec (.mulCios32 2 0 1) State.reset := by rfl

theorem test_illegal_word_sets_err (s : State) (h : s.pending = []) :
    step (s.withFetchWord 64 0x2) = .next { s with status := { s.status with err := true } } := by
  cases s; cases h; rfl

/-! ### Witnesses: states and operands that meet the hypotheses of the statements -/

theorem witness_ResetEventClearsStatus :
    (host [.reset, .regRead 0x52]).pending = .reset :: [.regRead 0x52] := rfl

theorem witness_StepRunsTheDecodedCommand :
    (host [.regWrite 0x51 0x1220]).pending = .regWrite 0x51 0x1220 :: [] ∧
      decode 0x1220 = .ok (.mulCios32 2 0 1) := by decide

theorem witness_IllegalCommandSetsErrOnly :
    (host [.regWrite 0x51 0x1A30]).pending = .regWrite 0x51 0x1A30 :: [] ∧
      (Fields.ofWord 0x1A30).wellFormed = false ∧ (Fields.ofWord 0).wellFormed = false ∧
      (Fields.ofWord 0x8000000000001220).wellFormed = false := by decide

theorem witness_DecodeAndEncodeAgree :
    decode 0x3F25 = .ok (.mulDc29 3 3 3) ∧ (0x3F25 : Word) = encode (.mulDc29 3 3 3) := by decide

theorem witness_LegalWordsAreTheTableRows :
    ((0x01, .Z) : Word × Format) ∈ opcodeTable ∧ (0x301 : Word) &&& Format.Z.mask = 0x01 ∧
      ((0x31, .R2) : Word × Format) ∈ opcodeTable ∧ (0xF31 : Word) &&& Format.R2.mask = 0x31 := by
  decide

theorem witness_ReadsHaveNoSideEffect :
    (host [.regRead 0x52]).pending = .regRead 0x52 :: [] ∧
      (host [.regRead 0x7F]).pending = .regRead 0x7F :: [] := ⟨rfl, rfl⟩

theorem witness_WrittenWordIsReadBack :
    (∃ r k, (0x38 : Addr) = xAddr r k) ∧ (∃ r k, (0x00 : Addr) = xAddr r k) ∧
      (∃ k, (0x48 : Addr) = modAddr k) ∧ (0x50 : Addr) = 0x50 ∧
      (host [.regWrite 0x38 7]).pending = .regWrite 0x38 7 :: [] := by decide

/-- Boundary addresses of the clauses: the reserved ranges, CMD and STATUS; 0x08, 0x48 and 0x50 are none
of them. -/
theorem witness_IgnoredWritesAndZeroReads :
    (∀ a ∈ [(0x09 : Addr), 0x0F, 0x39, 0x3F, 0x49, 0x4F],
      a.toNat < 0x50 ∧ 9 ≤ a.toNat % 16) ∧
    (0x53 ≤ (0x53 : Addr).toNat ∧ 0x53 ≤ (0x7F : Addr).toNat) ∧
    (∀ a ∈ [(0x08 : Addr), 0x48, 0x50],
      ¬ (a = 0x51 ∨ a = 0x52 ∨ 0x53 ≤ a.toNat ∨ (a.toNat < 0x50 ∧ 9 ≤ a.toNat % 16))) ∧
    (host [.regWrite 0x52 7]).pending = .regWrite 0x52 7 :: [] ∧
    (host [.regRead 0x51]).pending = .regRead 0x51 :: [] := by decide

theorem witness_AlignedBusAccessIsLittleEndian :
    (1016 : BusAddr).toNat % 8 = 0 ∧ ([1, 2, 3, 4, 5, 6, 7, 8] : List Byte).length = 8 ∧
      (0x0807060504030201 : Word).toNat
        = val 8 (([1, 2, 3, 4, 5, 6, 7, 8] : List Byte).map BitVec.toNat) := by decide

theorem witness_OtherBusAccessIsRefused :
    ((([1, 2, 3, 4] : List Byte).length ≠ 8 ∨ (0 : BusAddr).toNat % 8 ≠ 0) ∧
      (host [.busWrite 0 [1, 2, 3, 4]]).pending = .busWrite 0 [1, 2, 3, 4] :: []) ∧
    (((8 : Nat) ≠ 8 ∨ (1023 : BusAddr).toNat % 8 ≠ 0) ∧
      (host [.busRead 1023 8]).pending = .busRead 1023 8 :: []) := by decide

theorem witness_CommandsReadNothingElse :
    let s := pair [5] [6]
    let s' := { pair [5, 0, 0, 0, 0, 0, 0, 0, 9] [6, 0, 0, 0, 0, 0, 0, 0, 9] with
      replies := [.busError], status := ⟨true, true, true, true⟩ }
    s'.draws = s.draws ∧ (s'.reg 0).firstWords 8 = (s.reg 0).firstWords 8 ∧
      (s'.reg 1).firstWords 8 = (s.reg 1).firstWords 8 ∧
      s'.modulus.firstWords 9 = s.modulus.firstWords 9 ∧ s'.n0 = s.n0 ∧
      (s'.reg 0).firstWords 5 = (s.reg 0).firstWords 5 ∧ s'.status ≠ s.status := by decide

/-- Canonical operands at the top of each limb width, with a borrow out: of the compares and of the
subtractions. -/
theorem witness_CompareAndSubtract :
    (let s := limbState 8 32 5 (2 ^ 256 - 1) 0 0
     Canonical 32 (s.reg 0).i32 ∧ Canonical 32 (s.reg 1).i32 ∧
       val 32 (s.reg 0).i32 < val 32 (s.reg 1).i32) ∧
    (let s := limbState 9 30 5 (2 ^ 270 - 1) 0 0
     Canonical 30 (s.reg 0).i9 ∧ Canonical 30 (s.reg 1).i9) ∧
    (let s := limbState 9 29 5 (2 ^ 261 - 1) 0 0
     Canonical 29 (s.reg 0).i9 ∧ Canonical 29 (s.reg 1).i9) := by decide +kernel

/-- A register at the top of each limb width, which a compare or a subtraction may name twice. -/
theorem witness_SameRegisterTwice :
    (let s := limbState 8 32 (2 ^ 256 - 1) 0 0 0
     Canonical 32 ((s.reg 0).limbs 8)) ∧
    (let s := limbState 9 30 (2 ^ 270 - 1) 0 0 0
     Canonical 30 ((s.reg 0).limbs 9)) ∧
    (let s := limbState 9 29 (2 ^ 261 - 1) 0 0 0
     Canonical 29 ((s.reg 0).limbs 9)) := by decide +kernel

theorem witness_SubLimbsIsTheWrappedDifference :
    [5, 0].length = [6, 0].length ∧ Canonical 32 [5, 0] ∧ Canonical 32 [6, 0] := by decide

theorem witness_GtLimbsComparesValues :
    [5, 2 ^ 40].length = [2 ^ 32 - 1, 2 ^ 33].length ∧ Canonical 32 [5, 2 ^ 40].dropLast ∧
      Canonical 32 [2 ^ 32 - 1, 2 ^ 33].dropLast := by decide

/-- The candidate of vector V54, whose top limb has 31 bits. -/
theorem witness_CondSubReducesOnce :
    let c := [0, 0, 0, 0, 0, 0, 0, 0, 0x40000000]
    let m := limbsOf 9 30 (2 ^ 270 - 1)
    c.length = m.length ∧ Canonical 30 c.dropLast ∧ Canonical 30 m ∧ val 30 c < 2 * val 30 m ∧
      ¬ val 30 c < val 30 m := by decide +kernel

theorem witness_CombineIsTheModularDifference :
    let d := [0, 0, 0, 0, 0, 0, 0, 0]
    let e := [2, 0, 0, 0, 0, 0, 0, 0]
    let m := [3, 0, 0, 0, 0, 0, 0, 0]
    d.length = m.length ∧ e.length = m.length ∧ Canonical 32 d ∧ Canonical 32 e ∧ Canonical 32 m ∧
      val 32 d < val 32 m ∧ val 32 e < val 32 m := by decide

theorem witness_QuotientDigits :
    (0xFFFFFFFF * 0xD00000001 + 1) % 2 ^ 32 = 0 ∧
    ((0xAAAAAAAB : Nat) < 2 ^ 32 ∧ (2 : Nat) < 2 ^ 32 ∧ (0xAAAAAAAB * 3) % 2 ^ 32 = 1) ∧
    (2 ^ 51 - 1 : Nat) < 2 ^ 51 := by decide

theorem witness_IntegerPatternsAreFaithful :
    (2 ^ 53 - 1 : Nat) < 2 ^ 53 ∧ f51Valid 0x433FFFFFFFFFFFFF = true ∧ f51Valid 0 = true := by
  decide +kernel

theorem witness_RoundingIsToNearestEven : 0 < 51 ∧
    2 * ((3 * 2 ^ 50 : Nat) - (rneShift (3 * 2 ^ 50) 51 : Int) * 2 ^ 51).natAbs = 2 ^ 51 := by decide

theorem witness_BiasConversionIsExact : (2 ^ 52 - 1 : Nat) < 2 ^ 52 := by decide

theorem witness_ExtractorGivesFloorAndRest :
    (2 ^ 51 - 1 : Nat) < 2 ^ 51 ∧ (123456789012345 : Nat) < 2 ^ 51 := by decide

/-- The source's operands, and the largest ones for the modulus 2^256 − 1. -/
theorem witness_Cios32Pre :
    (let s := limbState 8 32 source.a0 source.b0 source.p 0xFFFFFFFF
     Cios32Pre (s.reg 0).i32 (s.reg 1).i32 (s.modulus.limbs 9) s.n0.toNat) ∧
    (let s := limbState 8 32 (2 ^ 256 - 2) (2 ^ 256 - 2) (2 ^ 256 - 1) 1
     Cios32Pre (s.reg 0).i32 (s.reg 1).i32 (s.modulus.limbs 9) s.n0.toNat) := by decide +kernel

theorem witness_ClassicCiosCandidateIsExact :
    (limbsOf 8 32 source.a0).length = 8 ∧ (limbsOf 8 32 source.b0).length = 8 ∧
      (limbsOf 9 32 source.p).length = 9 ∧
      Cios32Pre (limbsOf 8 32 source.a0) (limbsOf 8 32 source.b0) (limbsOf 9 32 source.p) 0xFFFFFFFF := by
  decide +kernel

theorem witness_Bm17Pre :
    (let s := limbState 8 32 source.a0 source.b0 source.p 1
     Bm17Pre (s.reg 0).i32 (s.reg 1).i32 s.modulus.i32 s.n0.toNat) ∧
    (let s := limbState 8 32 2 2 3 0xAAAAAAAB
     Bm17Pre (s.reg 0).i32 (s.reg 1).i32 s.modulus.i32 s.n0.toNat) := by decide +kernel

theorem witness_PairedAccumulatorsStayBelowModulus :
    (limbsOf 8 32 source.a0).length = 8 ∧ (limbsOf 8 32 source.b0).length = 8 ∧
      (limbsOf 8 32 source.p).length = 8 ∧
      Bm17Pre (limbsOf 8 32 source.a0) (limbsOf 8 32 source.b0) (limbsOf 8 32 source.p) 1 := by decide +kernel

theorem witness_ClassicAndPairedAgree :
    let s := limbState 8 32 source.a0 source.b0 source.p 0
    Cios32Pre (s.reg 0).i32 (s.reg 1).i32 (s.modulus.limbs 9) (0xFFFFFFFF : Word).toNat ∧
      IsPosInverse (1 : Word).toNat (val 32 s.modulus.i32) 32 := by decide +kernel

/-- The source's operands with N = −p⁻¹ mod 2^255, and the largest ones for 2^255 − 1. -/
theorem witness_F51Pre :
    (let s := floatState source.a1 source.b1 source.p 422212465065983
     F51Pre (s.reg 0).f51Words (s.reg 1).f51Words s.modulus.f51Words s.n0.toNat ∧
       IsNegInverse 0x6992d0fa68b29556249765c34790a000452217cc900000010a117fffffffffff (val 51 s.modulus.f51) 255) ∧
    (let s := floatState (2 ^ 255 - 2) (2 ^ 255 - 2) (2 ^ 255 - 1) 1
     F51Pre (s.reg 0).f51Words (s.reg 1).f51Words s.modulus.f51Words s.n0.toNat ∧
       IsNegInverse 1 (val 51 s.modulus.f51) 255) := by decide +kernel

theorem witness_FloatCiosLanesAgree :
    ([1, 2, 3, 4, 5] : List Word).length = 5 ∧ ([0x7FF0000000000000, 0, 0, 0, 0] : List Word).length = 5 := by
  decide

theorem witness_DcPre :
    (let s := limbState 9 30 (2 ^ 270 - 2) (2 ^ 270 - 2) (2 ^ 270 - 1) 1
     DcPre 30 (s.reg 0).i9 (s.reg 1).i9 s.modulus.i9 s.n0.toNat) ∧
    (let s := limbState 9 29 source.a0 source.b0 source.p 0x1FFFFFFF
     DcPre 29 (s.reg 0).i9 (s.reg 1).i9 s.modulus.i9 s.n0.toNat) := by decide +kernel

theorem witness_DelayedCarrySlotsDoNotOverflow :
    let a := limbsOf 9 30 (2 ^ 270 - 1)
    (a.take 8 ++ (2 ^ 30 - 1) :: ([] : List Nat)).length = 9 ∧ a.length = 9 ∧
      Canonical 30 (a.take 8 ++ (2 ^ 30 - 1) :: ([] : List Nat)) ∧ Canonical 30 a := by decide +kernel

theorem witness_ResolvePre :
    let s := pair [0x0008000000000005, 0x0007FFFFFFFFFFFF, 0, 0, 7] []
    ResolvePre (s.reg 0).u51 := by decide +kernel

/-- A value that is subtracted, and one that is passed through. -/
theorem witness_ReducePre :
    (let s := floatState (source.p + 2 ^ 204) 0 source.p 0
     ReducePre (s.reg 0).f51Words s.modulus.f51Words ∧
       topLimb (s.reg 0).f51 > topLimb s.modulus.f51) ∧
    (let s := floatState source.a1 0 source.p 0
     ReducePre (s.reg 0).f51Words s.modulus.f51Words ∧
       topLimb (s.reg 0).f51 < topLimb s.modulus.f51) := by decide +kernel

/-- The two ties of vector V46: p − 1 and p + 5. -/
theorem witness_ReduceTieCompletes :
    (let s := floatState (source.p - 1) 0 source.p 0
     topLimb (s.reg 0).f51 = topLimb s.modulus.f51) ∧
    (let s := floatState (source.p + 5) 0 source.p 0
     topLimb (s.reg 0).f51 = topLimb s.modulus.f51) := by decide +kernel

/-- A host that writes a legal command: the state meets the invariant and steps. -/
theorem witness_LegalHostsKeepErrClear :
    let s := host [.regWrite 0x51 0x201, .regRead 0x52]
    LegalHost s ∧ ∃ t, step s = .next t := by
  refine ⟨⟨rfl, ?_⟩, ⟨_, rfl⟩⟩
  intro op hop
  simp only [host, List.mem_cons, List.not_mem_nil, or_false] at hop
  rcases hop with rfl | rfl
  · exact fun _ => ⟨.zero 2, by decide⟩
  · trivial

theorem witness_ErrIsStickyUntilReset :
    let s := raiseIllegal (host [.regWrite 0x51 0x201])
    ErrorHeld s ∧ ∃ t, step s = .next t :=
  ⟨⟨rfl, by decide⟩, ⟨_, rfl⟩⟩

/-- The session of program P2, with its two commands, an illegal word and a read pending. -/
theorem witness_SessionsKeepResidues :
    let s := { limbState 8 32 source.a0 source.b0 source.p 0xFFFFFFFF with
      pending := [.regWrite 0x51 0x1020, .regWrite 0x51 0x0520, .regWrite 0x51 0, .regRead 0x00] }
    ResidueSession source.p s ∧ ∃ t, step s = .next t := by
  refine ⟨⟨by decide +kernel, by decide +kernel, by decide +kernel, by decide +kernel, ?_, ?_⟩,
    ⟨_, rfl⟩⟩
  · unfold HoldsResidue
    decide +kernel
  · intro op hop
    simp only [List.mem_cons, List.not_mem_nil, or_false] at hop
    rcases hop with rfl | rfl | rfl | rfl
    · refine .inr (.inr ⟨by decide, fun i hi => ?_⟩)
      have : i = .mulCios32 0 0 1 := by
        have h : decode 0x1020 = .ok (.mulCios32 0 0 1) := by decide
        simpa using (h.symm.trans hi).symm
      subst this
      exact (by decide +kernel : IsNegInverse 0xFFFFFFFF source.p 32)
    · refine .inr (.inr ⟨by decide, fun i hi => ?_⟩)
      have : i = .mulCios32 1 1 0 := by
        have h : decode 0x0520 = .ok (.mulCios32 1 1 0) := by decide
        simpa using (h.symm.trans hi).symm
      subst this
      exact (by decide +kernel : IsNegInverse 0xFFFFFFFF source.p 32)
    · refine .inr (.inr ⟨by decide, fun i hi => ?_⟩)
      have h : decode 0 = .error (.opcode 0) := by decide
      cases h.symm.trans hi
    · trivial

/-! ### MUL.F51 and the required sequence (vectors V40 to V42) -/

/-- The state of the float vectors. -/
def floatInput : State := floatState source.a1 source.b1 source.p 422212465065983

theorem test_f51 : f51Mul (floatInput.reg 0).f51Words (floatInput.reg 1).f51Words
      floatInput.modulus.f51Words floatInput.n0.toNat
    = [0x00308D0F096EE461, 0x0021B78F3C3221F0, 0x00152EEB63F2C500, 0x000DF0E8460E4F2F,
       0x00008D73488EACD4] := by decide +kernel

/-- The source's operands lead to no tie. -/
theorem witness_FloatSequenceIsTheMontgomeryProduct :
    F51Pre (floatInput.reg 0).f51Words (floatInput.reg 1).f51Words floatInput.modulus.f51Words
        floatInput.n0.toNat ∧
      ∃ t u, exec (.mulF51 2 0 1) floatInput = .next t ∧ exec (.resolveF51 2 2) t = .next u ∧
        topLimb (u.reg 2).f51 ≠ topLimb floatInput.modulus.f51 := by
  have hp : F51Pre (floatInput.reg 0).f51Words (floatInput.reg 1).f51Words
      floatInput.modulus.f51Words floatInput.n0.toNat := by decide +kernel
  refine ⟨hp, _, _, congrArg Host.Outcome.next (commitLimbs_defined (decide_eq_true hp) ..), rfl, ?_⟩
  rw [test_f51]
  decide +kernel

end Sys2Proof.Tests
end

section
/-! The classic and the paired multipliers of R = 2^256: each writes the canonical limbs of the
Montgomery product (42_classic_cios.md R140, 43_paired_bm17.md R150, R151), so they write the same words. -/

namespace Sys2Proof.Machine

/-! ### The final subtraction and combination by value (40_datapath_units.md R107, R108) -/

/-- A candidate below twice the modulus is reduced by at most one subtraction; its top limb may exceed
W bits. -/
theorem condSub_spec {W : Nat} {c m : List Nat} (hl : c.length = m.length)
    (hc : Canonical W c.dropLast) (hm : Canonical W m) (hlt : val W c < 2 * val W m) :
    val W (condSub W c m) = (if val W c < val W m then val W c else val W c - val W m) ∧
      Canonical W (condSub W c m) := by
  have hgt := gtLimbs_iff hl.symm (canonical_dropLast hm) hc
  have hmR : val W m < 2 ^ (W * c.length) := hl ▸ val_lt hm
  unfold condSub
  by_cases h : val W c < val W m
  · rw [if_pos (hgt.mpr h), if_pos h]
    exact ⟨rfl, canonical_of_dropLast hc (h.trans hmR)⟩
  · rw [if_neg (mt hgt.mp h), if_neg h]
    exact ⟨val_subLimbs_of_le hl hc hm (not_lt.mp h) (by omega), canonical_subLimbs W c m⟩

/-- The reduced candidate is the residue of the candidate. -/
theorem val_condSub_eq_mod {W : Nat} {c m : List Nat} (hl : c.length = m.length)
    (hc : Canonical W c.dropLast) (hm : Canonical W m) (hlt : val W c < 2 * val W m) :
    val W (condSub W c m) = val W c % val W m := by
  rw [(condSub_spec hl hc hm hlt).1]
  split
  case isTrue h => exact (Nat.mod_eq_of_lt h).symm
  case isFalse h => rw [Nat.mod_eq_sub_mod (not_lt.mp h), Nat.mod_eq_of_lt (by omega)]

/-- The combination of two residues is the residue of their difference. -/
theorem combine_spec {W : Nat} {d e m : List Nat} (hd : d.length = m.length)
    (he : e.length = m.length) (cd : Canonical W d) (ce : Canonical W e) (cm : Canonical W m)
    (hdm : val W d < val W m) (hem : val W e < val W m) :
    (val W (combine W d e m) : Int) = ((val W d : Int) - val W e) % (val W m : Int) ∧
      Canonical W (combine W d e m) := by
  have hmR : val W m < 2 ^ (W * m.length) := val_lt cm
  unfold combine
  rw [gtLimbs_eq_decide ce cd (he.trans hd.symm)]
  by_cases h : val W e > val W d
  · rw [if_pos (decide_eq_true h)]
    have hed : val W (subLimbs W e d).1 = val W e - val W d :=
      val_subLimbs_of_le (he.trans hd.symm) (canonical_dropLast ce) cd h.le (by rw [he]; omega)
    have hmed := val_subLimbs_of_le (a := m) (b := (subLimbs W e d).1)
      (by rw [length_subLimbs W (he.trans hd.symm), he]) (canonical_dropLast cm)
      (canonical_subLimbs W e d) (by omega) (by omega)
    refine ⟨?_, canonical_subLimbs W _ _⟩
    rw [hmed, hed, ← Int.add_emod_right, Int.emod_eq_of_lt (by omega) (by omega)]
    omega
  · rw [if_neg (by simpa using h)]
    have hde : val W (subLimbs W d e).1 = val W d - val W e :=
      val_subLimbs_of_le (hd.trans he.symm) (canonical_dropLast cd) ce (not_lt.mp h)
        (by rw [hd]; omega)
    refine ⟨?_, canonical_subLimbs W _ _⟩
    rw [hde, Int.emod_eq_of_lt (by omega) (by omega)]
    omega

/-! ### MUL.CIOS32 (42_classic_cios.md R140) -/

/-- What the outer iterations leave: the invariant, and the value (a·b + M·p) / 2^256 exactly. -/
theorem foldl_ciosStep {a b p : List Nat} {n0 : Nat} (ha : a.length = 8) (hb : b.length = 8)
    (hp : p.length = 8) (ca : Canonical 32 a) (cp : Canonical 32 p)
    (hB : val 32 b < val 32 p) (hn : IsNegInverse n0 (val 32 p) 32) :
    CiosInv (val 32 p) (a.foldl (ciosStep b p n0) ciosInit) ∧ ∃ M, M < 2 ^ 256 ∧
      ciosValue (a.foldl (ciosStep b p n0) ciosInit) * 2 ^ 256 = val 32 a * val 32 b + M * val 32 p := by
  have h := foldl_cios (ciosStep b p n0) ciosValue id (CiosInv (val 32 p)) (· < 2 ^ 32) 32
    (val 32 b) (val 32 p) (fun _ _ hs hx => ciosStep_spec hb hp cp hn hB hs hx) a ca ciosInit
    (ciosInit_inv (by omega))
  have h0 : ciosValue ciosInit = 0 := by decide
  rwa [ha, List.map_id, h0, Nat.zero_add] at h

/-- The candidate of MUL.CIOS32: nine limbs, canonical below the top one, of the exact value
(a·b + M·p) / 2^256 (R140, property (iii)). -/
theorem ciosCandidate_spec {a b pw : List Nat} {n0 : Nat} (ha : a.length = 8) (hb : b.length = 8)
    (hpw : pw.length = 9) (h : Cios32Pre a b pw n0) :
    (ciosCandidate a b (pw.take 8) n0).length = 9 ∧
      Canonical 32 (ciosCandidate a b (pw.take 8) n0).dropLast ∧ ∃ M, M < 2 ^ 256 ∧
      val 32 (ciosCandidate a b (pw.take 8) n0) * 2 ^ 256
        = val 32 a * val 32 b + M * val 32 (pw.take 8) := by
  obtain ⟨⟨ca, -⟩, ⟨cp, -⟩, -, ⟨-, hB⟩, hn⟩ := h
  obtain ⟨inv, hM⟩ := foldl_ciosStep ha hb (by simp [hpw]) ca cp hB hn
  unfold ciosCandidate
  set acc := a.foldl (ciosStep b (pw.take 8) n0) ciosInit
  have hv : val 32 (acc.low ++ [acc.t8]) = ciosValue acc := by
    simp [val_append, inv.length, ciosValue, inv.top]
  exact ⟨by simp [inv.length], by simpa using inv.canonical, hv ▸ hM⟩

/-- The wide encoding of a modulus is its eight limbs and a ninth limb 0. -/
theorem take_eight_append_zero {pw : List Nat} (hpw : pw.length = 9) (h8 : pw.getD 8 0 = 0) :
    pw.take 8 ++ [0] = pw := by
  rw [List.getD_eq_getElem _ _ (by omega)] at h8
  rw [← h8, List.take_append_getElem, List.take_of_length_le (by omega)]

/-- A sequence whose value fits its first n limbs keeps the value when cut to them. -/
theorem val_take_of_lt {W n : Nat} {l : List Nat} (hn : n ≤ l.length) (h : val W l < 2 ^ (W * n)) :
    val W (l.take n) = val W l := by
  have hl : val W (l.take n) + 2 ^ (W * n) * val W (l.drop n) = val W l := by
    have := val_append W (l.take n) (l.drop n)
    rwa [List.take_append_drop, List.length_take_of_le hn, eq_comm] at this
  have hdrop : val W (l.drop n) = 0 := by
    by_contra h0
    have hle := Nat.le_mul_of_pos_right (2 ^ (W * n)) (Nat.pos_of_ne_zero h0)
    omega
  rw [← hl, hdrop, Nat.mul_zero, Nat.add_zero]

/-- MUL.CIOS32 computes the canonical limbs of the Montgomery product (R140). -/
theorem ciosMul_spec {a b pw : List Nat} {n0 : Nat} (ha : a.length = 8) (hb : b.length = 8)
    (hpw : pw.length = 9) (h : Cios32Pre a b pw n0) :
    (ciosMul a b pw n0).length = 8 ∧ Canonical 32 (ciosMul a b pw n0) ∧
      val 32 (ciosMul a b pw n0)
        = montMul (val 32 a) (val 32 b) (val 32 (pw.take 8)) (2 ^ 256) := by
  obtain ⟨hlen, hcan, M, hM, hval⟩ := ciosCandidate_spec ha hb hpw h
  obtain ⟨-, ⟨cp, h8⟩, ⟨hodd, hp1, hpR⟩, ⟨hA, hB⟩, -⟩ := h
  obtain ⟨hlt, hmont⟩ := cios_candidate hodd hA hB hpR hM hval
  have hwide := take_eight_append_zero hpw h8
  have cpw : Canonical 32 pw := hwide ▸ canonical_append.mpr ⟨cp, by decide⟩
  have hvpw : val 32 pw = val 32 (pw.take 8) := by
    conv_lhs => rw [← hwide]
    simp [val_append]
  have hlc := hlen.trans hpw.symm
  rw [← hvpw] at hlt hmont
  have hres := (val_condSub_eq_mod hlc hcan cpw hlt).trans hmont
  have hcond : Canonical 32 (condSub 32 (ciosCandidate a b (pw.take 8) n0) pw) :=
    (condSub_spec hlc hcan cpw hlt).2
  have hlen9 : (condSub 32 (ciosCandidate a b (pw.take 8) n0) pw).length = 9 :=
    (length_condSub 32 hlc).trans hpw
  have hfits : val 32 (condSub 32 (ciosCandidate a b (pw.take 8) n0) pw) < 2 ^ (32 * 8) :=
    hres ▸ (montMul_lt (by omega) _ _ _).trans (hvpw ▸ hpR)
  refine ⟨by simp [ciosMul, hlen9], fun x hx => hcond x (List.mem_of_mem_take hx), ?_⟩
  rw [ciosMul, val_take_of_lt (by omega) hfits, hres, hvpw]

/-! ### MUL.BM17S (43_paired_bm17.md R150) -/

/-- The outer iterations of BM17 on the limbs of a keep the invariant, add a·B − Q·P to the difference
of the accumulators and divide it by 2^(32·L) exactly (R153, R154). -/
theorem foldl_bmStep {b p : List Nat} {mu : Nat} (hb : b.length = 8) (hp : p.length = 8)
    (cb : Canonical 32 b) (cp : Canonical 32 p) (hmu : IsPosInverse mu (val 32 p) 32) (a : List Nat)
    (ca : Canonical 32 a) {acc : BmAcc} (h : BmInv (val 32 b) (val 32 p) acc) :
    BmInv (val 32 b) (val 32 p) (a.foldl (bmStep b p mu) acc) ∧ ∃ Q : Nat, Q < 2 ^ (32 * a.length) ∧
      ((val 32 (a.foldl (bmStep b p mu) acc).d : Int) - val 32 (a.foldl (bmStep b p mu) acc).e)
          * 2 ^ (32 * a.length)
        = val 32 acc.d - val 32 acc.e + val 32 a * val 32 b - Q * val 32 p := by
  induction a generalizing acc with
  | nil => exact ⟨h, 0, by simp, by simp⟩
  | cons x a ih =>
    obtain ⟨hx, ca⟩ := canonical_cons.mp ca
    obtain ⟨h1, q, hq, e1⟩ := bmStep_spec hb hp cb cp hmu h hx
    obtain ⟨h2, Q, hQ, e2⟩ := ih ca h1
    refine ⟨h2, q + 2 ^ 32 * Q, ?_, ?_⟩
    · rw [List.length_cons, Nat.mul_succ, Nat.pow_add]
      omega
    · rw [List.foldl_cons, List.length_cons, Nat.mul_succ, pow_add, val_cons]
      push_cast
      linear_combination 2 ^ 32 * e2 + e1

/-- The two accumulators of BM17 after the outer iterations (R153, R154). -/
theorem bmAccumulate_spec {a b p : List Nat} {mu : Nat} (ha : a.length = 8) (hb : b.length = 8)
    (hp : p.length = 8) (h : Bm17Pre a b p mu) :
    BmInv (val 32 b) (val 32 p) (bmAccumulate a b p mu) ∧ ∃ Q : Nat, Q < 2 ^ 256 ∧
      ((val 32 (bmAccumulate a b p mu).d : Int) - val 32 (bmAccumulate a b p mu).e) * 2 ^ 256
        = val 32 a * val 32 b - Q * val 32 p := by
  obtain ⟨⟨ca, cb⟩, cp, ⟨-, hp1, -⟩, -, hmu⟩ := h
  have h := foldl_bmStep hb hp cb cp hmu a ca (bmInit_inv (by omega))
  have h0 : val 32 bmInit.d = 0 ∧ val 32 bmInit.e = 0 := by decide
  simpa only [bmAccumulate, ha, h0, Nat.cast_zero, sub_zero, zero_add, Nat.reduceMul] using h

/-- MUL.BM17S computes the canonical limbs of the Montgomery product (R150, R152). -/
theorem bmMul_spec {a b p : List Nat} {mu : Nat} (ha : a.length = 8) (hb : b.length = 8)
    (hp : p.length = 8) (h : Bm17Pre a b p mu) :
    (bmMul a b p mu).length = 8 ∧ Canonical 32 (bmMul a b p mu) ∧
      val 32 (bmMul a b p mu) = montMul (val 32 a) (val 32 b) (val 32 p) (2 ^ 256) := by
  obtain ⟨inv, Q, -, hQ⟩ := bmAccumulate_spec ha hb hp h
  obtain ⟨-, cp, ⟨hodd, hp1, -⟩, ⟨-, hB⟩, -⟩ := h
  obtain ⟨hval, hcan⟩ := combine_spec (inv.lengthD.trans hp.symm) (inv.lengthE.trans hp.symm)
    inv.canonicalD inv.canonicalE cp (inv.boundD.trans_lt hB) inv.boundE
  change (val 32 (bmMul a b p mu) : Int) = _ at hval
  have hlt : (val 32 (bmMul a b p mu) : Int) < val 32 p := hval ▸ Int.emod_lt_of_pos _ (by omega)
  refine ⟨length_bmMul a mu hb hp, hcan, eq_montMul hodd (by exact_mod_cast hlt) ?_⟩
  rw [← Int.natCast_modEq_iff]
  push_cast
  calc (val 32 (bmMul a b p mu) : Int) * 2 ^ 256
      ≡ (val 32 (bmAccumulate a b p mu).d - val 32 (bmAccumulate a b p mu).e) * 2 ^ 256
          [ZMOD val 32 p] := (hval ▸ Int.mod_modEq _ _).mul_right _
    _ = val 32 a * val 32 b - Q * val 32 p := hQ
    _ ≡ val 32 a * val 32 b [ZMOD val 32 p] := (Int.modEq_iff_dvd.mpr ⟨Q, by ring⟩)

/-! ### MUL.BM17V (R151) -/

/-- Lane 0 of packed limbs holds the first sequence. -/
theorem map_vLo_bmvPack {d e : List Nat} (hl : d.length = e.length) (cd : Canonical 64 d) :
    ((bmvPack d e).map fun v => (vLo v).toNat) = d := by
  refine List.ext_getElem (by simp [bmvPack, hl]) fun i _ hi => ?_
  simpa [bmvPack, vLo, vMake] using Nat.mod_eq_of_lt (cd _ (List.getElem_mem hi))

/-- Lane 1 of packed limbs holds the second sequence. -/
theorem map_vHi_bmvPack {d e : List Nat} (hl : d.length = e.length) (ce : Canonical 64 e) :
    ((bmvPack d e).map fun v => (vHi v).toNat) = e := by
  refine List.ext_getElem (by simp [bmvPack, hl]) fun i _ hi => ?_
  simpa [bmvPack, vHi, vMake] using Nat.mod_eq_of_lt (ce _ (List.getElem_mem hi))

/-- The outer iterations of MUL.BM17V hold in their lanes the accumulators of MUL.BM17S (R151). -/
theorem foldl_bmvStep {b p : List Nat} {mu : Nat} (hb : b.length = 8) (hp : p.length = 8)
    (cb : Canonical 32 b) (cp : Canonical 32 p) (hmu : IsPosInverse mu (val 32 p) 32) (a : List Nat)
    (ca : Canonical 32 a) {acc : BmAcc} (h : BmInv (val 32 b) (val 32 p) acc) :
    a.foldl (bmvStep (bmvPack b p) (b.headD 0) mu) (bmvPack acc.d acc.e)
      = bmvPack (a.foldl (bmStep b p mu) acc).d (a.foldl (bmStep b p mu) acc).e := by
  induction a generalizing acc with
  | nil => rfl
  | cons x a ih =>
    obtain ⟨hx, ca⟩ := canonical_cons.mp ca
    rw [List.foldl_cons, List.foldl_cons, bmvStep_eq hb hp cb cp hx h.lengthD h.lengthE h.canonicalD
      h.canonicalE]
    exact ih ca (bmStep_spec hb hp cb cp hmu h hx).1

/-- MUL.BM17V computes the limbs that MUL.BM17S does (R151). -/
theorem bmvMul_eq_bmMul {a b p : List Nat} {mu : Nat} (ha : a.length = 8) (hb : b.length = 8)
    (hp : p.length = 8) (h : Bm17Pre a b p mu) : bmvMul a b p mu = bmMul a b p mu := by
  obtain ⟨inv, -⟩ := bmAccumulate_spec ha hb hp h
  obtain ⟨⟨ca, cb⟩, cp, ⟨-, hp1, -⟩, -, hmu⟩ := h
  have hacc : bmvAccumulate a b p mu
      = bmvPack (bmAccumulate a b p mu).d (bmAccumulate a b p mu).e :=
    foldl_bmvStep hb hp cb cp hmu a ca (bmInit_inv (by omega))
  have hl := inv.lengthD.trans inv.lengthE.symm
  rw [bmvMul, hacc, map_vLo_bmvPack hl (inv.canonicalD.mono (by decide)),
    map_vHi_bmvPack hl (inv.canonicalE.mono (by decide)), bmMul]

/-! ### The commands under their preconditions -/

section
variable {s : State} {rd ra rb : Reg}

theorem exec_mulCios32_of_pre
    (h : Cios32Pre (s.reg ra).i32 (s.reg rb).i32 (s.modulus.limbs 9) s.n0.toNat) :
    exec (.mulCios32 rd ra rb) s = .next (s.setReg rd (BigReg.ofWords (wordsOfLimbs
      (ciosMul (s.reg ra).i32 (s.reg rb).i32 (s.modulus.limbs 9) s.n0.toNat)))) :=
  congrArg _ (commitLimbs_defined (decide_eq_true h) ..)

theorem exec_mulBm17s_of_pre
    (h : Bm17Pre (s.reg ra).i32 (s.reg rb).i32 s.modulus.i32 s.n0.toNat) :
    exec (.mulBm17s rd ra rb) s = .next (s.setReg rd (BigReg.ofWords (wordsOfLimbs
      (bmMul (s.reg ra).i32 (s.reg rb).i32 s.modulus.i32 s.n0.toNat)))) :=
  congrArg _ (commitLimbs_defined (decide_eq_true h) ..)

/-- MUL.BM17V goes to the next state of MUL.BM17S. -/
theorem exec_mulBm17v_of_pre
    (h : Bm17Pre (s.reg ra).i32 (s.reg rb).i32 s.modulus.i32 s.n0.toNat) :
    exec (.mulBm17v rd ra rb) s = .next (s.setReg rd (BigReg.ofWords (wordsOfLimbs
      (bmMul (s.reg ra).i32 (s.reg rb).i32 s.modulus.i32 s.n0.toNat)))) := by
  rw [← bmvMul_eq_bmMul (length_i32 _) (length_i32 _) (length_i32 _) h]
  exact congrArg _ (commitLimbs_defined (decide_eq_true h) ..)

end

/-! ### The two constants of one modulus (43_paired_bm17.md R152) -/

/-- The first eight limbs of the wide modulus are its I32 limbs. -/
theorem take_limbs_nine (v : BigReg) : (BigReg.limbs v 9).take 8 = BigReg.i32 v := by
  simp [BigReg.i32, BigReg.limbs, BigReg.firstWords, ← List.map_take, List.take_take]

/-- With the other constant the preconditions of MUL.CIOS32 are those of MUL.BM17S and MUL.BM17V. -/
theorem Cios32Pre.bm17Pre {a b pw : List Nat} {n0 mu : Nat} (h : Cios32Pre a b pw n0)
    (hmu : IsPosInverse mu (val 32 (pw.take 8)) 32) : Bm17Pre a b (pw.take 8) mu := by
  obtain ⟨hab, ⟨cp, -⟩, hmod, hlt, -⟩ := h
  exact ⟨hab, cp, hmod, hlt, hmu⟩

/-- The classic and the paired algorithm compute the same limbs: both the canonical limbs of the
Montgomery product. -/
theorem ciosMul_eq_bmMul {a b pw : List Nat} {n0 mu : Nat} (ha : a.length = 8) (hb : b.length = 8)
    (hpw : pw.length = 9) (h : Cios32Pre a b pw n0)
    (hmu : IsPosInverse mu (val 32 (pw.take 8)) 32) :
    ciosMul a b pw n0 = bmMul a b (pw.take 8) mu := by
  obtain ⟨lc, cc, vc⟩ := ciosMul_spec ha hb hpw h
  obtain ⟨lb, cb, vb⟩ := bmMul_spec ha hb (by simp [hpw]) (h.bm17Pre hmu)
  exact eq_of_val_eq cc cb (lc.trans lb.symm) (vc.trans vb.symm)

end Sys2Proof.Machine

open Sys2Proof Sys2Proof.Machine

/-- Settles O52: every one of the three commands writes the canonical limbs of the Montgomery product
of R = 2^256, and these determine the nine words of RD. -/
theorem classicAndPairedAgree : Obligations.ClassicAndPairedAgree := by
  unfold Obligations.ClassicAndPairedAgree
  intro s rd ra rb n mu hpre hmu
  rw [← take_limbs_nine] at hmu
  have hlimbs := ciosMul_eq_bmMul (length_i32 _) (length_i32 _) (length_limbs _ 9) hpre hmu
  have hbm := hpre.bm17Pre hmu
  rw [take_limbs_nine] at hlimbs hbm
  have hwords := congrArg (BigReg.ofWords ∘ wordsOfLimbs) hlimbs.symm
  refine ⟨_, _, _, exec_mulCios32_of_pre hpre, exec_mulBm17s_of_pre hbm, exec_mulBm17v_of_pre hbm,
    ?_, ?_⟩
  all_goals
    rw [reg_setReg_same, reg_setReg_same]
    exact hwords
end

section
/-! What every command keeps, writes and reads (10_state.md R22 to R31, R40, R43, R44). Each lemma is
about a shared operation (writing a result, comparing, subtracting); a command is one use of it. -/

namespace Sys2Proof.Machine

/-! ### What a command keeps (10_state.md R23 to R25) -/

/-- No big register but the destination, where there is one, differs; nor does MOD, N0 or the host's
side. STATUS is left open. -/
def DestinationFrame (dest? : Option Reg) (s t : State) : Prop :=
  (∀ r, dest? ≠ some r → t.reg r = s.reg r) ∧ RestKept s t

theorem OtherRegsKept.destinationFrame {rd : Reg} {s t : State} (h : OtherRegsKept rd s t)
    (hrest : RestKept s t) : DestinationFrame (some rd) s t :=
  ⟨fun r hr => h r fun e => hr (congrArg some e.symm), hrest⟩

theorem commitLimbs_destinationFrame (op : BitVec 8) (inputs : List Word) (len : Nat) (d : Bool)
    (result : List Nat) (rd : Reg) (s : State) :
    DestinationFrame (some rd) s (commitLimbs op inputs len d result rd s) := by
  obtain ⟨hregs, -, hrest⟩ := commitLimbs_onlyReg op inputs len d result rd s
  exact hregs.destinationFrame hrest

/-- A result that fits its format changes RD alone and leaves the words past the format 0. -/
theorem commitLimbs_writes {op : BitVec 8} {inputs : List Word} {len : Nat} {d : Bool}
    {result : List Nat} (hlen : result.length ≤ len) {rd : Reg} {s : State} :
    OnlyRegChanged rd s (commitLimbs op inputs len d result rd s) ∧
      ZeroFilled len rd (commitLimbs op inputs len d result rd s) :=
  ⟨commitLimbs_onlyReg op inputs len d result rd s, commitLimbs_zeroFilled op inputs d hlen rd s⟩

theorem subtract_destinationFrame (op : BitVec 8) (W L : Nat) (rd ra rb : Reg) (s : State) :
    DestinationFrame (some rd) s (subtract op W L rd ra rb s) := by
  obtain ⟨hregs, hrest, -⟩ := subtract_only op W L rd ra rb s
  exact hregs.destinationFrame hrest

theorem compareEq_destinationFrame (op : BitVec 8) (W L : Nat) (ra rb : Reg) (s : State) :
    DestinationFrame none s (compareEq op W L ra rb s) := by
  obtain ⟨hregs, hrest, -⟩ := compareEq_only op W L ra rb s
  exact ⟨fun r _ => hregs r, hrest⟩

theorem compareGt_destinationFrame (op : BitVec 8) (W L : Nat) (ra rb : Reg) (s : State) :
    DestinationFrame none s (compareGt op W L ra rb s) := by
  obtain ⟨hregs, hrest, -⟩ := compareGt_only op W L ra rb s
  exact ⟨fun r _ => hregs r, hrest⟩

/-- Every command completes and keeps everything but its destination and STATUS. -/
theorem exec_destinationFrame (i : Instr) (s : State) :
    ∃ t, exec i s = .next t ∧ DestinationFrame i.dest? s t := by
  cases i with
  | zero rd =>
    exact ⟨_, rfl, (setReg_otherRegsKept rd _ s).destinationFrame ⟨rfl, rfl, rfl, rfl⟩⟩
  | cmpEq32 | cmpEq30 | cmpEq29 => exact ⟨_, rfl, compareEq_destinationFrame ..⟩
  | cmpGt32 | cmpGt30 | cmpGt29 => exact ⟨_, rfl, compareGt_destinationFrame ..⟩
  | sub32 | sub30 | sub29 => exact ⟨_, rfl, subtract_destinationFrame ..⟩
  | mulCios32 | mulBm17s | mulBm17v | mulF51 | mulDc30 | mulDc29 | resolveF51 | reduceF51 =>
    exact ⟨_, rfl, commitLimbs_destinationFrame ..⟩

/-- Through the port, all that can read differently is STATUS and the words of the destination. -/
theorem DestinationFrame.portRead_eq {dest? : Option Reg} {s t : State}
    (h : DestinationFrame dest? s t) {a : Addr} (hstatus : a ≠ statusAddr)
    (hdest : ∀ rd k, dest? = some rd → a ≠ xAddr rd k) : portRead t a = portRead s a := by
  obtain ⟨hregs, hrest⟩ := h
  unfold portRead
  cases hloc : portLoc a with
  | x r k =>
    have ha : xAddr r k = a := by simpa [hloc, PortLoc.addr?] using addr_portLoc a (by simp [hloc])
    simp only [hregs r fun hr => hdest r k hr ha.symm]
  | modulus k => simp only [hrest.modulus]
  | n0 => exact hrest.n0
  | status =>
    exact absurd (addr_eq_of_portLoc_eq (by simp) (hloc.trans portLoc_statusAddr.symm)) hstatus
  | cmd | reserved => rfl

/-! ### What a written result depends on (10_state.md R22, R29, R31, R43) -/

theorem reg_freeResult (op : BitVec 8) (inputs : List Word) (len : Nat) (rd : Reg) (s : State) :
    (freeResult op inputs len rd s).reg rd
      = BigReg.ofWords ((List.range len).map (Config.freeWord s.draws op inputs)) :=
  reg_setReg_same s rd _

theorem commitLimbs_undefined (op : BitVec 8) (inputs : List Word) (len : Nat) (result : List Nat)
    (rd : Reg) (s : State) :
    commitLimbs op inputs len false result rd s = freeResult op inputs len rd s := rfl

/-- The words written to RD depend on the words read, the decision, the result and the counter of draws
alone: neither on which register is RD nor on the rest of the state. -/
theorem reg_commitLimbs_congr {op : BitVec 8} {inputs inputs' : List Word} {len : Nat} {d d' : Bool}
    {result result' : List Nat} {rd rd' : Reg} {s s' : State} (hdraws : s'.draws = s.draws)
    (hin : inputs' = inputs) (hd : d' = d) (hresult : result' = result) :
    (commitLimbs op inputs' len d' result' rd' s').reg rd'
      = (commitLimbs op inputs len d result rd s).reg rd := by
  subst hin hd hresult
  cases d' with
  | true => simp only [commitLimbs_defined rfl, reg_setReg_same]
  | false =>
    rw [commitLimbs_undefined, commitLimbs_undefined, reg_freeResult, reg_freeResult, hdraws]

theorem commitLimbs_destination_irrelevant (op : BitVec 8) (inputs : List Word) (len : Nat) (d : Bool)
    (result : List Nat) (rd rd' : Reg) (s : State) :
    (commitLimbs op inputs len d result rd s).reg rd
        = (commitLimbs op inputs len d result rd' s).reg rd' ∧
      (commitLimbs op inputs len d result rd s).status
        = (commitLimbs op inputs len d result rd' s).status := by
  obtain ⟨-, hstatus, -⟩ := commitLimbs_onlyReg op inputs len d result rd s
  obtain ⟨-, hstatus', -⟩ := commitLimbs_onlyReg op inputs len d result rd' s
  exact ⟨reg_commitLimbs_congr rfl rfl rfl rfl, hstatus.trans hstatus'.symm⟩

section
variable {s s' : State} {ra rb : Reg} {L : Nat}

theorem limbs_congr {u v : BigReg} (h : u.firstWords L = v.firstWords L) : u.limbs L = v.limbs L :=
  congrArg (List.map BitVec.toNat) h

theorem sourceWords_congr (ha : (s'.reg ra).firstWords L = (s.reg ra).firstWords L)
    (hb : (s'.reg rb).firstWords L = (s.reg rb).firstWords L) :
    sourceWords s' ra rb L = sourceWords s ra rb L := congrArg₂ (· ++ ·) ha hb

theorem mulWords_congr {LM : Nat} (ha : (s'.reg ra).firstWords L = (s.reg ra).firstWords L)
    (hb : (s'.reg rb).firstWords L = (s.reg rb).firstWords L)
    (hm : s'.modulus.firstWords LM = s.modulus.firstWords LM) (hn : s'.n0 = s.n0) :
    mulWords s' ra rb L LM = mulWords s ra rb L LM := by
  simp only [mulWords, sourceWords_congr ha hb, hm, hn]

/-- Whether a compare or a subtraction is defined depends on the words read. -/
theorem pairDefined_congr {W : Nat} (ha : (s'.reg ra).firstWords L = (s.reg ra).firstWords L)
    (hb : (s'.reg rb).firstWords L = (s.reg rb).firstWords L) :
    PairDefined W L ra rb s' ↔ PairDefined W L ra rb s := by
  rw [PairDefined, limbs_congr ha, limbs_congr hb]

end

section
variable {s s' : State} {ra rb : Reg} {L : Nat} (op : BitVec 8) (W : Nat)
  (hdraws : s'.draws = s.draws) (ha : (s'.reg ra).firstWords L = (s.reg ra).firstWords L)
  (hb : (s'.reg rb).firstWords L = (s.reg rb).firstWords L)
include hdraws ha hb

theorem eq_compareEq_congr :
    (compareEq op W L ra rb s').status.eq = (compareEq op W L ra rb s).status.eq := by
  unfold compareEq
  simp only [pairDefined_congr ha hb, limbs_congr ha, limbs_congr hb, sourceWords_congr ha hb, hdraws]
  split <;> rfl

theorem gt_compareGt_congr :
    (compareGt op W L ra rb s').status.gt = (compareGt op W L ra rb s).status.gt := by
  unfold compareGt
  simp only [pairDefined_congr ha hb, limbs_congr ha, limbs_congr hb, sourceWords_congr ha hb, hdraws]
  split <;> rfl

theorem subtract_congr (rd rd' : Reg) :
    (subtract op W L rd' ra rb s').status.borrow = (subtract op W L rd ra rb s).status.borrow ∧
      (subtract op W L rd' ra rb s').reg rd' = (subtract op W L rd ra rb s).reg rd := by
  unfold subtract
  simp only [pairDefined_congr ha hb, limbs_congr ha, limbs_congr hb, sourceWords_congr ha hb, hdraws]
  split
  · simp only [setBorrow_status, setBorrow_reg, reg_setReg_same, and_self]
  · simp only [setBorrow_status, setBorrow_reg, reg_freeResult, hdraws, and_self]

end

theorem subtract_destination_irrelevant (op : BitVec 8) (W L : Nat) (rd rd' ra rb : Reg) (s : State) :
    (subtract op W L rd ra rb s).reg rd = (subtract op W L rd' ra rb s).reg rd' ∧
      (subtract op W L rd ra rb s).status = (subtract op W L rd' ra rb s).status := by
  obtain ⟨hborrow, hreg⟩ :=
    subtract_congr (s := s) (s' := s) (ra := ra) (rb := rb) (L := L) op W rfl rfl rfl rd' rd
  obtain ⟨-, -, b, hb⟩ := subtract_only op W L rd ra rb s
  obtain ⟨-, -, b', hb'⟩ := subtract_only op W L rd' ra rb s
  rw [hb, hb'] at hborrow ⊢
  exact ⟨hreg, by rw [show b = b' from hborrow]⟩

/-! ### One canonical register named twice (corner cases of 41_fwi_primitives.md R121, R124, R127) -/

section
variable {W L : Nat} {ra : Reg} {s : State} (h : Canonical W ((s.reg ra).limbs L)) (op : BitVec 8)
include h

theorem compareEq_self : compareEq op W L ra ra s = s.setEq true := by
  rw [compareEq_defined ⟨h, h⟩, (eqLimbs_iff rfl).mpr rfl]

theorem compareGt_self : compareGt op W L ra ra s = s.setGt false := by
  rw [compareGt_defined ⟨h, h⟩, gtLimbs_self]

theorem subtract_self (rd : Reg) :
    subtract op W L rd ra ra s = (s.setReg rd BigReg.zero).setBorrow false := by
  rw [subtract_defined ⟨h, h⟩, subLimbs_self, ofWords_wordsOfLimbs_zeros]

end

end Sys2Proof.Machine

open Sys2Proof Sys2Proof.Machine

/-- Settles O19: each of the commands writes a result of at most its format's limbs to RD. -/
theorem multipliersWriteDestinationOnly : Obligations.MultipliersWriteDestinationOnly := by
  unfold Obligations.MultipliersWriteDestinationOnly
  intro s rd ra rb
  simp only [List.forall_mem_cons, List.not_mem_nil, false_imp_iff, implies_true, and_true]
  refine ⟨⟨_, rfl, ⟨setReg_otherRegsKept rd _ s, rfl, ⟨rfl, rfl, rfl, rfl⟩⟩, fun k _ => ?_⟩,
    ⟨_, rfl, commitLimbs_writes (length_ciosMul ..)⟩,
    ⟨_, rfl, commitLimbs_writes (length_bmMul _ _ (length_i32 _) (length_i32 _)).le⟩,
    ⟨_, rfl, commitLimbs_writes (length_bmvMul _ _ (length_i32 _) (length_i32 _)).le⟩,
    ⟨_, rfl, commitLimbs_writes (length_f51Mul ..)⟩,
    ⟨_, rfl, commitLimbs_writes (length_dcMul _ _ _ (length_i9 _) (length_i9 _)).le⟩,
    ⟨_, rfl, commitLimbs_writes (length_dcMul _ _ _ (length_i9 _) (length_i9 _)).le⟩,
    ⟨_, rfl, commitLimbs_writes (length_resolve _ (length_u51 _)).le⟩,
    ⟨_, rfl, commitLimbs_writes (length_reduce _ _ (length_f51Words _) (length_f51Words _)).le⟩⟩
  rw [reg_setReg_same, word_zero]

/-- Settles O20: the frame of every command, read through the port. -/
theorem commandsChangeOnlyDestinationAndStatus :
    Obligations.CommandsChangeOnlyDestinationAndStatus := by
  unfold Obligations.CommandsChangeOnlyDestinationAndStatus
  intro i s
  obtain ⟨t, ht, hframe⟩ := exec_destinationFrame i s
  exact ⟨t, ht, fun a hstatus hdest => hframe.portRead_eq hstatus hdest⟩

/-- Settles O21: a subtraction and a written result are the same whichever register receives them. -/
theorem resultDoesNotDependOnDestination : Obligations.ResultDoesNotDependOnDestination := by
  unfold Obligations.ResultDoesNotDependOnDestination
  intro s rd rd' ra rb
  simp only [List.forall_mem_cons, List.not_mem_nil, false_imp_iff, implies_true, and_true]
  refine ⟨⟨?sub32, ?sub30, ?sub29, ?cios32, ?bm17s, ?bm17v, ?f51, ?dc30, ?dc29⟩, ?resolve, ?reduce⟩
  case sub32 | sub30 | sub29 => exact ⟨_, _, rfl, rfl, subtract_destination_irrelevant ..⟩
  all_goals exact ⟨_, _, rfl, rfl, commitLimbs_destination_irrelevant ..⟩

/-- Settles O22: the flag and the words written are functions of the words read and of the counter of
draws, so states that agree on these give the same. -/
theorem commandsReadNothingElse : Obligations.CommandsReadNothingElse := by
  unfold Obligations.CommandsReadNothingElse
  intro s s' rd ra rb hdraws
  simp only [List.forall_mem_cons, List.not_mem_nil, false_imp_iff, implies_true, and_true]
  refine ⟨⟨?eq32, ?eq30, ?eq29, ?gt32, ?gt30, ?gt29, ?sub32, ?sub30, ?sub29⟩,
    ⟨?cios32, ?bm17s, ?bm17v, ?f51, ?dc30, ?dc29⟩, fun ha => ⟨?resolve, fun hm => ?reduce⟩⟩
  case eq32 | eq30 | eq29 =>
    exact fun ha hb => ⟨_, _, rfl, rfl, eq_compareEq_congr _ _ hdraws ha hb, fun _ hd => nomatch hd⟩
  case gt32 | gt30 | gt29 =>
    exact fun ha hb => ⟨_, _, rfl, rfl, gt_compareGt_congr _ _ hdraws ha hb, fun _ hd => nomatch hd⟩
  case sub32 | sub30 | sub29 =>
    intro ha hb
    obtain ⟨hborrow, hreg⟩ := subtract_congr _ _ hdraws ha hb rd rd
    refine ⟨_, _, rfl, rfl, hborrow, fun d hd => ?_⟩
    obtain rfl : rd = d := Option.some.inj hd
    exact hreg
  case resolve =>
    exact ⟨_, _, rfl, rfl, reg_commitLimbs_congr hdraws ha
      (decide_eq_decide.mpr (by simp only [BigReg.u51, limbs_congr ha]))
      (by simp only [BigReg.u51, limbs_congr ha])⟩
  case reduce =>
    exact ⟨_, _, rfl, rfl, reg_commitLimbs_congr hdraws (congrArg₂ (· ++ ·) ha hm)
      (decide_eq_decide.mpr (by simp only [BigReg.f51Words, ha, hm]))
      (by simp only [BigReg.f51Words, ha, hm])⟩
  all_goals
    intro ha hb hm hn
    refine ⟨_, _, rfl, rfl, reg_commitLimbs_congr hdraws (mulWords_congr ha hb hm hn)
      (decide_eq_decide.mpr ?_) ?_⟩
    all_goals
      simp only [BigReg.i32, BigReg.i9, BigReg.f51Words, BigReg.limbs, ha, hb, hm, hn]

/-- Settles O27: equal limb sequences compare equal and not greater, and their difference is zero
without a borrow. -/
theorem sameRegisterTwice : Obligations.SameRegisterTwice := by
  unfold Obligations.SameRegisterTwice
  intro s rd ra
  simp only [List.forall_mem_cons, List.not_mem_nil, false_imp_iff, implies_true, and_true]
  have zeroed (k : Fin 9) : (((s.setReg rd BigReg.zero).setBorrow false).reg rd).get k = 0 := by
    rw [setBorrow_reg, reg_setReg_same]
    exact word_zero k
  refine ⟨⟨?eq32, ?eq30, ?eq29⟩, ⟨?gt32, ?gt30, ?gt29⟩, ?sub32, ?sub30, ?sub29⟩
  case eq32 | eq30 | eq29 => exact fun h => congrArg _ (compareEq_self h _)
  case gt32 | gt30 | gt29 => exact fun h => congrArg _ (compareGt_self h _)
  all_goals
    exact fun h => ⟨_, congrArg Host.Outcome.next (subtract_self h _ rd), zeroed, rfl,
      setReg_otherRegsKept rd _ s, ⟨rfl, rfl, rfl, rfl⟩⟩

/-- Settles O1: the reset state holds the cleared STATUS. -/
theorem resetStatusIsZero : Obligations.ResetStatusIsZero := by
  unfold Obligations.ResetStatusIsZero
  exact ⟨rfl, rfl, rfl, rfl, by decide⟩

/-- Settles O57: ERR is clear and no operation is pending. -/
theorem resetHasALegalHost : Obligations.ResetHasALegalHost := by
  unfold Obligations.ResetHasALegalHost
  exact ⟨rfl, fun op h => absurd h List.not_mem_nil⟩
end

section
/-! The register port and the bus wrapper (20_memory.md R50 to R59): what a port store keeps and where
it has no effect, and what the wrapper makes of an access. An obligation is one use of these through
`step_op`. -/

namespace Sys2Proof.Machine

section
variable (s : State) {a : Addr} (v : Word)

/-! ### Port writes (20_memory.md R52, R55) -/

/-- A write anywhere but to CMD is a store. -/
theorem regWrite_of_ne_cmd (h : portLoc a ≠ .cmd) : regWrite a v s = .next (portStore a v s) := by
  unfold regWrite
  split
  · exact absurd ‹portLoc a = .cmd› h
  · rfl

@[simp] theorem portStore_status : (portStore a v s).status = s.status := by
  unfold portStore; split <;> rfl

@[simp] theorem portStore_pending : (portStore a v s).pending = s.pending := by
  unfold portStore; split <;> rfl

@[simp] theorem portStore_replies : (portStore a v s).replies = s.replies := by
  unfold portStore; split <;> rfl

theorem portStore_ignored (h : portLoc a = .status ∨ portLoc a = .reserved) :
    portStore a v s = s := by
  unfold portStore
  obtain h | h := h <;> rw [h]

/-- The write of an ignored location leaves the state as it is. -/
theorem regWrite_ignored (h : portLoc a = .status ∨ portLoc a = .reserved) :
    regWrite a v s = .next s := by
  have hcmd : portLoc a ≠ .cmd := by obtain h | h := h <;> simp [h]
  rw [regWrite_of_ne_cmd s v hcmd, portStore_ignored s v h]

/-! ### Port reads (20_memory.md R52, R55) -/

@[simp] theorem portRead_xAddr (r : Reg) (k : Fin Config.nWord) :
    portRead s (xAddr r k) = (s.reg r).word k := by
  unfold portRead
  rw [portLoc_xAddr]

@[simp] theorem portRead_modAddr (k : Fin Config.nWord) :
    portRead s (modAddr k) = s.modulus.word k := by
  unfold portRead
  rw [portLoc_modAddr]

@[simp] theorem portRead_n0Addr : portRead s n0Addr = s.n0 := by
  unfold portRead
  rw [portLoc_n0Addr]

/-- A read of a location that holds no word. -/
theorem portRead_zero (h : portLoc a = .cmd ∨ portLoc a = .reserved) : portRead s a = 0 := by
  unfold portRead
  obtain h | h := h <;> rw [h]

end

/-! ### The two kinds of addresses (20_memory.md R51) -/

/-- The words of X0 to X3, the words of MOD and N0 are storage: neither CMD nor STATUS nor reserved. -/
theorem portLoc_readWrite {a : Addr}
    (h : (∃ r k, a = xAddr r k) ∨ (∃ k, a = modAddr k) ∨ a = n0Addr) :
    portLoc a ≠ .cmd ∧ portLoc a ≠ .status ∧ portLoc a ≠ .reserved := by
  obtain ⟨r, k, rfl⟩ | ⟨k, rfl⟩ | rfl := h <;> simp

/-- The reserved ranges: above STATUS, and words 9 to 15 of each register's sixteen. -/
theorem portLoc_reserved {a : Addr} (h : 0x53 ≤ a.toNat ∨ (a.toNat < 0x50 ∧ 9 ≤ a.toNat % 16)) :
    portLoc a = .reserved := by
  unfold portLoc
  obtain habove | ⟨-, hpast⟩ := h
  · have hreg : ¬ a.toNat / 16 < Config.nReg := by change ¬ _ < 4; omega
    split
    · rw [if_neg, if_neg, if_neg, if_neg] <;> omega
    · rfl
  · exact dif_neg hpast.not_gt

/-! ### The bus wrapper (20_memory.md R58, R59) -/

section
variable (s : State) {a : BusAddr}

theorem busWordAddr_aligned (ha : a.toNat % 8 = 0) :
    busWordAddr a 8 = some (BitVec.ofNat 7 (a.toNat / 8)) := if_pos ⟨rfl, ha⟩

theorem busWordAddr_other {n : Nat} (h : n ≠ 8 ∨ a.toNat % 8 ≠ 0) : busWordAddr a n = none :=
  if_neg fun ⟨hn, ha⟩ => h.elim (· hn) (· ha)

theorem busWrite_aligned (ha : a.toNat % 8 = 0) {l : List Byte} (hl : l.length = 8) :
    busWrite a l s = regWrite (BitVec.ofNat 7 (a.toNat / 8)) (wordOfBytes l) s := by
  rw [busWrite, hl, busWordAddr_aligned ha]

theorem busRead_aligned (ha : a.toNat % 8 = 0) :
    busRead a 8 s
      = s.reply (.bytes (bytesOfWord (portRead s (BitVec.ofNat 7 (a.toNat / 8))))) := by
  rw [busRead, busWordAddr_aligned ha]

theorem busWrite_refused {l : List Byte} (h : l.length ≠ 8 ∨ a.toNat % 8 ≠ 0) :
    busWrite a l s = .next (s.reply .busError) := by
  rw [busWrite, busWordAddr_other h]

theorem busRead_refused {n : Nat} (h : n ≠ 8 ∨ a.toNat % 8 ≠ 0) :
    busRead a n s = s.reply .busError := by
  rw [busRead, busWordAddr_other h]

/-- Eight bytes make the word that has their value. -/
theorem wordOfBytes_eq {l : List Byte} {w : Word} (hl : l.length = 8)
    (hw : w.toNat = val 8 (l.map BitVec.toNat)) : wordOfBytes l = w :=
  BitVec.eq_of_toNat_eq ((wordOfBytes_toNat hl.le).trans hw.symm)

theorem length_bytesOfWord (w : Word) : (bytesOfWord w).length = 8 := by simp [bytesOfWord]

end

/-! ### The STATUS word (20_memory.md R54) -/

theorem toNat_statusWord (t : Status) :
    t.word.toNat = t.borrow.toNat + 2 * t.eq.toNat + 4 * t.gt.toNat + 8 * t.err.toNat := by
  have hb := t.borrow.toNat_le
  have he := t.eq.toNat_le
  have hg := t.gt.toNat_le
  have hr := t.err.toNat_le
  exact Nat.mod_eq_of_lt (by omega)

end Sys2Proof.Machine

open Sys2Proof Sys2Proof.Machine

/-- Settles O12: such a write is a port store, and a read after a store gives the word stored or what
was there before. -/
theorem writtenWordIsReadBack : Obligations.WrittenWordIsReadBack := by
  unfold Obligations.WrittenWordIsReadBack
  intro s a v rest ha hp
  obtain ⟨hcmd, hstatus, hreserved⟩ := portLoc_readWrite ha
  have hread := fun a' => portRead_portStore { s with pending := rest } a a' v hcmd hstatus hreserved
  refine ⟨_, (step_op hp).trans (regWrite_of_ne_cmd _ v hcmd), ?_, fun a' hne => ?_,
    portStore_status _ v, portStore_replies _ v, portStore_pending _ v⟩
  · rw [hread, if_pos rfl]
  · rw [hread, if_neg hne]
    rfl

/-- Settles O15: the wrapper passes an aligned access of eight bytes to the port, and eight bytes and a
word are converted by value. -/
theorem alignedBusAccessIsLittleEndian : Obligations.AlignedBusAccessIsLittleEndian := by
  unfold Obligations.AlignedBusAccessIsLittleEndian
  intro s a rest ha
  refine ⟨fun l w hl hw => ?_, bytesOfWord (portRead s (BitVec.ofNat 7 (a.toNat / 8))),
    length_bytesOfWord _, val_bytesOfWord _, ?_⟩
  · rw [step_op rfl, step_op rfl, ← wordOfBytes_eq hl hw]
    exact busWrite_aligned _ ha hl
  · rw [step_op rfl]
    exact congrArg Host.Outcome.next (busRead_aligned _ ha)

/-- Settles O3: the write goes to CMD, and a legal word runs its command. -/
theorem stepRunsTheDecodedCommand : Obligations.StepRunsTheDecodedCommand := by
  unfold Obligations.StepRunsTheDecodedCommand
  intro s c i rest hp hc
  rw [step_op hp]
  exact runCommand_legal hc _

/-- Settles O11: a read adds the word read to the replies, and no location depends on these. -/
theorem readsHaveNoSideEffect : Obligations.ReadsHaveNoSideEffect := by
  unfold Obligations.ReadsHaveNoSideEffect
  refine ⟨fun s => toNat_statusWord s.status, fun s a rest hp => ?_⟩
  exact ⟨_, step_op hp, rfl, fun _ => rfl, rfl, rfl, rfl, rfl, rfl,
    portRead_congr (fun _ => rfl) rfl rfl rfl⟩

/-- Settles O13: the address of a cell names that cell. -/
theorem portReadsTheCells : Obligations.PortReadsTheCells := by
  unfold Obligations.PortReadsTheCells
  intro s
  exact ⟨portRead_xAddr s, portRead_modAddr s, portRead_n0Addr s⟩

/-- Settles O14: the addresses name STATUS, CMD or nothing, where a store has no effect and a read gives
0. -/
theorem ignoredWritesAndZeroReads : Obligations.IgnoredWritesAndZeroReads := by
  unfold Obligations.IgnoredWritesAndZeroReads
  intro s a
  refine ⟨fun ha v rest hp => ?_, fun ha => ?_⟩
  · have hloc : portLoc a = .status ∨ portLoc a = .reserved :=
      ha.imp (fun h => (congrArg portLoc h).trans portLoc_statusAddr) portLoc_reserved
    exact (step_op hp).trans (regWrite_ignored _ v hloc)
  · have hloc : portLoc a = .cmd ∨ portLoc a = .reserved :=
      ha.imp (fun h => (congrArg portLoc h).trans portLoc_cmdAddr) portLoc_reserved
    refine ⟨portRead_zero s hloc, fun rest hp => (step_op hp).trans ?_⟩
    change Host.Outcome.next (regRead a { s with pending := rest }) = _
    rw [regRead, portRead_zero _ hloc]
    rfl

/-- Settles O16: the wrapper finds no word address and answers a bus error. -/
theorem otherBusAccessIsRefused : Obligations.OtherBusAccessIsRefused := by
  unfold Obligations.OtherBusAccessIsRefused
  intro s a rest
  exact ⟨fun l h hp => (step_op hp).trans (busWrite_refused _ h),
    fun n h hp => (step_op hp).trans (congrArg Host.Outcome.next (busRead_refused _ h))⟩
end

section
/-! The encoding as a whole (30_encoding.md R70 to R79): the decoder and the encoder are inverse to each
other, the legal words are the words with legal fields, a row of the table selects exactly the legal
words of its opcode, and the value of a word is the sum of its shifted fields. -/

namespace Sys2Proof

/-! ### Decoder and encoder (30_encoding.md R74, R79) -/

@[simp] theorem ofWord_encode (i : Instr) : Fields.ofWord (encode i) = i.fields :=
  ofWord_toWord i.fields

/-- The word of a command decodes to it. -/
@[simp] theorem decode_encode (i : Instr) : decode (encode i) = .ok i := by
  rw [decode, ofWord_encode, decodeFields_fields]

/-- Only the word of a command decodes to it. -/
theorem eq_encode_of_decode {w : Word} {i : Instr} (h : decode w = .ok i) : w = encode i := by
  rw [encode, ← fields_of_decodeFields h, toWord_ofWord]

theorem decode_eq_ok {w : Word} {i : Instr} : decode w = .ok i ↔ w = encode i :=
  ⟨eq_encode_of_decode, fun h => h ▸ decode_encode i⟩

/-- The words of the commands are the words with legal fields (30_encoding.md R74). -/
theorem exists_decode_iff {w : Word} :
    (∃ i, decode w = .ok i) ↔ (Fields.ofWord w).wellFormed = true := by
  refine ⟨fun ⟨i, h⟩ => ?_, decodeFields_of_wellFormed⟩
  rw [eq_encode_of_decode h, ofWord_encode]
  exact wellFormed_fields i

/-! ### The row that selects a word (30_encoding.md R72, R73) -/

/-- A row of the table selects a word exactly when the word is legal and the row is that of its
opcode. -/
theorem mem_opcodeTable_and_selects_iff {row : Word × Format} {w : Word} :
    (row ∈ opcodeTable ∧ w &&& row.2.mask = row.1) ↔
      (Fields.ofWord w).wellFormed = true ∧ row.1 = (Fields.ofWord w).opc.setWidth 64 ∧
        formatOf? (Fields.ofWord w).opc = some row.2 := by
  have hselects (o : BitVec 8) := and_mask_eq_iff (Fields.ofWord w) row.2 o
  rw [toWord_ofWord] at hselects
  rw [mem_opcodeTable, wellFormed_iff]
  constructor
  · rintro ⟨⟨o, hmatch, hfmt⟩, hw⟩
    rw [hmatch] at hw
    obtain ⟨rfl, hz, hunused⟩ := (hselects o).mp hw
    exact ⟨⟨hz, _, hfmt, hunused⟩, hmatch, hfmt⟩
  · rintro ⟨⟨hz, fmt, hfmt', hunused⟩, hmatch, hfmt⟩
    obtain rfl : fmt = row.2 := Option.some.inj (hfmt'.symm.trans hfmt)
    exact ⟨⟨_, hmatch, hfmt⟩, hmatch ▸ (hselects _).mpr ⟨rfl, hz, hunused⟩⟩

/-- Some row of the table selects a word exactly when its fields are legal. -/
theorem exists_row_selects_iff {w : Word} :
    (∃ row ∈ opcodeTable, w &&& row.2.mask = row.1) ↔ (Fields.ofWord w).wellFormed = true := by
  simp only [mem_opcodeTable_and_selects_iff]
  refine ⟨fun ⟨_, hlegal, _⟩ => hlegal, fun hlegal => ?_⟩
  obtain ⟨-, fmt, hfmt, -⟩ := wellFormed_iff.mp hlegal
  exact ⟨(_, fmt), hlegal, rfl, hfmt⟩

/-- Rows do not overlap: the opcode of a word determines the row that selects it. -/
theorem row_unique {row row' : Word × Format} {w : Word} (hrow : row ∈ opcodeTable)
    (hrow' : row' ∈ opcodeTable) (h : w &&& row.2.mask = row.1)
    (h' : w &&& row'.2.mask = row'.1) : row = row' := by
  obtain ⟨-, hmatch, hfmt⟩ := mem_opcodeTable_and_selects_iff.mp ⟨hrow, h⟩
  obtain ⟨-, hmatch', hfmt'⟩ := mem_opcodeTable_and_selects_iff.mp ⟨hrow', h'⟩
  exact Prod.ext (hmatch.trans hmatch'.symm) (Option.some.inj (hfmt.symm.trans hfmt'))

/-! ### The value of a word (30_encoding.md R70, R79) -/

/-- Bit vectors side by side have the sum of their shifted values. -/
theorem toNat_append_eq_add {m n : Nat} (x : BitVec m) (y : BitVec n) :
    (x ++ y).toNat = x.toNat <<< n + y.toNat := by
  rw [BitVec.toNat_append, Nat.shiftLeft_add_eq_or_of_lt y.isLt]

theorem toNat_toWord (f : Fields) : f.toWord.toNat = f.opc.toNat + f.rd.toNat <<< 8
    + f.ra.toNat <<< 10 + f.rb.toNat <<< 12 + f.z.toNat <<< 14 := by
  simp only [Fields.toWord, toNat_append_eq_add, Nat.shiftLeft_eq]
  omega

theorem z_fields (i : Instr) : i.fields.z = 0 := (wellFormed_iff.mp (wellFormed_fields i)).1

/-- The word of a command, as a number: its opcode and its shifted register fields (R79). -/
theorem toNat_encode (i : Instr) : (encode i).toNat = i.opcode.toNat + i.fields.rd.toNat <<< 8
    + i.fields.ra.toNat <<< 10 + i.fields.rb.toNat <<< 12 := by
  rw [encode, toNat_toWord, opcode_fields, z_fields]
  rfl

@[simp] theorem toNat_fieldOfReg (r : Reg) : (fieldOfReg r).toNat = r.val := rfl

end Sys2Proof

open Sys2Proof

/-- Settles O7: the fields of a word and the fields of a command determine each other. -/
theorem decodeAndEncodeAgree : Obligations.DecodeAndEncodeAgree := by
  unfold Obligations.DecodeAndEncodeAgree
  exact fun _ _ => decode_eq_ok

/-- Settles O8: both the decoder and the table accept the words whose fields are legal, and the row is
that of the word's opcode. -/
theorem legalWordsAreTheTableRows : Obligations.LegalWordsAreTheTableRows := by
  unfold Obligations.LegalWordsAreTheTableRows
  exact fun _ => ⟨exists_decode_iff.trans exists_row_selects_iff.symm,
    fun _ hrow _ hrow' => row_unique hrow hrow'⟩

/-- Settles O9: the value of a command's word, with the opcode and the fields of each command. -/
theorem encodedWordsAreOpcodePlusFields : Obligations.EncodedWordsAreOpcodePlusFields := by
  unfold Obligations.EncodedWordsAreOpcodePlusFields
  intro d a b
  simp [toNat_encode, Instr.opcode, Instr.fields]

/-- Settles O10: fifteen closed facts, by running the decoder on each word. -/
theorem wordsOfTheSpecDecode : Obligations.WordsOfTheSpecDecode := by
  unfold Obligations.WordsOfTheSpecDecode
  decide
end

section
/-! The shared datapath units by value (40_datapath_units.md R102, R105 to R112). An obligation is one
use of the unit's law; what is added here is the subtractor without a borrow coming in and the 51-bit
quotient digit. -/

namespace Sys2Proof.Machine

/-- The subtractor by value: the difference modulo 2^(W·L), and a borrow exactly when the minuend is
smaller (R105). -/
theorem subLimbs_spec {W : Nat} {a b : List Nat} (hl : a.length = b.length)
    (ha : Canonical W a.dropLast) (hb : Canonical W b) :
    (val W (subLimbs W a b).1 : Int) = ((val W a : Int) - val W b) % (2 ^ (W * a.length) : Nat) ∧
      ((subLimbs W a b).2 = true ↔ val W a < val W b) := by
  obtain ⟨hval, hborrow⟩ := subLimbsFrom_spec W false hl ha hb
  simp only [Bool.toNat_false, Nat.cast_zero, sub_zero, sub_neg, Nat.cast_lt] at hval hborrow
  exact ⟨hval, hborrow⟩

/-- Modulo 2^51 the product of two numbers in 32-bit halves is the product of the low halves and the
low 19 bits of the cross products; the product of the high halves has the weight 2^64 and vanishes
(R112). -/
theorem halves_mul_modEq (tl th nl nh : Nat) :
    tl * nl + (tl * nh + th * nl) % 2 ^ 19 * 2 ^ 32
      ≡ (tl + 2 ^ 32 * th) * (nl + 2 ^ 32 * nh) [MOD 2 ^ 51] := by
  have hcross : (tl * nh + th * nl) % 2 ^ 19 * 2 ^ 32 ≡ (tl * nh + th * nl) * 2 ^ 32 [MOD 2 ^ 51] := by
    rw [show 2 ^ 51 = 2 ^ 19 * 2 ^ 32 from pow_add 2 19 32]
    exact (Nat.mod_modEq _ _).mul_right' _
  calc tl * nl + (tl * nh + th * nl) % 2 ^ 19 * 2 ^ 32
      ≡ tl * nl + (tl * nh + th * nl) * 2 ^ 32 [MOD 2 ^ 51] := hcross.add_left _
    _ ≡ tl * nl + (tl * nh + th * nl) * 2 ^ 32 + 2 ^ 51 * (2 ^ 13 * (th * nh)) [MOD 2 ^ 51] :=
        (Nat.add_mul_mod_self_left _ _ _).symm
    _ = (tl + 2 ^ 32 * th) * (nl + 2 ^ 32 * nh) := by ring

/-- The digit from 32-bit halves is the plain digit, also for an n0 of more than 51 bits (R112). -/
theorem qDigit51_eq_qDigit (t0 n0 : Nat) : qDigit51 t0 n0 = qDigit t0 n0 51 := by
  have hhalves := halves_mul_modEq (t0 % 2 ^ 51 % 2 ^ 32) (t0 % 2 ^ 51 / 2 ^ 32) (n0 % 2 ^ 32)
    (n0 / 2 ^ 32)
  rwa [Nat.mod_add_div, Nat.mod_add_div] at hhalves

end Sys2Proof.Machine

open Sys2Proof Sys2Proof.Machine

/-- Settles O29: the subtractor's law for a minuend that is canonical in its top limb too. -/
theorem subLimbsIsTheWrappedDifference : Obligations.SubLimbsIsTheWrappedDifference := by
  unfold Obligations.SubLimbsIsTheWrappedDifference
  intro W a b hl ha hb
  exact ⟨canonical_subLimbs W a b, length_subLimbs W hl, subLimbs_spec hl (canonical_dropLast ha) hb⟩

/-- Settles O30: the first differing limb from the top decides, and equal sequences have none. -/
theorem gtLimbsComparesValues : Obligations.GtLimbsComparesValues := by
  unfold Obligations.GtLimbsComparesValues
  exact ⟨fun W a b hl ha hb => gtLimbs_iff hl ha hb, gtLimbs_self⟩

/-- Settles O31: the pass starts with no carry, and the empty sequence has no limb to change. -/
theorem carryPassKeepsTheValue : Obligations.CarryPassKeepsTheValue := by
  unfold Obligations.CarryPassKeepsTheValue
  intro W S
  refine ⟨?_, length_carryPass W S, canonical_dropLast_carryPassFrom W 0 S⟩
  cases S with
  | nil => rfl
  | cons t S => exact val_carryPassFrom W 0 (List.cons_ne_nil t S)

/-- Settles O32: the comparator decides whether the one subtraction is made. -/
theorem condSubReducesOnce : Obligations.CondSubReducesOnce := by
  unfold Obligations.CondSubReducesOnce
  exact fun W c m hl hc hm hlt => condSub_spec hl hc hm hlt

/-- Settles O33: by the sign of D − E, which the comparator decides. -/
theorem combineIsTheModularDifference : Obligations.CombineIsTheModularDifference := by
  unfold Obligations.CombineIsTheModularDifference
  exact fun W d e m hd he cd ce cm hdm hem => combine_spec hd he cd ce cm hdm hem

/-- Settles O34: the digit is a residue modulo 2^W, congruent to t0·n0. -/
theorem quotientDigitCancelsTheLowLimb : Obligations.QuotientDigitCancelsTheLowLimb := by
  unfold Obligations.QuotientDigitCancelsTheLowLimb
  exact fun t0 n0 p0 W h => ⟨qDigit_lt t0 n0 W, qDigit_spec h⟩

/-- Settles O35: the congruence needs mu·p0 = 1 alone, not the bounds on the words. -/
theorem bm17DigitEqualizesTheLowWords : Obligations.Bm17DigitEqualizesTheLowWords := by
  unfold Obligations.Bm17DigitEqualizesTheLowWords
  intro mu b0 aj d0 e0 p0 _ _ _ _ _ hmu
  rw [Nat.add_comm (aj * b0), Nat.add_comm _ e0]
  exact qDigitBM_spec hmu

/-- Settles O36: the halves give the product modulo 2^51. -/
theorem splitDigitIsTheDigit : Obligations.SplitDigitIsTheDigit := by
  unfold Obligations.SplitDigitIsTheDigit
  exact fun t0 n0 _ => qDigit51_eq_qDigit t0 n0
end

section
/-! The primitives ZERO, CMPEQ, CMPGT and SUB (41_fwi_primitives.md R120 to R129): the comparator and the
subtractor by value on canonical operands, and the zero fill of SUB on any. Each lemma is for every
width and number of limbs; a command is one use of it. -/

namespace Sys2Proof.Machine

/-- SUB.w leaves 0 in the words of RD past its format, defined or not (10_state.md R44). -/
theorem subtract_zeroFilled (op : BitVec 8) (W L : Nat) (rd ra rb : Reg) (s : State) :
    ZeroFilled L rd (subtract op W L rd ra rb s) := by
  by_cases h : PairDefined W L ra rb s
  · intro k hk
    have hlen : (subLimbs W ((s.reg ra).limbs L) ((s.reg rb).limbs L)).1.length ≤ L := by simp
    rw [subtract_defined h, setBorrow_reg, reg_setReg_same]
    exact word_ofWords_of_le ((length_wordsOfLimbs _).trans_le (hlen.trans hk))
  · rw [subtract, if_neg h]
    exact freeResult_zeroFilled op (sourceWords s ra rb L) L rd s

section
variable {W L : Nat} {ra rb : Reg} {s : State} (ha : Canonical W ((s.reg ra).limbs L))
  (hb : Canonical W ((s.reg rb).limbs L)) (op : BitVec 8)
include ha hb

/-- CMPEQ.w on canonical operands (R121 to R123). -/
theorem compareEq_eq_setEq_decide : compareEq op W L ra rb s
    = s.setEq (decide (val W ((s.reg ra).limbs L) = val W ((s.reg rb).limbs L))) := by
  rw [compareEq_defined ⟨ha, hb⟩, eqLimbs_eq_decide ha hb (by simp)]

/-- CMPGT.w on canonical operands (R124 to R126). -/
theorem compareGt_eq_setGt_decide : compareGt op W L ra rb s
    = s.setGt (decide (val W ((s.reg ra).limbs L) > val W ((s.reg rb).limbs L))) := by
  rw [compareGt_defined ⟨ha, hb⟩, gtLimbs_eq_decide ha hb (by simp)]

/-- SUB.w on canonical operands leaves the limbs of the subtractor in RD. -/
theorem limbs_subtract (rd : Reg) (hW : W ≤ 64) (hL : L ≤ 9) :
    ((subtract op W L rd ra rb s).reg rd).limbs L
      = (subLimbs W ((s.reg ra).limbs L) ((s.reg rb).limbs L)).1 := by
  have hlen : (subLimbs W ((s.reg ra).limbs L) ((s.reg rb).limbs L)).1.length = L := by simp [hL]
  have hread := limbs_ofWords (hlen.trans_le hL) ((canonical_subLimbs W _ _).mono hW)
  rw [hlen] at hread
  rw [subtract_defined ⟨ha, hb⟩, setBorrow_reg, reg_setReg_same, hread]

/-- SUB.w on canonical operands by value: the wrapped difference and its borrow (R127 to R129). -/
theorem subtract_spec (rd : Reg) (hW : W ≤ 64) (hL : L ≤ 9) :
    Canonical W (((subtract op W L rd ra rb s).reg rd).limbs L) ∧
      (val W (((subtract op W L rd ra rb s).reg rd).limbs L) : Int)
        = ((val W ((s.reg ra).limbs L) : Int) - val W ((s.reg rb).limbs L)) % 2 ^ (W * L) ∧
      (subtract op W L rd ra rb s).status = { s.status with
        borrow := decide (val W ((s.reg ra).limbs L) < val W ((s.reg rb).limbs L)) } := by
  obtain ⟨hval, hborrow⟩ := subLimbs_spec (by simp) (canonical_dropLast ha) hb
  rw [limbs_subtract ha hb op rd hW hL]
  refine ⟨canonical_subLimbs W _ _, by simpa [hL] using hval, ?_⟩
  rw [subtract_defined ⟨ha, hb⟩, setBorrow_status, setReg_status,
    Bool.eq_iff_iff.mpr (hborrow.trans decide_eq_true_iff.symm)]

end

end Sys2Proof.Machine

open Sys2Proof Sys2Proof.Machine

/-- Settles O17: each compare sets its own flag, to the comparator's answer or to a free value. -/
theorem comparesWriteTheirFlagOnly : Obligations.ComparesWriteTheirFlagOnly := by
  unfold Obligations.ComparesWriteTheirFlagOnly
  intro s ra rb
  simp only [List.forall_mem_cons, List.not_mem_nil, false_imp_iff, implies_true, and_true]
  refine ⟨⟨?eq32, ?eq30, ?eq29⟩, ?gt32, ?gt30, ?gt29⟩
  case eq32 | eq30 | eq29 =>
    obtain ⟨hregs, hrest, b, hstatus⟩ := compareEq_only _ _ _ ra rb s
    exact ⟨_, b, rfl, hregs, hrest, hstatus⟩
  all_goals
    obtain ⟨hregs, hrest, b, hstatus⟩ := compareGt_only _ _ _ ra rb s
    exact ⟨_, b, rfl, hregs, hrest, hstatus⟩

/-- Settles O18: each subtraction writes RD and BORROW, and SUB.32 has a format of eight limbs. -/
theorem subtractionsWriteDestinationAndBorrowOnly :
    Obligations.SubtractionsWriteDestinationAndBorrowOnly := by
  unfold Obligations.SubtractionsWriteDestinationAndBorrowOnly
  intro s rd ra rb
  simp only [List.forall_mem_cons, List.not_mem_nil, false_imp_iff, implies_true, and_true]
  refine ⟨⟨?sub32, ?sub30, ?sub29⟩, _, rfl, subtract_zeroFilled _ _ 8 rd ra rb s⟩
  all_goals
    obtain ⟨hregs, hrest, b, hstatus⟩ := subtract_only _ _ _ rd ra rb s
    exact ⟨_, b, rfl, hregs, hrest, hstatus⟩

/-- Settles O25: canonical limb sequences of one length are equal exactly when their values are. -/
theorem compareEqualComparesValues : Obligations.CompareEqualComparesValues := by
  unfold Obligations.CompareEqualComparesValues
  intro s ra rb
  refine ⟨?_, ?_, ?_⟩
  all_goals exact fun ha hb => congrArg Host.Outcome.next (compareEq_eq_setEq_decide ha hb _)

/-- Settles O26: on canonical limb sequences the comparator decides the order of the values. -/
theorem compareGreaterComparesValues : Obligations.CompareGreaterComparesValues := by
  unfold Obligations.CompareGreaterComparesValues
  intro s ra rb
  refine ⟨?_, ?_, ?_⟩
  all_goals exact fun ha hb => congrArg Host.Outcome.next (compareGt_eq_setGt_decide ha hb _)

/-- Settles O28: the subtractor's law for the words written, and the frame of every subtraction. -/
theorem subtractionWrapsAndBorrows : Obligations.SubtractionWrapsAndBorrows := by
  unfold Obligations.SubtractionWrapsAndBorrows
  intro s rd ra rb
  refine ⟨fun ha hb => ?sub32, fun ha hb => ?sub30, fun ha hb => ?sub29⟩
  all_goals
    obtain ⟨hcan, hval, hstatus⟩ := subtract_spec ha hb _ rd (by decide) (by decide)
    obtain ⟨hregs, hrest, -⟩ := subtract_only _ _ _ rd ra rb s
  case sub32 =>
    exact ⟨_, rfl, hcan, hval, hstatus, subtract_zeroFilled _ _ 8 rd ra rb s, hregs, hrest⟩
  all_goals exact ⟨_, rfl, hcan, hval, hstatus, hregs, hrest⟩

/-- Settles O24: the register written holds nine zero words. -/
theorem zeroClearsTheRegister : Obligations.ZeroClearsTheRegister := by
  unfold Obligations.ZeroClearsTheRegister
  intro s rd
  refine ⟨s.setReg rd BigReg.zero, rfl, fun k => ?_,
    ⟨setReg_otherRegsKept rd _ s, rfl, ⟨rfl, rfl, rfl, rfl⟩⟩, rfl⟩
  rw [reg_setReg_same]
  exact word_zero k
end

section
/-! The classic multiplier of R = 2^256 (42_classic_cios.md R140): its candidate by value, and the state
its command leaves. -/

namespace Sys2Proof.Machine

/-- No limb weighs more than the value of its sequence. -/
theorem getD_mul_le_val (W : Nat) (l : List Nat) (k : Nat) : l.getD k 0 * 2 ^ (W * k) ≤ val W l := by
  induction l generalizing k with
  | nil => simp
  | cons a l ih =>
    cases k with
    | zero => simp
    | succ k =>
      calc (a :: l).getD (k + 1) 0 * 2 ^ (W * (k + 1))
          = 2 ^ W * (l.getD k 0 * 2 ^ (W * k)) := by
            rw [List.getD_cons_succ, Nat.mul_succ, pow_add]; ring
        _ ≤ 2 ^ W * val W l := Nat.mul_le_mul_left _ (ih k)
        _ ≤ val W (a :: l) := Nat.le_add_left _ _

end Sys2Proof.Machine

open Sys2Proof Sys2Proof.Machine

/-- Settles O43: the exact value is that of the outer loop; it is below 2p since a, b < p and
M < 2^256, and so below 2·2^256, where a ninth limb of 2 does not fit. -/
theorem classicCiosCandidateIsExact : Obligations.ClassicCiosCandidateIsExact := by
  unfold Obligations.ClassicCiosCandidateIsExact
  intro a b pw n0 ha hb hpw hpre
  obtain ⟨-, -, M, hM, hval⟩ := ciosCandidate_spec ha hb hpw hpre
  obtain ⟨-, -, ⟨hodd, -, hpR⟩, ⟨hA, hB⟩, -⟩ := hpre
  have hlt := (cios_candidate hodd hA hB hpR hM hval).1
  have hninth := getD_mul_le_val 32 (ciosCandidate a b (pw.take 8) n0) 8
  exact ⟨⟨M, hM, hval⟩, hlt, by omega⟩

/-- Settles O42: the limbs computed are those of the Montgomery product, they fit the eight words that
are written, and writing a result changes RD alone. -/
theorem classicCiosIsTheMontgomeryProduct : Obligations.ClassicCiosIsTheMontgomeryProduct := by
  unfold Obligations.ClassicCiosIsTheMontgomeryProduct
  intro s rd ra rb hpre
  obtain ⟨hlen, hcan, hval⟩ := ciosMul_spec (length_i32 _) (length_i32 _) (length_limbs _ 9) hpre
  have hread := limbs_commitLimbs (decide_eq_true hpre) 0x20 (mulWords s ra rb 8 9) (by decide) hlen
    (hcan.mono (by decide)) rd s
  obtain ⟨-, -, ⟨-, hp1, -⟩, -⟩ := hpre
  rw [take_limbs_nine] at hval hp1
  obtain ⟨honly, hzero⟩ := commitLimbs_writes hlen.le
  refine ⟨_, rfl, ?_, ?_, ?_, hzero, honly⟩
  all_goals rw [BigReg.i32, hread]
  · exact hcan
  · exact hval
  · exact hval.trans_lt (montMul_lt (by omega) _ _ _)
end

section
/-! The paired multipliers of R = 2^256 (43_paired_bm17.md R150 to R154): the state MUL.BM17S leaves, the
bounds of its accumulators, and its equality with MUL.BM17V. -/

open Sys2Proof Sys2Proof.Machine

/-- Settles O44: the combined limbs are those of the Montgomery product, they fit the eight words that
are written, and writing a result changes RD alone. -/
theorem pairedScalarIsTheMontgomeryProduct : Obligations.PairedScalarIsTheMontgomeryProduct := by
  unfold Obligations.PairedScalarIsTheMontgomeryProduct
  intro s rd ra rb hpre
  obtain ⟨hlen, hcan, hval⟩ := bmMul_spec (length_i32 _) (length_i32 _) (length_i32 _) hpre
  have hread := limbs_commitLimbs (decide_eq_true hpre) 0x21 (mulWords s ra rb 8 8) (by decide) hlen
    (hcan.mono (by decide)) rd s
  obtain ⟨-, -, ⟨-, hp1, -⟩, -⟩ := hpre
  refine ⟨_, rfl, ?_⟩
  rw [BigReg.i32, hread]
  exact ⟨hcan, hval, hval.trans_lt (montMul_lt (by omega) _ _ _),
    commitLimbs_zeroFilled _ _ _ hlen.le rd s, commitLimbs_onlyReg ..⟩

/-- Settles O45: the invariant of the outer iterations bounds D by b, which is below p, and E by p. -/
theorem pairedAccumulatorsStayBelowModulus : Obligations.PairedAccumulatorsStayBelowModulus := by
  unfold Obligations.PairedAccumulatorsStayBelowModulus
  intro a b p mu ha hb hp hpre
  obtain ⟨inv, hdiff⟩ := bmAccumulate_spec ha hb hp hpre
  obtain ⟨-, -, -, ⟨-, hB⟩, -⟩ := hpre
  exact ⟨inv.canonicalD, inv.canonicalE, inv.boundD.trans_lt hB, inv.boundE, hdiff⟩

/-- Settles O46: the lanes hold the two accumulators in every iteration, so both commands write the same
limbs. -/
theorem pairedVectorEqualsScalar : Obligations.PairedVectorEqualsScalar := by
  unfold Obligations.PairedVectorEqualsScalar
  exact fun _ _ _ _ hpre => ⟨_, exec_mulBm17v_of_pre hpre, exec_mulBm17s_of_pre hpre⟩
end

section
/-! Binary64 (44_float_cios.md R166, R168): sign and magnitude fix a word, rounding is to nearest even,
and what the two operations do on numbers of integer value, stated without the units of 2^-1074 and
2^-2148. -/

namespace Sys2Proof.Machine

/-! ### A pattern and its value (44_float_cios.md R166, 10_state.md R34) -/

/-- The value of a number fixes its exponent field: the leading bit of its magnitude. -/
theorem f64Exp_eq_log2 (w : Word) : f64Exp w = Nat.log2 (f64Mag w) - 51 := by
  have hf : f64Frac w < 2 ^ 52 := Nat.mod_lt _ (by decide)
  unfold f64Mag
  by_cases he : f64Exp w = 0
  · rw [if_pos he, he]
    rcases Nat.eq_zero_or_pos (f64Frac w) with h0 | h0
    · rw [h0]; rfl
    · have := (Nat.log2_lt h0.ne').mpr hf
      omega
  · have hlow : 2 ^ (51 + f64Exp w) ≤ (2 ^ 52 + f64Frac w) * 2 ^ (f64Exp w - 1) := by
      rw [show 51 + f64Exp w = 52 + (f64Exp w - 1) by omega, Nat.pow_add]
      exact Nat.mul_le_mul_right _ (Nat.le_add_right _ _)
    have hhigh : (2 ^ 52 + f64Frac w) * 2 ^ (f64Exp w - 1) < 2 ^ (52 + f64Exp w) := by
      rw [show 52 + f64Exp w = 53 + (f64Exp w - 1) by omega, Nat.pow_add]
      exact Nat.mul_lt_mul_of_pos_right (by omega) (by positivity)
    have hlog := Nat.log2_eq_iff (n := (2 ^ 52 + f64Frac w) * 2 ^ (f64Exp w - 1))
      (k := 51 + f64Exp w) (by positivity)
    rw [if_neg he, hlog.mpr ⟨hlow, by rwa [show 51 + f64Exp w + 1 = 52 + f64Exp w by omega]⟩]
    omega

/-- A word is its sign bit, exponent field and fraction field. -/
theorem toNat_eq_fields (w : Word) :
    w.toNat = (if f64Sign w then 2 ^ 63 else 0) + (f64Exp w * 2 ^ 52 + f64Frac w) := by
  have hw := w.isLt
  have hsign : w.toNat / 2 ^ 63 = 0 ∨ w.toNat / 2 ^ 63 = 1 := by omega
  unfold f64Sign f64Exp f64Frac
  rcases hsign with h | h
  · rw [h, if_neg (by decide)]
    omega
  · rw [h, if_pos (by decide)]
    omega

/-- Words of one sign and one magnitude are one word. -/
theorem eq_of_f64Mag_eq {v w : Word} (hs : f64Sign v = f64Sign w) (hm : f64Mag v = f64Mag w) :
    v = w := by
  have he : f64Exp v = f64Exp w := by rw [f64Exp_eq_log2, f64Exp_eq_log2, hm]
  have hf : f64Frac v = f64Frac w := by
    unfold f64Mag at hm
    rw [he] at hm
    split at hm
    · exact hm
    · exact Nat.add_left_cancel (Nat.eq_of_mul_eq_mul_right (by positivity) hm)
  exact BitVec.eq_of_toNat_eq (by rw [toNat_eq_fields v, toNat_eq_fields w, hs, he, hf])

theorem f51Valid_iff {w : Word} : f51Valid w = true ↔
    f64Sign w = false ∧ f64Finite w = true ∧ f64Mag w = f64Int w * 2 ^ 1074 ∧
      f64Int w < 2 ^ 53 := by
  have hdvd : f64Mag w % 2 ^ 1074 = 0 ↔ f64Mag w = f64Int w * 2 ^ 1074 := by
    rw [← Nat.dvd_iff_mod_eq_zero, Nat.dvd_iff_div_mul_eq, f64Int, eq_comm]
  simp only [f51Valid, Bool.and_eq_true, Bool.not_eq_true', beq_iff_eq, decide_eq_true_eq, hdvd,
    and_assoc]
  rfl

/-- The pattern of an integer below 2^53 is read back as that integer. -/
@[simp] theorem f64Int_f64OfNat {n : Nat} (h : n < 2 ^ 53) : f64Int (f64OfNat n) = n := by
  rw [f64Int, (f64OfNat_spec h).2.2, Nat.mul_div_cancel _ (by positivity)]

/-- A valid F51 word is the pattern of its integer. -/
theorem f64OfNat_f64Int {w : Word} (h : f51Valid w = true) : f64OfNat (f64Int w) = w := by
  obtain ⟨hs, -, hm, hlt⟩ := f51Valid_iff.mp h
  obtain ⟨-, hs', hm'⟩ := f64OfNat_spec hlt
  exact eq_of_f64Mag_eq (hs'.trans hs.symm) (hm'.trans hm.symm)

/-! ### Rounding (44_float_cios.md R168) -/

/-- The rounded quotient is within half a unit of the exact one, in both directions, and even where
it is exactly half a unit away. -/
theorem rneShift_spec (n k : Nat) :
    2 * n ≤ 2 * (rneShift n k * 2 ^ k) + 2 ^ k ∧ 2 * (rneShift n k * 2 ^ k) ≤ 2 * n + 2 ^ k ∧
      (2 * n = 2 * (rneShift n k * 2 ^ k) + 2 ^ k ∨ 2 * (rneShift n k * 2 ^ k) = 2 * n + 2 ^ k →
        rneShift n k % 2 = 0) := by
  have hn := Nat.div_add_mod' n (2 ^ k)
  have hr := Nat.mod_lt n (by positivity : 0 < 2 ^ k)
  unfold rneShift
  simp only
  generalize n / 2 ^ k = q at *
  generalize n % 2 ^ k = r at *
  split
  · rw [Nat.add_one_mul q]
    generalize q * 2 ^ k = m at *
    omega
  · generalize q * 2 ^ k = m at *
    omega

/-! ### Numbers of integer value (44_float_cios.md R166, R168) -/

theorem two_pow_2148 : (2 ^ 2148 : Nat) = 2 ^ 1074 * 2 ^ 1074 := by rw [← pow_add]

/-- The magnitude `n` with a sign, in the form of an operation's exact value. -/
def signedInt (neg : Bool) (n : Nat) : Int := if neg then -(n : Int) else n

theorem signedInt_mul (neg : Bool) (n m : Nat) : signedInt neg (n * m) = signedInt neg n * m := by
  cases neg <;> simp [signedInt]

theorem signedInt_natAbs (v : Int) : signedInt (decide (v < 0)) v.natAbs = v := by
  unfold signedInt
  rcases lt_or_ge v 0 with h | h
  · rw [decide_eq_true h, if_pos rfl, Int.ofNat_natAbs_of_nonpos h.le, Int.neg_neg]
  · rw [decide_eq_false h.not_gt, if_neg Bool.false_ne_true, Int.natAbs_of_nonneg h]

/-- `w` is a finite number of the integer value `v`. -/
structure HoldsInt (w : Word) (v : Int) : Prop where
  finite : f64Finite w = true
  units : f64Units w = v * (2 ^ 1074 : Nat)

/-- The pattern of c·2^t. -/
def f64OfScaled (c : Int) (t : Nat) : Word :=
  if c = 0 then 0
  else BitVec.ofNat 64 ((if decide (c < 0) then 2 ^ 63 else 0) + f64Bits c.natAbs t)

theorem holdsInt_f64OfNat {n : Nat} (h : n < 2 ^ 53) : HoldsInt (f64OfNat n) n :=
  ⟨(f64OfNat_spec h).1, f64Units_f64OfNat h⟩

theorem f64OfScaled_natCast (n : Nat) : f64OfScaled n 0 = f64OfNat n := by
  unfold f64OfScaled
  split
  case isTrue h => rw [Int.natCast_eq_zero.mp h]; rfl
  case isFalse h =>
    rw [f64OfNat_eq (Nat.pos_of_ne_zero (mod_cast h)),
      decide_eq_false (Int.natCast_nonneg n).not_gt, Int.natAbs_natCast]

theorem holdsInt_f64OfScaled {c : Int} {t : Nat} (h : c.natAbs < 2 ^ 53) (ht : t ≤ 900) :
    HoldsInt (f64OfScaled c t) (c * 2 ^ t) := by
  unfold f64OfScaled
  split
  case isTrue h0 =>
    rw [h0, Int.zero_mul]
    exact holdsInt_f64OfNat (n := 0) (by decide)
  case isFalse h0 =>
    obtain ⟨hfin, hsign, hmag⟩ := f64Bits_spec (s := decide (c < 0)) (Int.natAbs_pos.mpr h0) h ht
    rw [pow_add, ← Nat.mul_assoc] at hmag
    refine ⟨hfin, (f64Units_of_spec hsign hmag).trans ((signedInt_mul _ _ _).trans ?_)⟩
    rw [signedInt_mul, signedInt_natAbs, Int.natCast_pow]
    rfl

section
variable {x y z : Word} {a b c : Int} (hx : HoldsInt x a) (hy : HoldsInt y b)
include hx hy

/-- The exact value of a difference of integers, in units of 2^-2148. -/
theorem HoldsInt.fsub_units :
    (f64Units x - f64Units y) * (2 ^ 1074 : Nat) = (a - b) * (2 ^ 2148 : Nat) := by
  rw [hx.units, hy.units, two_pow_2148]
  generalize (2 ^ 1074 : Nat) = U
  push_cast
  ring

/-- A difference c·2^t of integers, c of at most 53 bits, is exact. -/
theorem HoldsInt.fsub_exact (hs : f64Sign x = false) {t : Nat} (h : c.natAbs < 2 ^ 53)
    (ht : t ≤ 900) (hv : a - b = c * 2 ^ t) : fsubBits x y = f64OfScaled c t := by
  unfold f64OfScaled
  split
  case isTrue h0 =>
    rw [h0, Int.zero_mul, sub_eq_zero] at hv
    exact fsubBits_self hx.finite hy.finite hs (by rw [hx.units, hy.units, hv])
  case isFalse h0 =>
    refine fsubBits_exact hx.finite hy.finite (Int.natAbs_pos.mpr h0) h ht ?_
    rw [hx.fsub_units hy, hv, ← signedInt, pow_add, ← Nat.mul_assoc, signedInt_mul, signedInt_mul,
      signedInt_natAbs, Int.natCast_pow]
    rfl

variable (hz : HoldsInt z c)
include hz

/-- The exact value of a fused multiply-add of integers, in units of 2^-2148. -/
theorem HoldsInt.fma_units :
    f64Units x * f64Units y + f64Units z * (2 ^ 1074 : Nat) = (a * b + c) * (2 ^ 2148 : Nat) := by
  rw [hx.units, hy.units, hz.units, two_pow_2148]
  generalize (2 ^ 1074 : Nat) = U
  push_cast
  ring

/-- A fused multiply-add of integers with a positive result below 2^53 is exact. -/
theorem HoldsInt.fma_exact {n : Nat} (h0 : 0 < n) (h : n < 2 ^ 53) (hv : a * b + c = n) :
    fmaBits x y z = f64OfNat n := by
  rw [f64OfNat_eq h0]
  refine fmaBits_exact hx.finite hy.finite hz.finite h0 h (by omega) ?_
  rw [hx.fma_units hy hz, hv, Nat.zero_add]
  exact (Int.natCast_mul _ _).symm

/-- The result of a fused multiply-add of integers with a positive value in a known binade
(R168). -/
theorem HoldsInt.fma_round {v u : Nat} (hv : a * b + c = v) (hlow : 2 ^ (52 + u) ≤ v)
    (hhigh : v < 2 ^ (53 + u)) (hlt : (1074 + u) * 2 ^ 52 + rneShift v u < 2047 * 2 ^ 52) :
    fmaBits x y z = BitVec.ofNat 64 ((1074 + u) * 2 ^ 52 + rneShift v u) := by
  have hu : u + 2148 - 1074 = 1074 + u := by omega
  rw [← hu, ← rneShift_scale v u 2148] at hlt ⊢
  refine fmaBits_round hx.finite hy.finite hz.finite ?_ ?_ ?_ (by omega) hlt
  · rw [hx.fma_units hy hz, hv]
    exact (Int.natCast_mul _ _).symm
  · rw [← Nat.add_assoc, pow_add]
    exact Nat.mul_le_mul_right _ hlow
  · rw [← Nat.add_assoc, pow_add _ (53 + u)]
    exact Nat.mul_lt_mul_of_pos_right hhigh (by positivity)

end

end Sys2Proof.Machine

open Sys2Proof Sys2Proof.Machine

/-- Settles O37: sign and magnitude fix a word, and a valid F51 word has those of its integer's
pattern. -/
theorem integerPatternsAreFaithful : Obligations.IntegerPatternsAreFaithful := by
  unfold Obligations.IntegerPatternsAreFaithful
  refine ⟨fun n hn => ?_, fun w hw => ?_⟩
  · obtain ⟨hfin, hs, hm⟩ := f64OfNat_spec hn
    have hint := f64Int_f64OfNat hn
    exact ⟨f51Valid_iff.mpr ⟨hs, hfin, hint.symm ▸ hm, hint.symm ▸ hn⟩, hint⟩
  · obtain ⟨-, -, -, hlt⟩ := f51Valid_iff.mp hw
    exact ⟨hlt, f64OfNat_f64Int hw⟩

/-- Settles O38: the quotient is rounded up exactly past a half, or at a half to an even number. -/
theorem roundingIsToNearestEven : Obligations.RoundingIsToNearestEven := by
  unfold Obligations.RoundingIsToNearestEven
  intro n k _
  obtain ⟨hlow, hhigh, htie⟩ := rneShift_spec n k
  have hcast : (rneShift n k : Int) * 2 ^ k = (rneShift n k * 2 ^ k : Nat) := by push_cast; rfl
  rw [hcast]
  generalize rneShift n k * 2 ^ k = m at *
  omega
end

section
/-! The conversion by bias and the bit extractor (44_float_cios.md R170 to R176): each step on one lane,
by the integers its operands hold; a vector step is that in both lanes. -/

namespace Sys2Proof.Machine

/-! ### The conversion by bias (44_float_cios.md R176) -/

/-- In the binade of 2^52 the unit in the last place is 1 (R166 (b)). -/
theorem f64OfNat_two_pow_52_add {m : Nat} (hm : m < 2 ^ 52) :
    f64OfNat (2 ^ 52 + m) = BitVec.ofNat 64 (1075 * 2 ^ 52 + m) := by
  have hlog : Nat.log2 (2 ^ 52 + m) = 52 := (Nat.log2_eq_iff (by omega)).mpr ⟨by omega, by omega⟩
  rw [f64OfNat, if_neg (by omega), hlog]
  exact congrArg (BitVec.ofNat 64) (by omega)

theorem i2f_ofNat {n : Nat} (hn : n < 2 ^ 52) :
    i2f (vSplat (BitVec.ofNat 64 n)) = vSplat (f64OfNat n) := by
  have hK4 : K4 = f64OfNat (2 ^ 52) := by decide +kernel
  have hsum : K4 + BitVec.ofNat 64 n = f64OfNat (2 ^ 52 + n) := by
    rw [f64OfNat_two_pow_52_add hn, BitVec.ofNat_add]
    rfl
  have hlane : fsubBits (K4 + BitVec.ofNat 64 n) K4 = f64OfNat n := by
    have hx := holdsInt_f64OfNat (show 2 ^ 52 + n < 2 ^ 53 by omega)
    obtain ⟨-, hsign, -⟩ := f64OfNat_spec (show 2 ^ 52 + n < 2 ^ 53 by omega)
    have hy := holdsInt_f64OfNat (show 2 ^ 52 < 2 ^ 53 by decide)
    rw [hsum, hK4, ← f64OfScaled_natCast n]
    exact hx.fsub_exact hy hsign (by omega) (by decide) (by push_cast; ring)
  exact congrArg vSplat hlane

/-! ### The bit extractor (44_float_cios.md R170 to R174) -/

/-- In the binade of 2^103 the unit in the last place is 2^51 (R166 (b)). -/
theorem holdsInt_binade_103 {m : Nat} (hm : m < 2 ^ 52) :
    HoldsInt (BitVec.ofNat 64 (0x4660000000000000 + m)) ((2 ^ 52 + m : Nat) * 2 ^ 51) := by
  obtain ⟨hfin, hmag⟩ := f64_normal (s := false) (e := 1126) (by omega) (by omega) hm
  obtain ⟨-, hsign, -, -⟩ := f64_fields (s := false) (e := 1126) (by omega) hm
  have hword : (if false then 2 ^ 63 else 0) + (1126 * 2 ^ 52 + m) = 0x4660000000000000 + m := by
    simp
  have hexp : 2 ^ (1126 - 1) = 2 ^ 51 * 2 ^ 1074 := by rw [← pow_add]
  rw [hexp, ← Nat.mul_assoc] at hmag
  rw [hword] at hfin hmag hsign
  refine ⟨hfin, (f64Units_of_spec hsign hmag).trans ((signedInt_mul false _ _).trans ?_)⟩
  rw [signedInt_mul]
  rfl

theorem f64Sign_binade_103 {m : Nat} (hm : m < 2 ^ 52) :
    f64Sign (BitVec.ofNat 64 (0x4660000000000000 + m)) = false := by
  obtain ⟨-, hsign, -, -⟩ := f64_fields (s := false) (e := 1126) (by omega) hm
  simpa using hsign

/-- Step 2: the complementary bias (3 − hr)·2^51 is exact (R171). -/
theorem holdsInt_fsubBits_K2 {hr : Nat} (hhr : hr ≤ 2 ^ 51) :
    HoldsInt (fsubBits K2 (BitVec.ofNat 64 (0x4660000000000000 + hr))) ((3 - hr) * 2 ^ 51) := by
  have hK2 : HoldsInt K2 ((2 ^ 52 + 3 : Nat) * 2 ^ 51) :=
    holdsInt_binade_103 (m := 3) (by decide)
  have hh1 := holdsInt_binade_103 (show hr < 2 ^ 52 by omega)
  rw [hK2.fsub_exact hh1 (c := 3 - hr) (t := 51) (by decide) (by omega) (by decide)
    (by push_cast; ring)]
  exact holdsInt_f64OfScaled (by omega) (by decide)

section
variable {a b : Nat} (ha : a < 2 ^ 51) (hb : b < 2 ^ 51)
include ha hb

theorem mul_lt_two_pow_102 : a * b < 2 ^ 102 :=
  (Nat.mul_lt_mul'' ha hb).trans_eq (pow_add 2 51 51).symm

/-- The rounded high part is at most 2^51 (R170). -/
theorem rneShift_mul_le : rneShift (a * b) 51 ≤ 2 ^ 51 := by
  have hP := mul_lt_two_pow_102 ha hb
  obtain ⟨-, hhigh, -⟩ := rneShift_spec (a * b) 51
  omega

/-- Step 1: the sum P + 2^103 lies in the binade of 2^103 and is rounded to a multiple of 2^51
(R170). -/
theorem fmaBits_K1 : fmaBits (f64OfNat a) (f64OfNat b) K1
    = BitVec.ofNat 64 (0x4660000000000000 + rneShift (a * b) 51) := by
  have hP := mul_lt_two_pow_102 ha hb
  have hhr := rneShift_mul_le ha hb
  have hx := holdsInt_f64OfNat (show a < 2 ^ 53 by omega)
  have hy := holdsInt_f64OfNat (show b < 2 ^ 53 by omega)
  have hK1 : HoldsInt K1 ((2 ^ 52 + 0 : Nat) * 2 ^ 51) :=
    holdsInt_binade_103 (m := 0) (by decide)
  have hround : rneShift (a * b + 2 ^ 103) 51 = rneShift (a * b) 51 + 2 * 2 ^ 51 := by
    rw [← rneShift_add_even, show 2 ^ 103 = 2 * 2 ^ 51 * 2 ^ 51 by norm_num]
  rw [hx.fma_round hy hK1 (v := a * b + 2 ^ 103) (u := 51) (by push_cast; ring) (by omega)
    (by omega) (by omega), hround]
  exact congrArg (BitVec.ofNat 64) (by omega)

/-- Step 3: the low part ls + 3·2^51, ls = P − hr·2^51, is exact and in the binade of 2^52
(R172). -/
theorem fmaBits_low {sub : Word} (hsub : HoldsInt sub ((3 - rneShift (a * b) 51) * 2 ^ 51)) :
    ∃ m : Nat, (m : Int) = a * b - rneShift (a * b) 51 * 2 ^ 51 + 2 ^ 51 ∧
      fmaBits (f64OfNat a) (f64OfNat b) sub = BitVec.ofNat 64 (1075 * 2 ^ 52 + m) := by
  obtain ⟨hlow, hhigh, -⟩ := rneShift_spec (a * b) 51
  have hx := holdsInt_f64OfNat (show a < 2 ^ 53 by omega)
  have hy := holdsInt_f64OfNat (show b < 2 ^ 53 by omega)
  have hm : a * b + 2 ^ 51 - rneShift (a * b) 51 * 2 ^ 51 < 2 ^ 52 := by omega
  refine ⟨a * b + 2 ^ 51 - rneShift (a * b) 51 * 2 ^ 51, by push_cast; omega, ?_⟩
  rw [← f64OfNat_two_pow_52_add hm]
  exact hx.fma_exact hy hsub (by omega) (by omega) (by push_cast; omega)

end

/-- The reinterpreted low part is the signed rest in two's complement (R173). -/
theorem ofNat_sub_K3 {m : Nat} {ls : Int} (hm : (m : Int) = ls + 2 ^ 51) :
    BitVec.ofNat 64 (1075 * 2 ^ 52 + m) - K3 = BitVec.ofInt 64 ls := by
  have hK3 : K3 = BitVec.ofInt 64 (1075 * 2 ^ 52 + 2 ^ 51) := by decide
  rw [hK3, ← BitVec.ofInt_natCast, BitVec.sub_eq_iff_eq_add, ← BitVec.ofInt_add]
  congr 1
  push_cast
  omega

theorem ushiftRight_eq_ofNat (w : Word) (k : Nat) : w >>> k = BitVec.ofNat 64 (w.toNat / 2 ^ k) :=
  (BitVec.toNat_eq_nat.mp (by rw [BitVec.toNat_ushiftRight, Nat.shiftRight_eq_div_pow])).2

theorem and_MASK51 (w : Word) : w &&& MASK51 = BitVec.ofNat 64 (w.toNat % 2 ^ 51) :=
  (BitVec.toNat_eq_nat.mp
    ((BitVec.toNat_and w MASK51).trans (Nat.and_two_pow_sub_one_eq_mod w.toNat 51))).2

/-- Step 5: the sign of the signed rest turns the rounded quotient into the floor and the rest into
the remainder (R174). -/
theorem floor_correction {P hr : Nat} {ls : Int} (hP : (P : Int) = hr * 2 ^ 51 + ls)
    (hlow : -2 ^ 51 ≤ ls) (hhigh : ls < 2 ^ 51) :
    BitVec.ofNat 64 hr - BitVec.ofInt 64 ls >>> 63 = BitVec.ofNat 64 (P / 2 ^ 51) ∧
      BitVec.ofInt 64 ls &&& MASK51 = BitVec.ofNat 64 (P % 2 ^ 51) := by
  rw [ushiftRight_eq_ofNat, and_MASK51, BitVec.toNat_ofInt]
  rcases lt_or_ge ls 0 with hneg | hpos
  · have hdiv : P / 2 ^ 51 = hr - 1 := by omega
    have hmod : (ls % (2 ^ 64 : Nat)).toNat % 2 ^ 51 = P % 2 ^ 51 := by omega
    have hsign : (ls % (2 ^ 64 : Nat)).toNat / 2 ^ 63 = 1 := by omega
    rw [hdiv, hmod, hsign, BitVec.ofNat_sub_ofNat_of_le _ _ (by decide) (by omega)]
    exact ⟨rfl, rfl⟩
  · have hdiv : P / 2 ^ 51 = hr := by omega
    have hmod : (ls % (2 ^ 64 : Nat)).toNat % 2 ^ 51 = P % 2 ^ 51 := by omega
    have hsign : (ls % (2 ^ 64 : Nat)).toNat / 2 ^ 63 = 0 := by omega
    rw [hdiv, hmod, hsign]
    exact ⟨BitVec.sub_zero _, rfl⟩

/-- The reinterpreted high part is the rounded quotient (R173). -/
theorem splitHr_binade_103 (hr : Nat) :
    splitHr (vSplat (BitVec.ofNat 64 (0x4660000000000000 + hr))) = vSplat (BitVec.ofNat 64 hr) := by
  refine congrArg vSplat ?_
  rw [BitVec.ofNat_add, BitVec.add_comm]
  exact BitVec.add_sub_cancel _ _

section
variable {a b : Nat} (ha : a < 2 ^ 51) (hb : b < 2 ^ 51)
include ha hb

theorem splitH1_f64OfNat : splitH1 (vSplat (f64OfNat a)) (vSplat (f64OfNat b))
    = vSplat (BitVec.ofNat 64 (0x4660000000000000 + rneShift (a * b) 51)) :=
  congrArg vSplat (fmaBits_K1 ha hb)

theorem splitLsw_f64OfNat :
    splitLsw (splitL1 (vSplat (f64OfNat a)) (vSplat (f64OfNat b))
        (splitSub (vSplat (BitVec.ofNat 64 (0x4660000000000000 + rneShift (a * b) 51)))))
      = vSplat (BitVec.ofInt 64 ((a * b : Int) - rneShift (a * b) 51 * 2 ^ 51)) := by
  obtain ⟨m, hm, hl1⟩ := fmaBits_low ha hb (holdsInt_fsubBits_K2 (rneShift_mul_le ha hb))
  have hlane := ofNat_sub_K3 hm
  rw [← hl1] at hlane
  exact congrArg vSplat hlane

theorem split51_f64OfNat : split51 (vSplat (f64OfNat a)) (vSplat (f64OfNat b))
    = (vSplat (BitVec.ofNat 64 (a * b / 2 ^ 51)), vSplat (BitVec.ofNat 64 (a * b % 2 ^ 51))) := by
  obtain ⟨hlow, hhigh, -⟩ := rneShift_spec (a * b) 51
  obtain ⟨hhi, hlo⟩ := floor_correction (P := a * b) (hr := rneShift (a * b) 51)
    (ls := (a * b : Int) - rneShift (a * b) 51 * 2 ^ 51) (by push_cast; ring) (by omega) (by omega)
  simp only [split51, splitH1_f64OfNat ha hb, splitHr_binade_103, splitLsw_f64OfNat ha hb]
  exact Prod.ext (congrArg vSplat hhi) (congrArg vSplat hlo)

end

end Sys2Proof.Machine

open Sys2Proof Sys2Proof.Machine

/-- Settles O39: the biased word is the pattern of 2^52 + n, and the difference is exact. -/
theorem biasConversionIsExact : Obligations.BiasConversionIsExact := by
  unfold Obligations.BiasConversionIsExact
  exact fun n hn => i2f_ofNat hn

/-- Settles O40: h1 is rounded in the binade of 2^103, where patterns count units of 2^51, and the
low part is exact in the binade of 2^52, where they count units of 1. -/
theorem extractorStepsSplitTheProduct : Obligations.ExtractorStepsSplitTheProduct := by
  unfold Obligations.ExtractorStepsSplitTheProduct
  intro a b ha hb A B h1 hr
  have hh1 : h1 = vSplat (BitVec.ofNat 64 (0x4660000000000000 + hr)) := splitH1_f64OfNat ha hb
  rw [hh1]
  exact ⟨rfl, splitHr_binade_103 hr, splitLsw_f64OfNat ha hb⟩

/-- Settles O41: the floor correction of the rounded quotient and its signed rest. -/
theorem extractorGivesFloorAndRest : Obligations.ExtractorGivesFloorAndRest := by
  unfold Obligations.ExtractorGivesFloorAndRest
  exact fun a b ha hb => split51_f64OfNat ha hb
end

section
/-! MUL.F51 on any words (44_float_cios.md R181, R182): the lanes and the slots that stay zero. -/

namespace Sys2Proof.Machine

/-! ### Lanes (R182) -/

/-- Both lanes of every slot hold the same word. -/
def LanesAgree (T : List Vec2) : Prop := ∀ v ∈ T, v.lane0 = v.lane1

theorem lanesAgree_cons {v : Vec2} {T : List Vec2} :
    LanesAgree (v :: T) ↔ v.lane0 = v.lane1 ∧ LanesAgree T := List.forall_mem_cons

theorem lanesAgree_map_vSplat (l : List Word) : LanesAgree (l.map vSplat) := by
  intro v hv
  obtain ⟨w, -, rfl⟩ := List.mem_map.mp hv
  rfl

theorem split51_lanes {A B : Vec2} (hA : A.lane0 = A.lane1) (hB : B.lane0 = B.lane1) :
    (split51 A B).1.lane0 = (split51 A B).1.lane1 ∧
      (split51 A B).2.lane0 = (split51 A B).2.lane1 := by
  obtain ⟨x, _⟩ := A
  obtain ⟨y, _⟩ := B
  obtain rfl : x = _ := hA
  obtain rfl : y = _ := hB
  exact ⟨rfl, rfl⟩

theorem vAdd_lanes {u v : Vec2} (hu : u.lane0 = u.lane1) (hv : v.lane0 = v.lane1) :
    (vAdd u v).lane0 = (vAdd u v).lane1 := congrArg₂ (· + ·) hu hv

theorem f51Row_lanes {A : Vec2} {B T : List Vec2} (hA : A.lane0 = A.lane1) (hB : LanesAgree B)
    (hT : LanesAgree T) : LanesAgree (f51Row A B T) := by
  fun_induction f51Row A B T with
  | case1 B Bs T0 T1 Ts parts ih =>
    obtain ⟨hB0, hBs⟩ := lanesAgree_cons.mp hB
    obtain ⟨hT0, hT1⟩ := lanesAgree_cons.mp hT
    obtain ⟨hT1, hTs⟩ := lanesAgree_cons.mp hT1
    obtain ⟨hhi, hlo⟩ := split51_lanes hA hB0
    exact lanesAgree_cons.mpr ⟨vAdd_lanes hT0 hlo,
      ih hBs (lanesAgree_cons.mpr ⟨vAdd_lanes hT1 hhi, hTs⟩)⟩
  | case2 B T _ => exact hT

/-! ### Slots (R181) -/

@[simp] theorem length_f51Row (A : Vec2) (B T : List Vec2) : (f51Row A B T).length = T.length := by
  fun_induction f51Row A B T with
  | case1 B Bs T0 T1 Ts parts ih => simpa using ih
  | case2 B T _ => rfl

/-- A row touches one slot more than the operand has limbs (R181). -/
theorem drop_f51Row (A : Vec2) (B T : List Vec2) :
    (f51Row A B T).drop (B.length + 1) = T.drop (B.length + 1) := by
  fun_induction f51Row A B T with
  | case1 B Bs T0 T1 Ts parts ih => exact ih
  | case2 B T _ => rfl

/-- The accumulator between outer iterations: eleven slots, equal lanes, zero from slot 6 on. -/
structure F51Shape (T : List Vec2) : Prop where
  length : T.length = 11
  lanes : LanesAgree T
  high : ∀ v ∈ T.drop 6, v = vSplat 0

theorem F51Shape.row {A : Vec2} {B T : List Vec2} (h : F51Shape T) (hA : A.lane0 = A.lane1)
    (hB : LanesAgree B) (hlen : B.length = 5) : F51Shape (f51Row A B T) where
  length := (length_f51Row A B T).trans h.length
  lanes := f51Row_lanes hA hB h.lanes
  high := by
    have hdrop := drop_f51Row A B T
    rw [hlen] at hdrop
    exact hdrop ▸ h.high

theorem F51Shape.rotate {T : List Vec2} (h : F51Shape T) : F51Shape (f51Rotate T) := by
  obtain ⟨hlen, hlanes, hhigh⟩ := h
  match T with
  | [] | [_] => simp at hlen
  | T0 :: T1 :: Ts =>
    obtain ⟨hT0, hT1⟩ := lanesAgree_cons.mp hlanes
    obtain ⟨hT1, hTs⟩ := lanesAgree_cons.mp hT1
    simp only [List.length_cons] at hlen
    have hTs5 : (Ts ++ [vSplat 0]).drop 5 = Ts.drop 5 ++ [vSplat 0] :=
      List.drop_append_of_le_length (by omega)
    refine ⟨by simp [f51Rotate]; omega, ?_, ?_⟩
    · have hcarry : (vShr T0 51).lane0 = (vShr T0 51).lane1 := by rw [vShr, hT0]
      exact lanesAgree_cons.mpr ⟨vAdd_lanes hT1 hcarry,
        List.forall_mem_append.mpr ⟨hTs, lanesAgree_map_vSplat [0]⟩⟩
    · change ∀ v ∈ (Ts ++ [vSplat 0]).drop 5, v = vSplat 0
      rw [hTs5, List.forall_mem_append]
      exact ⟨fun v hv => hhigh v (List.drop_subset_drop_left Ts (by decide : 4 ≤ 5) hv), by simp⟩

/-- Eleven zero slots, the start of the command. -/
theorem f51Shape_zero : F51Shape (List.replicate Config.f51Slots (vSplat 0)) where
  length := rfl
  lanes := lanesAgree_map_vSplat (List.replicate 11 0)
  high := by decide

theorem F51Shape.step {a : Word} {b p : List Word} {n0 : Nat} {T : List Vec2} (h : F51Shape T)
    (hb : b.length = 5) (hp : p.length = 5) :
    F51Shape (f51Step (b.map vSplat) (p.map vSplat) n0 T (vSplat a)) := by
  have h1 := h.row (A := vSplat a) rfl (lanesAgree_map_vSplat b) (by simpa using hb)
  exact (h1.row (A := f51Digit n0 _) rfl (lanesAgree_map_vSplat p) (by simpa using hp)).rotate

theorem f51Accumulate_shape (a : List Word) {b p : List Word} (n0 : Nat) (hb : b.length = 5)
    (hp : p.length = 5) : F51Shape (f51Accumulate a b p n0) := by
  unfold f51Accumulate
  rw [List.foldl_map]
  exact List.foldlRecOn a _ f51Shape_zero fun _ h _ _ => h.step hb hp

end Sys2Proof.Machine

open Sys2Proof Sys2Proof.Machine

/-- Settles O48: the two rows and the rotation keep the eleven slots, their equal lanes and the zero
slots. -/
theorem floatCiosLanesAgree : Obligations.FloatCiosLanesAgree := by
  unfold Obligations.FloatCiosLanesAgree
  intro a b p n0 hb hp
  obtain ⟨hlen, hlanes, hhigh⟩ := f51Accumulate_shape a n0 hb hp
  exact ⟨hlen, hlanes, hhigh⟩
end

section
/-! MUL.F51 under its preconditions (44_float_cios.md R180, R183, R184): the accumulator as natural
numbers, the bounds of its slots, and its value after the outer iterations. -/

namespace Sys2Proof.Machine

/-! ### The accumulator as natural numbers (R180) -/

/-- A number as a slot: in both lanes. -/
def f51Slot (n : Nat) : Vec2 := vSplat (BitVec.ofNat 64 n)

/-- A number as an operand: its binary64 pattern in both lanes. -/
def f51Limb (n : Nat) : Vec2 := vSplat (f64OfNat n)

/-- A multiply-accumulate row on numbers: the remainder of product j goes to slot j, its quotient to
slot j + 1 (R180 steps (1), (2), (4)). -/
def f51RowNat (x : Nat) : List Nat → List Nat → List Nat
  | y :: ys, t0 :: t1 :: ts => (t0 + x * y % 2 ^ 51) :: f51RowNat x ys ((t1 + x * y / 2 ^ 51) :: ts)
  | _, t => t

/-- The rotation on numbers (R180 step (5)). -/
def f51RotateNat : List Nat → List Nat
  | t0 :: t1 :: ts => (t1 + t0 / 2 ^ 51) :: ts ++ [0]
  | t => t

theorem vAdd_f51Slot (m n : Nat) : vAdd (f51Slot m) (f51Slot n) = f51Slot (m + n) :=
  congrArg vSplat (BitVec.ofNat_add m n).symm

theorem split51_f51Limb {x y : Nat} (hx : x < 2 ^ 51) (hy : y < 2 ^ 51) :
    split51 (f51Limb x) (f51Limb y) = (f51Slot (x * y / 2 ^ 51), f51Slot (x * y % 2 ^ 51)) :=
  split51_f64OfNat hx hy

/-- On slots and operands that hold numbers the vector row is the row on numbers. -/
theorem f51Row_map {x : Nat} (hx : x < 2 ^ 51) {b : List Nat} (hb : Canonical 51 b) (t : List Nat) :
    f51Row (f51Limb x) (b.map f51Limb) (t.map f51Slot) = (f51RowNat x b t).map f51Slot := by
  induction b generalizing t with
  | nil => rfl
  | cons y ys ih =>
    obtain ⟨hy, hys⟩ := canonical_cons.mp hb
    match t with
    | [] | [_] => rfl
    | t0 :: t1 :: ts =>
      have hrest := ih hys ((t1 + x * y / 2 ^ 51) :: ts)
      simp only [List.map_cons, f51Row, f51RowNat, split51_f51Limb hx hy, vAdd_f51Slot] at hrest ⊢
      rw [hrest]

theorem toNat_f51Slot {n : Nat} (h : n < 2 ^ 64) : (vLo (f51Slot n)).toNat = n :=
  Nat.mod_eq_of_lt h

theorem f51Rotate_map {t : List Nat} (h : t.headD 0 < 2 ^ 64) :
    f51Rotate (t.map f51Slot) = (f51RotateNat t).map f51Slot := by
  match t with
  | [] | [_] => rfl
  | t0 :: t1 :: ts =>
    have hshr : vShr (f51Slot t0) 51 = f51Slot (t0 / 2 ^ 51) := by
      refine congrArg vSplat ?_
      rw [ushiftRight_eq_ofNat]
      exact congrArg (fun n => BitVec.ofNat 64 (n / 2 ^ 51)) (toNat_f51Slot h)
    simp only [List.map_cons, f51Rotate, f51RotateNat, hshr, vAdd_f51Slot, List.map_append]
    rfl

/-- A row adds x times the value of the operand. -/
theorem val_f51RowNat (x : Nat) {b t : List Nat} (h : b.length < t.length) :
    val 51 (f51RowNat x b t) = val 51 t + x * val 51 b := by
  induction b generalizing t with
  | nil => simp [f51RowNat]
  | cons y ys ih =>
    match t with
    | t0 :: t1 :: ts =>
      have hdiv := Nat.mod_add_div (x * y) (2 ^ 51)
      rw [f51RowNat, val_cons, ih (by simpa using h)]
      simp only [val_cons]
      linear_combination hdiv

/-- The rotation divides the value by 2^51 where slot 0 is a multiple of it. -/
theorem val_f51RotateNat {t : List Nat} (hlen : 2 ≤ t.length) (h0 : t.headD 0 % 2 ^ 51 = 0) :
    val 51 (f51RotateNat t) * 2 ^ 51 = val 51 t := by
  match t with
  | t0 :: t1 :: ts =>
    have hcarry : 2 ^ 51 * (t0 / 2 ^ 51) = t0 := Nat.mul_div_cancel' (Nat.dvd_of_mod_eq_zero h0)
    simp only [f51RotateNat, List.cons_append, val_cons, val_append, val_nil]
    linear_combination hcarry

/-! ### Bounds of the slots (R183) -/

/-- Slot by slot, `t` is at most `c`. -/
abbrev SlotsLe (t c : List Nat) : Prop := List.Forall₂ (· ≤ ·) t c

theorem SlotsLe.canonical {W : Nat} {t c : List Nat} (h : SlotsLe t c) (hc : Canonical W c) :
    Canonical W t := by
  induction h with
  | nil => exact canonical_nil W
  | cons hle _ ih =>
    obtain ⟨hc0, hcs⟩ := canonical_cons.mp hc
    exact canonical_cons.mpr ⟨hle.trans_lt hc0, ih hcs⟩

theorem SlotsLe.val_le {t c : List Nat} (h : SlotsLe t c) (W : Nat) : val W t ≤ val W c := by
  induction h with
  | nil => exact le_rfl
  | cons hle _ ih => exact Nat.add_le_add hle (Nat.mul_le_mul_left _ ih)

/-- A row of `n` products adds at most 2^51 to each of two adjacent slots, n times. -/
def f51RowBound : Nat → List Nat → List Nat
  | n + 1, c0 :: c1 :: cs => (c0 + 2 ^ 51) :: f51RowBound n ((c1 + 2 ^ 51) :: cs)
  | _, c => c

/-- The bounds between outer iterations: a slot that has still to move down receives four parts in
every iteration, two in its first; slot 0 has the carry besides. -/
def f51Bound : List Nat :=
  [18 * 2 ^ 51 + 20, 14 * 2 ^ 51, 10 * 2 ^ 51, 6 * 2 ^ 51, 2 * 2 ^ 51, 0, 0, 0, 0, 0, 0]

/-- The two rows of an outer iteration. -/
def f51SumBound : List Nat := f51RowBound 5 (f51RowBound 5 f51Bound)

theorem f51RowNat_le {x : Nat} (hx : x < 2 ^ 51) {b : List Nat} (hb : Canonical 51 b)
    {t c : List Nat} (h : SlotsLe t c) : SlotsLe (f51RowNat x b t) (f51RowBound b.length c) := by
  induction b generalizing t c with
  | nil => simpa [f51RowNat, f51RowBound] using h
  | cons y ys ih =>
    obtain ⟨hy, hys⟩ := canonical_cons.mp hb
    have hlo : x * y % 2 ^ 51 ≤ 2 ^ 51 := (Nat.mod_lt _ (by decide)).le
    have hhi : x * y / 2 ^ 51 ≤ 2 ^ 51 := Nat.div_le_of_le_mul (Nat.mul_le_mul hx.le hy.le)
    match h with
    | .nil => exact .nil
    | .cons h0 .nil => exact .cons h0 .nil
    | .cons h0 (.cons h1 hs) =>
      exact .cons (Nat.add_le_add h0 hlo) (ih hys (.cons (Nat.add_le_add h1 hhi) hs))

theorem f51RotateNat_le {t c : List Nat} (h : SlotsLe t c) :
    SlotsLe (f51RotateNat t) (f51RotateNat c) := by
  match h with
  | .nil => exact .nil
  | .cons h0 .nil => exact .cons h0 .nil
  | .cons h0 (.cons h1 hs) =>
    exact .cons (Nat.add_le_add h1 (Nat.div_le_div_right h0))
      (List.rel_append hs (.cons le_rfl .nil))

/-- One outer iteration leaves the bounds as they are. -/
theorem f51RotateNat_sumBound : f51RotateNat f51SumBound = f51Bound := by decide

/-! ### One outer iteration (R180) -/

/-- The slots before the rotation of an outer iteration. -/
def f51SumsNat (b p : List Nat) (n0 : Nat) (t : List Nat) (x : Nat) : List Nat :=
  let u := f51RowNat x b t
  f51RowNat (qDigit (u.headD 0) n0 51) p u

/-- One outer iteration on numbers. -/
def f51StepNat (b p : List Nat) (n0 : Nat) (t : List Nat) (x : Nat) : List Nat :=
  f51RotateNat (f51SumsNat b p n0 t x)

theorem length_f51RowNat (x : Nat) (b t : List Nat) : (f51RowNat x b t).length = t.length := by
  fun_induction f51RowNat x b t with
  | case1 y ys t0 t1 ts ih => simpa using ih
  | case2 b t _ => rfl

/-- The constant of a modulus cancels its low limb. -/
theorem IsNegInverse.low_limb {n0 W : Nat} {p : List Nat} (hp : p ≠ [])
    (h : IsNegInverse n0 (val W p) W) : (n0 * p.headD 0 + 1) % 2 ^ W = 0 := by
  match p with
  | p0 :: ps =>
    obtain ⟨-, hinv⟩ := h
    have hsplit : n0 * val W (p0 :: ps) + 1 = n0 * p0 + 1 + 2 ^ W * (n0 * val W ps) := by
      rw [val_cons]; ring
    rwa [hsplit, Nat.add_mul_mod_self_left] at hinv

/-- The row of the quotient digit makes slot 0 a multiple of 2^51 (R180 step (5)). -/
theorem headD_f51RowNat_digit {n0 : Nat} {p u : List Nat} (hp : p ≠ []) (hu : 2 ≤ u.length)
    (hn : (n0 * p.headD 0 + 1) % 2 ^ 51 = 0) :
    (f51RowNat (qDigit (u.headD 0) n0 51) p u).headD 0 % 2 ^ 51 = 0 := by
  match p, u with
  | p0 :: ps, u0 :: u1 :: us => exact (Nat.add_mod_mod _ _ _).trans (qDigit_spec hn)

theorem headD_lt {W : Nat} {t : List Nat} (h : Canonical W t) : t.headD 0 < 2 ^ W := by
  cases t with
  | nil => exact Nat.two_pow_pos W
  | cons t0 ts => exact (canonical_cons.mp h).1

/-- The digit of slots that hold numbers, as an operand (R112, R176). -/
theorem f51Digit_map {u : List Nat} (hu : Canonical 64 u) (n0 : Nat) :
    f51Digit n0 (u.map f51Slot) = f51Limb (qDigit (u.headD 0) n0 51) := by
  have hhead : (u.map f51Slot).headD (vSplat 0) = f51Slot (u.headD 0) := by cases u <;> rfl
  unfold f51Digit
  rw [hhead, toNat_f51Slot (headD_lt hu), qDigit51_eq_qDigit]
  exact i2f_ofNat ((qDigit_lt _ _ _).trans (by decide))

section
variable {b p : List Nat} {n0 : Nat} {t : List Nat}

/-- One outer iteration adds x·B and q·P to the value and divides it by 2^51. -/
theorem val_f51StepNat (hb : b.length < t.length) (hp : p.length < t.length) (hp0 : p ≠ [])
    (hn : IsNegInverse n0 (val 51 p) 51) (x : Nat) :
    ∃ q, q < 2 ^ 51 ∧
      val 51 (f51StepNat b p n0 t x) * 2 ^ 51 = val 51 t + x * val 51 b + q * val 51 p := by
  have hlen := length_f51RowNat x b t
  have hpos := List.length_pos_iff.mpr hp0
  refine ⟨qDigit ((f51RowNat x b t).headD 0) n0 51, qDigit_lt _ _ _, ?_⟩
  rw [← val_f51RowNat x hb, ← val_f51RowNat _ (hp.trans_eq hlen.symm)]
  refine val_f51RotateNat ?_ (headD_f51RowNat_digit hp0 (by omega) (hn.low_limb hp0))
  rw [f51SumsNat, length_f51RowNat, hlen]
  omega

variable (hb : Canonical 51 b) (hp : Canonical 51 p) (hlb : b.length = 5) (hlp : p.length = 5)
  (ht : SlotsLe t f51Bound) {x : Nat} (hx : x < 2 ^ 51)
include hb hp hlb hlp ht hx

theorem f51SumsNat_le : SlotsLe (f51SumsNat b p n0 t x) f51SumBound := by
  have hrow := f51RowNat_le hx hb ht
  have hsums := f51RowNat_le (qDigit_lt ((f51RowNat x b t).headD 0) n0 51) hp hrow
  rwa [hlb, hlp] at hsums

theorem f51StepNat_le : SlotsLe (f51StepNat b p n0 t x) f51Bound :=
  f51RotateNat_sumBound ▸ f51RotateNat_le (f51SumsNat_le hb hp hlb hlp ht hx)

/-- On slots and operands that hold numbers within the bounds the vector iteration is the iteration
on numbers. -/
theorem f51Step_map : f51Step (b.map f51Limb) (p.map f51Limb) n0 (t.map f51Slot) (f51Limb x)
    = (f51StepNat b p n0 t x).map f51Slot := by
  have hrow := (f51RowNat_le hx hb ht).canonical (W := 64) (by rw [hlb]; decide)
  have hsums := (f51SumsNat_le (n0 := n0) hb hp hlb hlp ht hx).canonical (W := 64) (by decide)
  unfold f51Step
  simp only [f51Row_map hx hb, f51Digit_map hrow, f51Row_map (qDigit_lt _ _ _) hp]
  exact f51Rotate_map (headD_lt hsums)

end

/-! ### The outer loop on the words of the registers (R183, R184) -/

/-- A valid F51 word of an integer below 2^51 (R180 P1). -/
abbrev F51NormalWord (w : Word) : Prop := f51Valid w = true ∧ f64Int w < 2 ^ 51

/-- The slots hold numbers within the bounds. -/
def F51Acc (T : List Vec2) : Prop := ∃ t, SlotsLe t f51Bound ∧ T = t.map f51Slot

/-- The numbers in lane 0 of the slots. -/
def f51Lane (T : List Vec2) : List Nat := T.map fun v => (vLo v).toNat

theorem f51Lane_map {t : List Nat} (h : Canonical 64 t) : f51Lane (t.map f51Slot) = t := by
  unfold f51Lane
  rw [List.map_map]
  exact (List.map_congr_left fun n hn => toNat_f51Slot (h n hn)).trans (List.map_id t)

theorem map_vSplat_of_valid {l : List Word} (h : F51Valid l) :
    l.map vSplat = (l.map f64Int).map f51Limb := by
  rw [List.map_map]
  refine List.map_congr_left fun w hw => ?_
  exact congrArg vSplat (f64OfNat_f64Int (List.all_eq_true.mp h w hw)).symm

theorem canonical_f51Bound : Canonical 56 f51Bound := by decide

theorem f51Acc_zero : F51Acc (List.replicate Config.f51Slots (vSplat 0)) :=
  ⟨List.replicate 11 0, by decide, rfl⟩

/-- One outer iteration on a valid word keeps the bounds, adds its integer times B and some multiple
of P, and divides by 2^51. -/
theorem F51Acc.step {b p : List Word} {n0 : Nat} (hb : F51Normal b) (hp : F51Normal p)
    (hlb : b.length = 5) (hlp : p.length = 5) (hn : IsNegInverse n0 (val 51 (p.map f64Int)) 51)
    {T : List Vec2} (hT : F51Acc T) {w : Word} (hw : F51NormalWord w) :
    F51Acc (f51Step (b.map vSplat) (p.map vSplat) n0 T (vSplat w)) ∧ ∃ q, q < 2 ^ 51 ∧
      val 51 (f51Lane (f51Step (b.map vSplat) (p.map vSplat) n0 T (vSplat w))) * 2 ^ 51
        = val 51 (f51Lane T) + f64Int w * val 51 (b.map f64Int) + q * val 51 (p.map f64Int) := by
  obtain ⟨hbv, cb⟩ := hb
  obtain ⟨hpv, cp⟩ := hp
  obtain ⟨hwv, hw⟩ := hw
  obtain ⟨t, ht, rfl⟩ := hT
  have hlb' : (b.map f64Int).length = 5 := by simpa using hlb
  have hlp' : (p.map f64Int).length = 5 := by simpa using hlp
  have hlt : t.length = 11 := ht.length_eq
  have hword : vSplat w = f51Limb (f64Int w) := congrArg vSplat (f64OfNat_f64Int hwv).symm
  have hstep := f51StepNat_le (n0 := n0) cb cp hlb' hlp' ht hw
  have hfits {u : List Nat} (hu : SlotsLe u f51Bound) : f51Lane (u.map f51Slot) = u :=
    f51Lane_map ((hu.canonical canonical_f51Bound).mono (by decide))
  rw [map_vSplat_of_valid hbv, map_vSplat_of_valid hpv, hword, f51Step_map cb cp hlb' hlp' ht hw,
    hfits hstep, hfits ht]
  exact ⟨⟨_, hstep, rfl⟩, val_f51StepNat (by omega) (by omega)
    (List.ne_nil_of_length_pos (by omega)) hn _⟩

/-- The retained slots of a bounded accumulator: five numbers below 2^56 with all of its value
(R183). -/
theorem F51Acc.retained {T : List Vec2} (hT : F51Acc T) :
    ((f51Lane T).take 5).length = 5 ∧ Canonical 56 ((f51Lane T).take 5) ∧
      val 51 ((f51Lane T).take 5) = val 51 (f51Lane T) := by
  obtain ⟨t, ht, rfl⟩ := hT
  have hcan := ht.canonical canonical_f51Bound
  have hlt : t.length = 11 := ht.length_eq
  rw [f51Lane_map (hcan.mono (by decide))]
  refine ⟨by simp [hlt], fun n hn => hcan n (List.mem_of_mem_take hn), ?_⟩
  have hdrop : val 51 (t.drop 5) ≤ val 51 (f51Bound.drop 5) :=
    SlotsLe.val_le (List.forall₂_drop 5 ht) 51
  have hzero : val 51 (f51Bound.drop 5) = 0 := by decide
  have hsplit := val_append 51 (t.take 5) (t.drop 5)
  rw [List.take_append_drop, Nat.le_zero.mp (hdrop.trans_eq hzero), Nat.mul_zero,
    Nat.add_zero] at hsplit
  exact hsplit.symm

/-- MUL.F51 leaves five numbers below 2^56 of the value (A·B + M·p) / 2^255 exactly, for some M below
2^255 (R183, R184). -/
theorem f51Mul_spec {a b p : List Word} {n0 : Nat} (hla : a.length = 5) (hlb : b.length = 5)
    (hlp : p.length = 5) (h : F51Pre a b p n0) :
    (f51Mul a b p n0).length = 5 ∧ Canonical 56 (f51Mul a b p n0) ∧ ∃ M, M < 2 ^ 255 ∧
      val 51 (f51Mul a b p n0) * 2 ^ 255
        = val 51 (a.map f64Int) * val 51 (b.map f64Int) + M * val 51 (p.map f64Int) := by
  obtain ⟨⟨⟨hav, ca⟩, hb, hp⟩, -, -, hn⟩ := h
  have hgood : ∀ w ∈ a, F51NormalWord w := fun w hw =>
    ⟨List.all_eq_true.mp hav w hw, ca _ (List.mem_map_of_mem hw)⟩
  obtain ⟨hacc, hM⟩ := foldl_cios (fun T w => f51Step (b.map vSplat) (p.map vSplat) n0 T (vSplat w))
    (fun T => val 51 (f51Lane T)) f64Int F51Acc F51NormalWord 51 (val 51 (b.map f64Int))
    (val 51 (p.map f64Int))
    (fun _ _ hT hw => hT.step hb hp hlb hlp hn hw) a hgood _ f51Acc_zero
  rw [← List.foldl_map] at hacc hM
  change F51Acc (f51Accumulate a b p n0) at hacc
  obtain ⟨hlen, hcan, hval⟩ := hacc.retained
  have hmul : f51Mul a b p n0 = (f51Lane (f51Accumulate a b p n0)).take 5 := List.map_take
  have hzero : val 51 (f51Lane (List.replicate Config.f51Slots (vSplat 0))) = 0 := by decide
  rw [hmul, hval]
  rw [hla, hzero, Nat.zero_add] at hM
  exact ⟨hlen, hcan, hM⟩

/-- The multiplier of an exact Montgomery quotient is C·N modulo R for N = −p⁻¹ mod R (R184). -/
theorem montgomery_multiplier_eq {U C M N p R : Nat} (hM : M < R) (h : U * R = C + M * p)
    (hN : (N * p + 1) % R = 0) : M = C * N % R := by
  have hCM : N * C + N * (M * p) ≡ 0 [MOD R] := by
    rw [← Nat.mul_add, ← h]
    exact Nat.modEq_zero_iff_dvd.mpr ⟨N * U, by ring⟩
  have hMN : M + N * (M * p) ≡ 0 [MOD R] := by
    calc M + N * (M * p) = M * (N * p + 1) := by ring
      _ ≡ M * 0 [MOD R] := Nat.ModEq.mul_left M (b := 0) hN
  have hcong : M ≡ C * N [MOD R] := by
    rw [Nat.mul_comm C]
    exact Nat.ModEq.add_right_cancel' _ (hMN.trans hCM.symm)
  exact (Nat.mod_eq_of_lt hM).symm.trans hcong

end Sys2Proof.Machine

open Sys2Proof Sys2Proof.Machine

/-- Settles O47: five retained slots hold the exact quotient, whose multiplier M is determined by
A·B + M·p being a multiple of 2^255; they fit their words, and writing a result changes RD alone. -/
theorem floatCiosCandidateIsExact : Obligations.FloatCiosCandidateIsExact := by
  unfold Obligations.FloatCiosCandidateIsExact
  intro s rd ra rb N hpre ⟨_, hinv⟩
  obtain ⟨hlen, hcan, M, hM, hval⟩ := f51Mul_spec (length_f51Words _) (length_f51Words _)
    (length_f51Words _) hpre
  have hread := limbs_commitLimbs (decide_eq_true hpre) 0x23 (mulWords s ra rb 5 5) (by decide) hlen
    (hcan.mono (by decide)) rd s
  obtain ⟨-, ⟨hodd, -, hp⟩, ⟨hA, hB⟩, -⟩ := hpre
  obtain ⟨hlt, hmont⟩ := cios_candidate hodd hA hB hp hM hval
  obtain ⟨honly, hzero⟩ := commitLimbs_writes hlen.le
  have hMN := montgomery_multiplier_eq hM hval hinv
  refine ⟨_, rfl, ?_, ?_, hzero, honly⟩
  all_goals rw [BigReg.u51, hread]
  · exact ⟨hMN ▸ hval, hlt, hmont⟩
  · exact hcan
end

section
/-! The delayed-carry multipliers MUL.DC30 and MUL.DC29 (45_delayed_carry.md R190 to R199): the limbs they
write by value, and the slots of their schedule. -/

namespace Sys2Proof.Machine

/-! ### The Montgomery product (R195, R196) -/

section
variable {W : Nat} {a b p : List Nat} {n0 : Nat} (ha : a.length = 9) (hb : b.length = 9)
  (hp : p.length = 9)
include ha hb hp

/-- The outer iterations leave nine slots of the value (a·b + M·p) / 2^(9W) exactly. -/
theorem dcAccumulate_spec (hn : IsNegInverse n0 (val W p) W) :
    (dcAccumulate W a b p n0).length = 9 ∧ ∃ M, M < 2 ^ (9 * W) ∧
      val W (dcAccumulate W a b p n0) * 2 ^ (9 * W) = val W a * val W b + M * val W p := by
  have h := foldl_cios (dcStep W b p n0) (val W) id (List.length · = 9) (fun _ => True) W (val W b)
    (val W p) (fun S x hS _ => ⟨length_dcStep W n0 x hS hb hp, dcStep_spec hS hb hp hn⟩) a
    (fun _ _ => trivial) [0, 0, 0, 0, 0, 0, 0, 0, 0] rfl
  have h0 : val W [0, 0, 0, 0, 0, 0, 0, 0, 0] = 0 := by simp
  rwa [ha, List.map_id, h0, Nat.zero_add, Nat.mul_comm W] at h

/-- The schedule computes the canonical limbs of the Montgomery product: the carry pass keeps the value
of the slots, which is below 2p, and one subtraction reduces it. -/
theorem delayedCarryMul_spec (h : DcPre W a b p n0) :
    (delayedCarryMul W a b p n0).length = 9 ∧ Canonical W (delayedCarryMul W a b p n0) ∧
      val W (delayedCarryMul W a b p n0)
        = montMul (val W a) (val W b) (val W p) (2 ^ (9 * W)) := by
  obtain ⟨⟨-, -, cp⟩, ⟨hodd, -, hpR⟩, ⟨hA, hB⟩, hn⟩ := h
  obtain ⟨hlen, M, hM, hval⟩ := dcAccumulate_spec ha hb hp hn
  obtain ⟨hlt, hmont⟩ := cios_candidate hodd hA hB hpR hM hval
  obtain ⟨hpass, hlenPass, hcan⟩ := carryPassKeepsTheValue W (dcAccumulate W a b p n0)
  have hlp := hlenPass.trans (hlen.trans hp.symm)
  rw [← hpass] at hlt hmont
  exact ⟨length_dcMul W a n0 hb hp, (condSub_spec hlp hcan cp hlt).2,
    (val_condSub_eq_mod hlp hcan cp hlt).trans hmont⟩

end

/-- What the shared body of the two commands leaves under their preconditions, for limbs that fit a
word. -/
theorem delayedCarry_spec {W n : Nat} {s : State} {ra rb : Reg} (hW : W ≤ 64) (hn : 9 * W = n)
    (h : DcPre W (s.reg ra).i9 (s.reg rb).i9 s.modulus.i9 s.n0.toNat) (op : BitVec 8) (rd : Reg) :
    let t := delayedCarry op W rd ra rb s
    Canonical W (t.reg rd).i9 ∧
      val W (t.reg rd).i9 = montMul (val W (s.reg ra).i9) (val W (s.reg rb).i9)
        (val W s.modulus.i9) (2 ^ n) ∧
      val W (t.reg rd).i9 < val W s.modulus.i9 ∧ OnlyRegChanged rd s t := by
  obtain ⟨hlen, hcan, hval⟩ := delayedCarryMul_spec (length_i9 _) (length_i9 _) (length_i9 _) h
  have hread : (BigReg.i9 ((delayedCarry op W rd ra rb s).reg rd)) = _ :=
    limbs_commitLimbs (decide_eq_true h) op (mulWords s ra rb 9 9) (by decide) hlen (hcan.mono hW) rd s
  obtain ⟨-, ⟨-, hp1, -⟩, -⟩ := h
  intro t
  rw [hread, ← hn]
  exact ⟨hcan, hval, hval.trans_lt (montMul_lt (by omega) _ _ _), commitLimbs_onlyReg ..⟩

/-! ### The bounds of the slots (R199) -/

theorem SlotsLe.getD_le {t c : List Nat} (h : SlotsLe t c) (k : Nat) : t.getD k 0 ≤ c.getD k 0 := by
  induction h generalizing k with
  | nil => exact le_rfl
  | cons hle _ ih =>
    cases k with
    | zero => exact hle
    | succ k => exact ih k

theorem SlotsLe.getLastD_le {t c : List Nat} (h : SlotsLe t c) {d e : Nat} (hd : d ≤ e) :
    t.getLastD d ≤ c.getLastD e := by
  induction h generalizing d e with
  | nil => exact hd
  | cons hle _ ih =>
    rw [List.getLastD_cons, List.getLastD_cons]
    exact ih hle

theorem SlotsLe.dropLast {t c : List Nat} (h : SlotsLe t c) : SlotsLe t.dropLast c.dropLast := by
  rw [List.dropLast_eq_take, List.dropLast_eq_take, h.length_eq]
  exact List.forall₂_take _ h

/-- The largest two products of limbs that one outer iteration adds to a slot. -/
def dcProducts (W : Nat) : Nat := 2 * ((2 ^ W - 1) * (2 ^ W - 1))

/-- The bounds between outer iterations: slot 7 is cut to a limb, a slot below it has received two
products in each iteration since it was slot 7, slot 0 the folded carry besides, and slot 8 holds what
was cut off slot 7. -/
def dcBound (W : Nat) : List Nat :=
  let x := dcProducts W
  let m := 2 ^ W - 1
  [7 * x + m + (16 * m + 1), 6 * x + m, 5 * x + m, 4 * x + m, 3 * x + m, 2 * x + m, x + m, m, 2 * m]

/-- The bounds of the slot sums of an outer iteration. -/
def dcSumBound (W : Nat) : List Nat := (dcBound W).map (· + dcProducts W)

theorem dcSums_le {W ai q : Nat} (hai : ai < 2 ^ W) (hq : q < 2 ^ W) {b p : List Nat}
    (cb : Canonical W b) (cp : Canonical W p) {S c : List Nat} (hlb : b.length = S.length)
    (hlp : p.length = S.length) (h : SlotsLe S c) :
    SlotsLe (dcSums ai q S b p) (c.map (· + dcProducts W)) := by
  induction h generalizing b p with
  | nil => exact .nil
  | cons hle _ ih =>
    match b, p, hlb, hlp with
    | y :: ys, m :: ms, hlb, hlp =>
      obtain ⟨hy, hys⟩ := canonical_cons.mp cb
      obtain ⟨hm, hms⟩ := canonical_cons.mp cp
      have hay : ai * y ≤ (2 ^ W - 1) * (2 ^ W - 1) := Nat.mul_le_mul (by omega) (by omega)
      have hqm : q * m ≤ (2 ^ W - 1) * (2 ^ W - 1) := Nat.mul_le_mul (by omega) (by omega)
      have hsum : ai * y + q * m ≤ dcProducts W := by rw [dcProducts]; omega
      exact .cons ((Nat.add_assoc ..).trans_le (Nat.add_le_add hle hsum))
        (ih hys hms (Nat.succ.inj hlb) (Nat.succ.inj hlp))

/-- The window shift on bounds: what is left of a renormalised slot is below 2^W. -/
def dcShiftBound (W : Nat) : List Nat → List Nat
  | c0 :: c1 :: rest =>
    (c1 + c0 / 2 ^ W) :: rest.dropLast ++ [2 ^ W - 1, rest.getLastD 0 / 2 ^ W]
  | c => c

theorem dcShift_le (W : Nat) {t c : List Nat} (h : SlotsLe t c) :
    SlotsLe (dcShift W t) (dcShiftBound W c) := by
  match h with
  | .nil => exact .nil
  | .cons h0 .nil => exact .cons h0 .nil
  | .cons h0 (.cons h1 hs) =>
    have hlow (n : Nat) : n % 2 ^ W ≤ 2 ^ W - 1 := Nat.le_pred_of_lt (Nat.mod_lt n (Nat.two_pow_pos W))
    have htop := Nat.div_le_div_right (c := 2 ^ W) (SlotsLe.getLastD_le hs (le_refl 0))
    exact .cons (Nat.add_le_add h1 (Nat.div_le_div_right h0))
      (List.rel_append (SlotsLe.dropLast hs) (.cons (hlow _) (.cons htop .nil)))

section
variable {W : Nat} (hW : W = 30 ∨ W = 29)
include hW

/-- One outer iteration leaves the bounds as they are. -/
theorem dcShiftBound_sumBound : dcShiftBound W (dcSumBound W) = dcBound W := by
  obtain rfl | rfl := hW
  all_goals decide

/-- The bounds keep every sum of the schedule and of the carry pass below 2^64. -/
theorem dcBound_fits : Canonical 64 (dcSumBound W) ∧
    (dcSumBound W).getD 1 0 + (dcSumBound W).getD 0 0 / 2 ^ W < 2 ^ 64 ∧ Canonical 64 (dcBound W) ∧
    ∀ k, k < 9 → (dcBound W).getD k 0 + val W ((dcBound W).take k) / 2 ^ (W * k) < 2 ^ 64 := by
  obtain rfl | rfl := hW
  all_goals decide

variable {b p : List Nat} (hlb : b.length = 9) (hlp : p.length = 9) (cb : Canonical W b)
  (cp : Canonical W p)
include hlb hlp cb cp

theorem dcStep_le {S : List Nat} (hS : SlotsLe S (dcBound W)) {ai : Nat} (hai : ai < 2 ^ W)
    (n0 : Nat) :
    SlotsLe (dcSums ai (dcDigit W b n0 S ai) S b p) (dcSumBound W) ∧
      SlotsLe (dcStep W b p n0 S ai) (dcBound W) := by
  have hlS : S.length = 9 := hS.length_eq
  have hsums : SlotsLe (dcSums ai (dcDigit W b n0 S ai) S b p) (dcSumBound W) :=
    dcSums_le hai (qDigit_lt _ n0 W) cb cp (hlb.trans hlS.symm) (hlp.trans hlS.symm) hS
  exact ⟨hsums, dcShiftBound_sumBound hW ▸ dcShift_le W hsums⟩

/-- Every outer iteration starts within the bounds. -/
theorem dcAccumulate_le {a : List Nat} (ca : Canonical W a) (n0 : Nat) :
    SlotsLe (dcAccumulate W a b p n0) (dcBound W) :=
  List.foldlRecOn a _ (motive := fun S => SlotsLe S (dcBound W))
    (by simp [dcBound]) fun _ hS _ hx => (dcStep_le hW hlb hlp cb cp hS (ca _ hx) n0).2

end

end Sys2Proof.Machine

open Sys2Proof Sys2Proof.Machine

/-- Settles O49: both commands are the one schedule, whose limbs are those of the Montgomery product and
fit the nine words that are written. -/
theorem delayedCarryIsTheMontgomeryProduct : Obligations.DelayedCarryIsTheMontgomeryProduct := by
  unfold Obligations.DelayedCarryIsTheMontgomeryProduct
  intro s rd ra rb
  exact ⟨fun hpre => ⟨_, rfl, delayedCarry_spec (n := 270) (by decide) rfl hpre _ rd⟩,
    fun hpre => ⟨_, rfl, delayedCarry_spec (n := 261) (by decide) rfl hpre _ rd⟩⟩

/-- Settles O50: the slots stay within fixed bounds in every outer iteration, whatever the constant, and
every sum grows with the slots, so it is no larger than the sum of the bounds. -/
theorem delayedCarrySlotsDoNotOverflow : Obligations.DelayedCarrySlotsDoNotOverflow := by
  unfold Obligations.DelayedCarrySlotsDoNotOverflow
  intro W done more b p ai n0 hW _ hlb hlp ca cb cp
  obtain ⟨cdone, cmore⟩ := canonical_append.mp ca
  obtain ⟨hai, -⟩ := canonical_cons.mp cmore
  have hS := dcAccumulate_le hW hlb hlp cb cp cdone n0
  obtain ⟨hsums, hstep⟩ := dcStep_le hW hlb hlp cb cp hS hai n0
  obtain ⟨hfit, hfold, hleft, hpass⟩ := dcBound_fits hW
  refine ⟨hsums.canonical hfit, lt_of_le_of_lt ?_ hfold, hstep.canonical hleft,
    fun k hk => lt_of_le_of_lt ?_ (hpass k hk)⟩
  · exact Nat.add_le_add (hsums.getD_le 1) (Nat.div_le_div_right (hsums.getD_le 0))
  · exact Nat.add_le_add (hstep.getD_le k)
      (Nat.div_le_div_right (SlotsLe.val_le (List.forall₂_take k hstep) W))
end

section
/-! RESOLVE.F51 and REDUCE.F51 (46_resolve_reduce.md R205 to R211): the binary64 words they write, their
integers by value, and the required sequence that completes MUL.F51. -/

namespace Sys2Proof.Machine

/-! ### Binary64 words as result limbs (44_float_cios.md R166 (a)) -/

theorem wordsOfLimbs_map_toNat (w : List Word) : wordsOfLimbs (w.map BitVec.toNat) = w := by
  simp [wordsOfLimbs, Function.comp_def]

theorem f51WordsOf_eq_map_toNat (l : List Nat) :
    f51WordsOf l = (l.map f64OfNat).map BitVec.toNat := by
  simp [f51WordsOf]

/-- Five words that are written to RD are read back as its F51 words, words 5 to 8 are 0, and nothing
else changes. -/
theorem commitLimbs_f51Words {d : Bool} {result : List Nat} {w : List Word} (h : d = true)
    (hr : result = w.map BitVec.toNat) (hw : w.length = 5) (op : BitVec 8) (inputs : List Word)
    (rd : Reg) (s : State) :
    let t := commitLimbs op inputs 5 d result rd s
    (t.reg rd).f51Words = w ∧ ZeroFilled 5 rd t ∧ OnlyRegChanged rd s t := by
  subst hr
  refine ⟨?_, commitLimbs_zeroFilled op inputs d (by simp [hw]) rd s, commitLimbs_onlyReg ..⟩
  have hread := firstWords_ofWords (l := w) (by omega)
  rwa [commitLimbs_defined h, reg_setReg_same, wordsOfLimbs_map_toNat, BigReg.f51Words, ← hw]

section
variable {l : List Nat} (h : Canonical 53 l)
include h

theorem f51Valid_map_f64OfNat : F51Valid (l.map f64OfNat) := by
  obtain ⟨hpattern, -⟩ := integerPatternsAreFaithful
  refine List.all_eq_true.mpr (List.forall_mem_map.mpr fun n hn => ?_)
  exact (hpattern n (h n hn)).1

theorem map_f64Int_map_f64OfNat : (l.map f64OfNat).map f64Int = l := by
  rw [List.map_map]
  exact (List.map_congr_left fun n hn => f64Int_f64OfNat (h n hn)).trans (List.map_id l)

end

/-! ### The top limb of five (R208) -/

section
variable {l m : List Nat} (hl : l.length = 5)
include hl

theorem take_four_eq_dropLast : l.take 4 = l.dropLast := by
  rw [List.dropLast_eq_take, hl]

theorem take_four_append_topLimb : l.take 4 ++ [topLimb l] = l := by
  rw [topLimb, List.getD_eq_getElem _ _ (by omega), List.take_append_getElem,
    List.take_of_length_le (by omega)]

theorem canonical_of_topLimb_lt {W : Nat} (hc : Canonical W (l.take 4)) (ht : topLimb l < 2 ^ W) :
    Canonical W l := by
  rw [← take_four_append_topLimb hl]
  exact canonical_append.mpr ⟨hc, canonical_cons.mpr ⟨ht, canonical_nil W⟩⟩

theorem val_lt_of_topLimb_lt (hc : Canonical 51 (l.take 4)) (ht : topLimb l < topLimb m) :
    val 51 l < val 51 m := by
  have hlow : val 51 (l.take 4) < 2 ^ 204 := by simpa [hl] using val_lt hc
  have hsplit : val 51 l = val 51 (l.take 4) + 2 ^ 204 * topLimb l := by
    conv_lhs => rw [← take_four_append_topLimb hl]
    simp [val_append, hl]
  have hm : topLimb m * 2 ^ 204 ≤ val 51 m := getD_mul_le_val 51 m 4
  omega

end

/-! ### The result words of the two commands -/

/-- Resolved limbs are below 2^51 but for the top one, which takes all of the value above and so is
below 2^53: integers that binary64 holds exactly (R205, R206). -/
theorem resolveLimbs_spec {u : List Nat} (hu : u.length = 5) (h : ResolvePre u) :
    (resolveLimbs u).length = 5 ∧ Canonical 53 (resolveLimbs u) ∧
      Canonical 51 ((resolveLimbs u).take 4) ∧ val 51 (resolveLimbs u) = val 51 u := by
  obtain ⟨-, hlt⟩ := h
  obtain ⟨hval, hlen, hcan⟩ := carryPassKeepsTheValue 51 u
  rw [hu] at hlen
  change val 51 (resolveLimbs u) = _ at hval
  change (resolveLimbs u).length = 5 at hlen
  have hlow : Canonical 51 ((resolveLimbs u).take 4) := take_four_eq_dropLast hlen ▸ hcan
  have htop : topLimb (resolveLimbs u) * 2 ^ 204 ≤ val 51 (resolveLimbs u) :=
    getD_mul_le_val 51 _ 4
  exact ⟨hlen, canonical_of_topLimb_lt hlen (hlow.mono (by decide)) (by omega), hlow, hval⟩

/-- Without a tie the top limb decides whether the value is below the modulus. If it is not, one
subtraction reduces it; if it is, the words are normalised as they stand (R208, R209). -/
theorem reduceWords_spec {v m : List Word} (hv : v.length = 5) (hm : m.length = 5)
    (h : ReducePre v m) :
    ∃ w : List Word, reduceWords v m = w.map BitVec.toNat ∧ w.length = 5 ∧ F51Normal w ∧
      val 51 (w.map f64Int) = val 51 (v.map f64Int) % val 51 (m.map f64Int) := by
  obtain ⟨⟨hvalid, hlow⟩, ⟨-, cm, -, -, hp⟩, hlt, htie⟩ := h
  have hlv : (v.map f64Int).length = 5 := by simpa using hv
  have hlm : (m.map f64Int).length = 5 := by simpa using hm
  unfold reduceWords
  split
  case isTrue hgt =>
    have hle : val 51 (m.map f64Int) ≤ val 51 (v.map f64Int) :=
      (val_lt_of_topLimb_lt hlm (fun x hx => cm x (List.mem_of_mem_take hx)) hgt).le
    have hsub := val_subLimbs_of_le (hlv.trans hlm.symm) (take_four_eq_dropLast hlv ▸ hlow) cm hle
      (by rw [hlv]; omega)
    have hcan := canonical_subLimbs 51 (v.map f64Int) (m.map f64Int)
    have hints := map_f64Int_map_f64OfNat (hcan.mono (by decide : 51 ≤ 53))
    refine ⟨_, f51WordsOf_eq_map_toNat _, ?_,
      ⟨f51Valid_map_f64OfNat (hcan.mono (by decide)), hints.symm ▸ hcan⟩, ?_⟩
    · rw [List.length_map, length_subLimbs 51 (hlv.trans hlm.symm), hlv]
    · rw [hints, hsub, Nat.mod_eq_sub_mod hle, Nat.mod_eq_of_lt (by omega)]
  case isFalse hngt =>
    have hless : topLimb (v.map f64Int) < topLimb (m.map f64Int) := by omega
    have hmtop : topLimb (m.map f64Int) * 2 ^ 204 ≤ val 51 (m.map f64Int) := getD_mul_le_val 51 _ 4
    exact ⟨v, rfl, hv, ⟨hvalid, canonical_of_topLimb_lt hlv hlow (by omega)⟩,
      (Nat.mod_eq_of_lt (val_lt_of_topLimb_lt hlv hlow hless)).symm⟩

/-- An odd number has a negative inverse modulo every power of two (44_float_cios.md R184). -/
theorem exists_isNegInverse {p : Nat} (hodd : p % 2 = 1) (n : Nat) : ∃ N, IsNegInverse N p n := by
  have hp : p.Coprime (2 ^ n) :=
    ((Nat.coprime_two_left.mpr (Nat.odd_iff.mpr hodd)).pow_left n).symm
  refine ⟨(-(p : ZMod (2 ^ n))⁻¹).val, ZMod.val_lt _, ?_⟩
  rw [← Nat.dvd_iff_mod_eq_zero, ← ZMod.natCast_eq_zero_iff]
  push_cast
  rw [ZMod.natCast_zmod_val, neg_mul, mul_comm, ZMod.coe_mul_inv_eq_one p hp, neg_add_cancel]

end Sys2Proof.Machine

open Sys2Proof Sys2Proof.Machine

/-- Settles O53: the carry pass keeps the value, its limbs are integers that binary64 holds exactly, and
writing a result changes RD alone. -/
theorem resolveNormalisesAndKeepsTheValue : Obligations.ResolveNormalisesAndKeepsTheValue := by
  unfold Obligations.ResolveNormalisesAndKeepsTheValue
  intro s rd ra hpre
  obtain ⟨hlen, hfit, hlow, hval⟩ := resolveLimbs_spec (length_u51 _) hpre
  obtain ⟨hread, hzero, honly⟩ := commitLimbs_f51Words (decide_eq_true hpre)
    (f51WordsOf_eq_map_toNat _) ((List.length_map _).trans hlen) 0x30 ((s.reg ra).firstWords 5) rd s
  refine ⟨_, rfl, hread ▸ f51Valid_map_f64OfNat hfit, ?_, ?_, hzero, honly⟩
  all_goals rw [BigReg.f51, hread, map_f64Int_map_f64OfNat hfit]
  · exact hval
  · exact hlow

/-- Settles O54: the words computed are those of the value modulo p, and writing a result changes RD
alone. -/
theorem reduceWithoutTieIsModulo : Obligations.ReduceWithoutTieIsModulo := by
  unfold Obligations.ReduceWithoutTieIsModulo
  intro s rd ra hpre
  obtain ⟨w, hwords, hlen, hnormal, hval⟩ :=
    reduceWords_spec (length_f51Words _) (length_f51Words _) hpre
  obtain ⟨hread, hzero, honly⟩ := commitLimbs_f51Words (decide_eq_true hpre) hwords hlen 0x31
    ((s.reg ra).f51Words ++ s.modulus.f51Words) rd s
  refine ⟨_, rfl, hread ▸ hnormal, ?_, hzero, honly⟩
  rw [BigReg.f51, hread]
  exact hval

/-- Settles O56: MUL.F51 leaves limbs of a value below 2p that is congruent to the product, RESOLVE.F51
keeps that value, and REDUCE.F51 takes it modulo p, MOD being as it was. -/
theorem floatSequenceIsTheMontgomeryProduct : Obligations.FloatSequenceIsTheMontgomeryProduct := by
  unfold Obligations.FloatSequenceIsTheMontgomeryProduct
  intro s rd rt ra rb hpre
  have ⟨⟨_, _, hpvalid, cp⟩, hmod, _, _⟩ := hpre
  change IsModulus (val 51 s.modulus.f51) 255 at hmod
  have ⟨hodd, hp1, hpR⟩ := hmod
  obtain ⟨N, hN⟩ := exists_isNegInverse hodd 255
  obtain ⟨t, ht, ⟨-, hU, hmont⟩, hfit, -, -, -, hrest⟩ :=
    floatCiosCandidateIsExact s rt ra rb N hpre hN
  have hresolve : ResolvePre (t.reg rt).u51 := ⟨hfit.mono (by decide), hU.trans (by omega)⟩
  obtain ⟨u, hu, hvalid, hval, hlow, -, -, -, hrest'⟩ :=
    resolveNormalisesAndKeepsTheValue t rt rt hresolve
  have hmodulus : u.modulus = s.modulus := hrest'.modulus.trans hrest.modulus
  refine ⟨t, u, ht, hu, fun htie => ?_⟩
  rw [← hval, ← hmodulus] at hU
  have hreduce : ReducePre (u.reg rt).f51Words u.modulus.f51Words := by
    rw [← hmodulus] at hpvalid cp hmod htie
    exact ⟨⟨hvalid, hlow⟩, ⟨hpvalid, cp, hmod⟩, hU, htie⟩
  obtain ⟨v, hv, hnormal, hres, -, -⟩ := reduceWithoutTieIsModulo u rd rt hreduce
  rw [hval, hmodulus] at hres
  exact ⟨v, hv, hnormal, hres.trans hmont, hres.trans_lt (Nat.mod_lt _ (by omega))⟩

/-- Settles O55: with and without a tie a result of five words is written, which changes RD alone and
leaves words 5 to 8 at 0. -/
theorem reduceTieCompletes : Obligations.ReduceTieCompletes := by
  unfold Obligations.ReduceTieCompletes
  intro s rd ra _
  obtain ⟨⟨hregs, hstatus, hrest⟩, hzero⟩ :=
    commitLimbs_writes (length_reduce _ _ (length_f51Words (s.reg ra)) (length_f51Words s.modulus)).le
  exact ⟨_, rfl, hzero, hstatus, hregs, hrest⟩
end

section
/-! The error event and the reset event (60_exceptions.md R215 to R229, 70_reset_and_hazards.md R240). No
command reads or writes ERR; what a host operation does to ERR and to the host's list is said once, for
every operation, and the invariants of a step follow. -/

namespace Sys2Proof.Machine

/-! ### Commands and ERR (R215, R217) -/

/-- `s` with ERR at `e`. -/
def State.withErr (s : State) (e : Bool) : State :=
  { s with status := { s.status with err := e } }

section
variable (op : BitVec 8) (W L : Nat) (rd ra rb : Reg) (s : State) (e : Bool)

theorem commitLimbs_withErr (inputs : List Word) (len : Nat) (d : Bool) (result : List Nat) :
    commitLimbs op inputs len d result rd (s.withErr e)
      = (commitLimbs op inputs len d result rd s).withErr e := by
  cases d <;> rfl

theorem pairDefined_withErr : PairDefined W L ra rb (s.withErr e) ↔ PairDefined W L ra rb s :=
  Iff.rfl

theorem compareEq_withErr :
    compareEq op W L ra rb (s.withErr e) = (compareEq op W L ra rb s).withErr e := by
  simp only [compareEq, pairDefined_withErr]
  split <;> rfl

theorem compareGt_withErr :
    compareGt op W L ra rb (s.withErr e) = (compareGt op W L ra rb s).withErr e := by
  simp only [compareGt, pairDefined_withErr]
  split <;> rfl

theorem subtract_withErr :
    subtract op W L rd ra rb (s.withErr e) = (subtract op W L rd ra rb s).withErr e := by
  simp only [subtract, pairDefined_withErr]
  split <;> rfl

end

/-- Every command completes and commutes with a change of ERR. -/
theorem exec_withErr (i : Instr) (s : State) (e : Bool) :
    ∃ t, exec i s = .next t ∧ exec i (s.withErr e) = .next (t.withErr e) := by
  cases i with
  | zero => exact ⟨_, rfl, rfl⟩
  | cmpEq32 | cmpEq30 | cmpEq29 => exact ⟨_, rfl, congrArg _ (compareEq_withErr ..)⟩
  | cmpGt32 | cmpGt30 | cmpGt29 => exact ⟨_, rfl, congrArg _ (compareGt_withErr ..)⟩
  | sub32 | sub30 | sub29 => exact ⟨_, rfl, congrArg _ (subtract_withErr ..)⟩
  | mulCios32 | mulBm17s | mulBm17v | mulF51 | mulDc30 | mulDc29 | resolveF51 | reduceF51 =>
    exact ⟨_, rfl, congrArg _ (commitLimbs_withErr ..)⟩

/-- Every command completes and leaves ERR as it was: setting ERR to its own value before the command,
which is no change, sets it to that value after it. -/
theorem exec_err (i : Instr) (s : State) :
    ∃ t, exec i s = .next t ∧ t.status.err = s.status.err := by
  obtain ⟨t, ht, ht'⟩ := exec_withErr i s s.status.err
  have heq : t = t.withErr s.status.err := Host.Outcome.next.inj (ht.symm.trans ht')
  exact ⟨t, ht, congrArg (fun u => u.status.err) heq⟩

/-! ### Host operations and ERR (R216, R217, R229) -/

/-- What a host operation does to the host's list and to ERR: it takes nothing off the list, ERR stays
clear if the operation is legal, and stays set if it is no reset. -/
structure ErrEffect (op : HostOp) (s t : State) : Prop where
  pending : t.pending = s.pending
  clear : op.legal → s.status.err = false → t.status.err = false
  sticky : op ≠ .reset → s.status.err = true → t.status.err = true

/-- What leaves the list and ERR alone. -/
theorem ErrEffect.of_kept {op : HostOp} {s t : State} (hp : t.pending = s.pending)
    (he : t.status.err = s.status.err) : ErrEffect op s t :=
  ⟨hp, fun _ => he.trans, fun _ => he.trans⟩

theorem regWrite_cmd (s : State) {a : Addr} (v : Word) (h : portLoc a = .cmd) :
    regWrite a v s = runCommand v s := by
  rw [regWrite, h]

/-- A word with illegal fields is the IllegalCommand event (30_encoding.md R74, R75; R216). -/
theorem runCommand_of_not_wellFormed {c : Word} (h : (Fields.ofWord c).wellFormed = false)
    (s : State) : runCommand c s = .next (raiseIllegal s) := by
  cases hc : decode c with
  | ok i => exact absurd (exists_decode_iff.mp ⟨i, hc⟩) (by simp [h])
  | error e => exact runCommand_illegal hc s

/-- Running a command word completes: a legal one leaves ERR alone, any other sets it. -/
theorem runCommand_next (c : Word) (s : State) : ∃ t, runCommand c s = .next t ∧
    t.pending = s.pending ∧
    (t.status.err = s.status.err ∨ (¬ ∃ i, decode c = .ok i) ∧ t.status.err = true) := by
  cases hc : decode c with
  | ok i =>
    obtain ⟨t, ht, herr⟩ := exec_err i s
    obtain ⟨u, hu, -, hrest⟩ := exec_destinationFrame i s
    obtain rfl := Host.Outcome.next.inj (ht.symm.trans hu)
    exact ⟨t, (runCommand_legal hc s).trans ht, hrest.pending, .inl herr⟩
  | error e => exact ⟨_, runCommand_illegal hc s, rfl, .inr ⟨by simp, rfl⟩⟩

/-- A port write completes, and every operation that performs it has this effect, if it is legal only
when the write is. -/
theorem regWrite_errEffect (a : Addr) (v : Word) (s : State) {op : HostOp}
    (hop : op.legal → portLoc a = .cmd → ∃ i, decode v = .ok i) :
    ∃ t, regWrite a v s = .next t ∧ ErrEffect op s t := by
  by_cases ha : portLoc a = .cmd
  · obtain ⟨t, ht, hp, herr⟩ := runCommand_next v s
    refine ⟨t, (regWrite_cmd s v ha).trans ht, ?_⟩
    obtain hkept | ⟨hillegal, hset⟩ := herr
    · exact .of_kept hp hkept
    · exact ⟨hp, fun hlegal => absurd (hop hlegal ha) hillegal, fun _ _ => hset⟩
  · exact ⟨_, regWrite_of_ne_cmd s v ha, .of_kept (portStore_pending s v) (by rw [portStore_status])⟩

/-- A bus read changes nothing but the replies. -/
theorem busRead_reply (a : BusAddr) (n : Nat) (s : State) : ∃ y, busRead a n s = s.reply y := by
  unfold busRead
  split
  · exact ⟨_, rfl⟩
  · exact ⟨_, rfl⟩

/-- Every host operation completes (R229) and has its effect on ERR. -/
theorem runHostOp_errEffect (op : HostOp) (s : State) :
    ∃ t, runHostOp op s = .next t ∧ ErrEffect op s t := by
  cases op with
  | regWrite a v => exact regWrite_errEffect a v s id
  | regRead a => exact ⟨_, rfl, .of_kept rfl rfl⟩
  | reset => exact ⟨_, rfl, rfl, fun _ _ => rfl, fun h => absurd rfl h⟩
  | busWrite a l =>
    cases hw : busWordAddr a l.length with
    | some w =>
      obtain ⟨t, ht, heffect⟩ :=
        regWrite_errEffect w (wordOfBytes l) s (op := .busWrite a l) fun hlegal => hlegal w hw
      exact ⟨t, by rw [← ht, runHostOp, busWrite, hw], heffect⟩
    | none => exact ⟨s.reply .busError, by rw [runHostOp, busWrite, hw], .of_kept rfl rfl⟩
  | busRead a n =>
    obtain ⟨y, hy⟩ := busRead_reply a n s
    exact ⟨_, congrArg Host.Outcome.next hy, .of_kept rfl rfl⟩

/-- Everything a step can do to ERR: nothing, with nothing pending, or the effect of the operation it
takes off the list. -/
theorem step_errEffect {s t : State} (h : step s = .next t) :
    t = s ∨ ∃ op, s.pending = op :: t.pending ∧ ErrEffect op { s with pending := t.pending } t := by
  obtain ⟨-, rfl⟩ | ⟨op, rest, hpending, hrun⟩ := step_cases h
  · exact .inl rfl
  · obtain ⟨u, hu, heffect⟩ := runHostOp_errEffect op { s with pending := rest }
    obtain rfl := Host.Outcome.next.inj (hu.symm.trans hrun)
    obtain rfl : u.pending = rest := heffect.pending
    exact .inr ⟨op, hpending, heffect⟩

end Sys2Proof.Machine

open Sys2Proof Sys2Proof.Machine

/-- Settles O4: a word with illegal fields is not decoded, and the event sets the flag. -/
theorem illegalCommandSetsErrOnly : Obligations.IllegalCommandSetsErrOnly := by
  unfold Obligations.IllegalCommandSetsErrOnly
  intro s c rest hp hc
  rw [step_op hp]
  exact runCommand_of_not_wellFormed hc _

/-- Settles O6: a command commutes with setting ERR to its own value, so it leaves that value. -/
theorem everyCommandCompletesWithoutEvent : Obligations.EveryCommandCompletesWithoutEvent := by
  unfold Obligations.EveryCommandCompletesWithoutEvent
  exact exec_err

/-- Settles O23: no shared operation of the commands reads or writes ERR. -/
theorem errIsInert : Obligations.ErrIsInert := by
  unfold Obligations.ErrIsInert
  exact exec_withErr

/-- Settles O58: the operation a step performs is legal, and the others stay pending. -/
theorem legalHostsKeepErrClear : Obligations.LegalHostsKeepErrClear := by
  unfold Obligations.LegalHostsKeepErrClear
  intro s t h ht
  obtain rfl | ⟨op, hpending, heffect⟩ := step_errEffect ht
  · exact h
  · have hlegal := h.pending
    rw [hpending, List.forall_mem_cons] at hlegal
    obtain ⟨hop, hrest⟩ := hlegal
    exact ⟨heffect.clear hop h.noError, hrest⟩

/-- Settles O59: the operation a step performs is no reset, and no other reset is pending. -/
theorem errIsStickyUntilReset : Obligations.ErrIsStickyUntilReset := by
  unfold Obligations.ErrIsStickyUntilReset
  intro s t h ht
  obtain rfl | ⟨op, hpending, heffect⟩ := step_errEffect ht
  · exact h
  · have hnoReset := h.noReset
    rw [hpending, List.mem_cons, not_or] at hnoReset
    obtain ⟨hop, hrest⟩ := hnoReset
    exact ⟨heffect.sticky (Ne.symm hop) h.error, hrest⟩

/-- Settles O5: an idle step answers the state itself, and every host operation completes. -/
theorem everyStepAnswersNext : Obligations.EveryStepAnswersNext := by
  unfold Obligations.EveryStepAnswersNext
  intro s
  cases hp : s.pending with
  | nil => exact ⟨s, step_idle hp⟩
  | cons op rest =>
    obtain ⟨t, ht, -⟩ := runHostOp_errEffect op { s with pending := rest }
    exact ⟨t, (step_op hp).trans ht⟩

/-- Settles O2: the step is the reset event, which clears STATUS and keeps the host's lists. -/
theorem resetEventClearsStatus : Obligations.ResetEventClearsStatus := by
  unfold Obligations.ResetEventClearsStatus
  intro s rest hp
  exact ⟨_, step_op hp, rfl, rfl, rfl, rfl, rfl, rfl⟩
end

section
/-! Residue sessions (70_reset_and_hazards.md R243, R247): every command of a session leaves a residue in
its destination, and nothing a session does touches MOD or N0. -/

namespace Sys2Proof.Machine

theorem HoldsResidue.congr {p : Nat} {r : Reg} {s t : State} (h : HoldsResidue p r s)
    (hreg : t.reg r = s.reg r) : HoldsResidue p r t := by
  rwa [HoldsResidue, hreg]

theorem i32_zero : BigReg.i32 BigReg.zero = List.replicate 8 0 := by decide

section
variable {p : Nat} {s t : State} (h : ResidueSession p s)
include h

/-- A state with the same MOD and N0, no more pending operations and residues in the big registers is in
the session. -/
theorem ResidueSession.transfer (hmod : t.modulus = s.modulus) (hn0 : t.n0 = s.n0)
    (hpending : t.pending ⊆ s.pending) (hres : ∀ r, HoldsResidue p r t) : ResidueSession p t where
  modulus := h.modulus
  canonical := hmod ▸ h.canonical
  wide := hmod ▸ h.wide
  value := hmod ▸ h.value
  residues := hres
  pending op hop := hn0 ▸ h.pending op (hpending hop)

/-- The preconditions of MUL.BM17S and MUL.BM17V that a session meets, given their constant. -/
theorem ResidueSession.bm17Pre (ra rb : Reg) (hmu : IsPosInverse s.n0.toNat p 32) :
    Bm17Pre (s.reg ra).i32 (s.reg rb).i32 s.modulus.i32 s.n0.toNat := by
  obtain ⟨ca, hA⟩ := h.residues ra
  obtain ⟨cb, hB⟩ := h.residues rb
  rw [Bm17Pre, h.value]
  exact ⟨⟨ca, cb⟩, h.canonical, h.modulus, ⟨hA, hB⟩, hmu⟩

/-- The preconditions of MUL.CIOS32 that a session meets, given its constant. -/
theorem ResidueSession.cios32Pre (ra rb : Reg) (hn : IsNegInverse s.n0.toNat p 32) :
    Cios32Pre (s.reg ra).i32 (s.reg rb).i32 (s.modulus.limbs 9) s.n0.toNat := by
  obtain ⟨ca, hA⟩ := h.residues ra
  obtain ⟨cb, hB⟩ := h.residues rb
  have hwide : (s.modulus.limbs 9).getD 8 0 = 0 :=
    (getD_limbs s.modulus (L := 9) 8 (by decide)).trans (congrArg BitVec.toNat h.wide)
  rw [Cios32Pre, take_limbs_nine, h.value]
  exact ⟨⟨ca, cb⟩, ⟨h.canonical, hwide⟩, h.modulus, ⟨hA, hB⟩, hn⟩

/-- The canonical limbs of a Montgomery product are a residue in the register they are written to. -/
theorem ResidueSession.holdsResidue_product (rd : Reg) {l : List Nat} {a b R : Nat}
    (hl : l.length = 8 ∧ Canonical 32 l ∧ val 32 l = montMul a b (val 32 s.modulus.i32) R) :
    HoldsResidue p rd (s.setReg rd (BigReg.ofWords (wordsOfLimbs l))) := by
  obtain ⟨hlen, hcan, hval⟩ := hl
  obtain ⟨-, hp1, -⟩ := h.modulus
  have hread := limbs_ofWords (by omega) (hcan.mono (by decide : 32 ≤ 64))
  rw [hlen] at hread
  rw [HoldsResidue, reg_setReg_same, BigReg.i32, hread, hval, h.value]
  exact ⟨hcan, montMul_lt (Nat.zero_lt_of_lt hp1) a b R⟩

/-- A session command leaves a residue in its destination. -/
theorem ResidueSession.holdsResidue_dest {i : Instr} (hi : SessionCommand p s.n0.toNat i) {rd : Reg}
    (hrd : i.dest? = some rd) (ht : exec i s = .next t) : HoldsResidue p rd t := by
  cases i with
  | zero d =>
    obtain rfl : d = rd := Option.some.inj hrd
    obtain rfl := Host.Outcome.next.inj ht
    obtain ⟨-, hp1, -⟩ := h.modulus
    rw [HoldsResidue, reg_setReg_same, i32_zero]
    exact ⟨by decide, Nat.zero_lt_of_lt hp1⟩
  | mulCios32 d ra rb =>
    have hpre := h.cios32Pre ra rb hi
    obtain rfl : d = rd := Option.some.inj hrd
    obtain rfl := Host.Outcome.next.inj ((exec_mulCios32_of_pre hpre).symm.trans ht)
    have hspec := ciosMul_spec (length_i32 _) (length_i32 _) (length_limbs _ 9) hpre
    rw [take_limbs_nine] at hspec
    exact h.holdsResidue_product d hspec
  | mulBm17s d ra rb =>
    have hpre := h.bm17Pre ra rb hi
    obtain rfl : d = rd := Option.some.inj hrd
    obtain rfl := Host.Outcome.next.inj ((exec_mulBm17s_of_pre hpre).symm.trans ht)
    exact h.holdsResidue_product d (bmMul_spec (length_i32 _) (length_i32 _) (length_i32 _) hpre)
  | mulBm17v d ra rb =>
    have hpre := h.bm17Pre ra rb hi
    obtain rfl : d = rd := Option.some.inj hrd
    obtain rfl := Host.Outcome.next.inj ((exec_mulBm17v_of_pre hpre).symm.trans ht)
    exact h.holdsResidue_product d (bmMul_spec (length_i32 _) (length_i32 _) (length_i32 _) hpre)
  | cmpEq32 | cmpGt32 => cases hrd
  | _ => exact hi.elim

/-- A session command keeps the session. -/
theorem ResidueSession.of_exec {i : Instr} (hi : SessionCommand p s.n0.toNat i)
    (ht : exec i s = .next t) : ResidueSession p t := by
  obtain ⟨u, hu, hregs, hrest⟩ := exec_destinationFrame i s
  obtain rfl := Host.Outcome.next.inj (ht.symm.trans hu)
  refine h.transfer hrest.modulus hrest.n0 (fun _ hop => hrest.pending ▸ hop) fun r => ?_
  by_cases hr : i.dest? = some r
  · exact h.holdsResidue_dest hi hr ht
  · exact (h.residues r).congr (hregs r hr)

/-- A host operation of the session keeps it. -/
theorem ResidueSession.of_runHostOp {op : HostOp} (hop : SessionOp p s.n0.toNat op)
    (ht : runHostOp op s = .next t) : ResidueSession p t := by
  cases op with
  | regWrite a v =>
    obtain hstatus | hreserved | ⟨hcmd, hlegal⟩ := hop
    · obtain rfl := Host.Outcome.next.inj ((regWrite_ignored s v (.inl hstatus)).symm.trans ht)
      exact h
    · obtain rfl := Host.Outcome.next.inj ((regWrite_ignored s v (.inr hreserved)).symm.trans ht)
      exact h
    · have hrun : runCommand v s = .next t := (regWrite_cmd s v hcmd).symm.trans ht
      cases hdecode : decode v with
      | ok i => exact h.of_exec (hlegal i hdecode) ((runCommand_legal hdecode s).symm.trans hrun)
      | error e =>
        obtain rfl := Host.Outcome.next.inj ((runCommand_illegal hdecode s).symm.trans hrun)
        exact h.transfer rfl rfl (List.Subset.refl _) h.residues
  | regRead a =>
    obtain rfl := Host.Outcome.next.inj ht
    exact h.transfer rfl rfl (List.Subset.refl _) h.residues
  | busRead a n =>
    obtain rfl := Host.Outcome.next.inj ht
    obtain ⟨y, hy⟩ := busRead_reply a n s
    rw [hy]
    exact h.transfer rfl rfl (List.Subset.refl _) h.residues
  | reset | busWrite => exact hop.elim

end

end Sys2Proof.Machine

open Sys2Proof Sys2Proof.Machine

/-- Settles O60: each operation of a session keeps it, with the rest of the host's list pending. -/
theorem sessionsKeepResidues : Obligations.SessionsKeepResidues := by
  unfold Obligations.SessionsKeepResidues
  intro p s t h ht
  obtain ⟨-, rfl⟩ | ⟨op, rest, hpending, hrun⟩ := step_cases ht
  · exact h
  · have hrest : ResidueSession p { s with pending := rest } :=
      h.transfer rfl rfl (hpending ▸ List.subset_cons_self op rest) h.residues
    exact hrest.of_runHostOp (h.pending op (hpending ▸ List.mem_cons_self)) hrun
end

section
/-! The products do not depend on the order of the operands (93_implementation_defined.md U12). Five of
the six multipliers write the canonical limbs of a Montgomery product. MUL.F51 writes unresolved slots:
there the outer loop is the same reduction applied to all slots of the product at once, and these slots
are symmetric in the operands. -/

namespace Sys2Proof.Machine

/-! ### Multipliers that write the limbs of the product (42_classic_cios.md, 43_paired_bm17.md,
45_delayed_carry.md) -/

/-- Canonical limbs of one length that have the value of the product and of the product exchanged are
the same. -/
theorem limbs_eq_of_montMul {W n p R x y : Nat} {l m : List Nat}
    (hl : l.length = n ∧ Canonical W l ∧ val W l = montMul x y p R)
    (hm : m.length = n ∧ Canonical W m ∧ val W m = montMul y x p R) : l = m := by
  obtain ⟨ll, cl, vl⟩ := hl
  obtain ⟨lm, cm, vm⟩ := hm
  exact eq_of_val_eq cl cm (ll.trans lm.symm) (vl.trans ((montMul_comm x y p R).trans vm.symm))

section
variable {a b p : List Nat} {W n0 : Nat}

theorem Cios32Pre.swap (h : Cios32Pre a b p n0) : Cios32Pre b a p n0 := by
  obtain ⟨hcan, hp, hmod, hlt, hn⟩ := h
  exact ⟨hcan.symm, hp, hmod, hlt.symm, hn⟩

theorem Bm17Pre.swap (h : Bm17Pre a b p n0) : Bm17Pre b a p n0 := by
  obtain ⟨hcan, hp, hmod, hlt, hmu⟩ := h
  exact ⟨hcan.symm, hp, hmod, hlt.symm, hmu⟩

theorem DcPre.swap (h : DcPre W a b p n0) : DcPre W b a p n0 := by
  obtain ⟨⟨ca, cb, cp⟩, hmod, hlt, hn⟩ := h
  exact ⟨⟨cb, ca, cp⟩, hmod, hlt.symm, hn⟩

theorem ciosMul_comm (ha : a.length = 8) (hb : b.length = 8) (hp : p.length = 9)
    (h : Cios32Pre a b p n0) : ciosMul a b p n0 = ciosMul b a p n0 :=
  limbs_eq_of_montMul (ciosMul_spec ha hb hp h) (ciosMul_spec hb ha hp h.swap)

theorem bmMul_comm (ha : a.length = 8) (hb : b.length = 8) (hp : p.length = 8)
    (h : Bm17Pre a b p n0) : bmMul a b p n0 = bmMul b a p n0 :=
  limbs_eq_of_montMul (bmMul_spec ha hb hp h) (bmMul_spec hb ha hp h.swap)

theorem bmvMul_comm (ha : a.length = 8) (hb : b.length = 8) (hp : p.length = 8)
    (h : Bm17Pre a b p n0) : bmvMul a b p n0 = bmvMul b a p n0 := by
  rw [bmvMul_eq_bmMul ha hb hp h, bmvMul_eq_bmMul hb ha hp h.swap, bmMul_comm ha hb hp h]

theorem delayedCarryMul_comm (ha : a.length = 9) (hb : b.length = 9) (hp : p.length = 9)
    (h : DcPre W a b p n0) : delayedCarryMul W a b p n0 = delayedCarryMul W b a p n0 :=
  limbs_eq_of_montMul (delayedCarryMul_spec ha hb hp h) (delayedCarryMul_spec hb ha hp h.swap)

end

/-! ### Slots as sequences without end (44_float_cios.md R181)

The slots of MUL.F51, zero past the last one, so that contributions to slots add as functions. -/

/-- Slot `k` of a list of slots, 0 past the end. -/
def slots (t : List Nat) : Nat → Nat := fun k => t.getD k 0

/-- The sequence moved up by one slot. -/
def slotsUp (w : Nat → Nat) : Nat → Nat
  | 0 => 0
  | k + 1 => w k

/-- The sequence moved down by one slot, the carry of slot 0 folded into slot 1 (R180 step (5)). -/
def slotsRotate (w : Nat → Nat) : Nat → Nat
  | 0 => w 1 + w 0 / 2 ^ 51
  | k + 1 => w (k + 2)

/-- What the row of the limb `x` adds: the remainder of product j to slot j, its quotient to slot
j + 1 (R180). -/
def partSlots (x : Nat) (b : List Nat) : Nat → Nat :=
  (fun k => x * b.getD k 0 % 2 ^ 51) + slotsUp fun k => x * b.getD k 0 / 2 ^ 51

/-- The rest of an outer iteration on sequences: the row of the quotient digit and the rotation. -/
def reduceSlots (p : List Nat) (n0 : Nat) (u : Nat → Nat) : Nat → Nat :=
  slotsRotate (u + partSlots (qDigit (u 0) n0 51) p)

/-- Equal slots and equal lengths make equal lists. -/
theorem eq_of_slots_eq {t u : List Nat} (hl : t.length = u.length) (h : slots t = slots u) : t = u := by
  refine List.ext_getElem hl fun k hk hk' => ?_
  have hslot : t.getD k 0 = u.getD k 0 := congrFun h k
  rwa [List.getD_eq_getElem _ _ hk, List.getD_eq_getElem _ _ hk'] at hslot

theorem slots_f51RowNat (x : Nat) {b t : List Nat} (h : b.length < t.length) :
    slots (f51RowNat x b t) = slots t + partSlots x b := by
  induction b generalizing t with
  | nil =>
    funext k
    cases k <;> simp [f51RowNat, partSlots, slotsUp]
  | cons y ys ih =>
    match t with
    | t0 :: t1 :: ts =>
      have hrest := ih (t := (t1 + x * y / 2 ^ 51) :: ts) (by simpa using h)
      funext k
      match k with
      | 0 => rfl
      | 1 =>
        refine (congrFun hrest 0).trans ?_
        simp only [slots, partSlots, slotsUp, Pi.add_apply, List.getD_cons_zero, List.getD_cons_succ]
        ring
      | k + 2 => exact congrFun hrest (k + 1)

theorem getD_append_zero (t : List Nat) (k : Nat) : (t ++ [0]).getD k 0 = t.getD k 0 := by
  induction t generalizing k with
  | nil => cases k <;> rfl
  | cons t0 ts ih =>
    cases k with
    | zero => rfl
    | succ k => exact ih k

theorem slots_f51RotateNat {t : List Nat} (h : 2 ≤ t.length) :
    slots (f51RotateNat t) = slotsRotate (slots t) := by
  match t with
  | t0 :: t1 :: ts =>
    funext k
    match k with
    | 0 => rfl
    | k + 1 => exact getD_append_zero ts k

/-- One outer iteration adds the parts of its products and reduces. -/
theorem slots_f51StepNat {b p t : List Nat} (hb : b.length < t.length) (hp : p.length < t.length)
    (hp0 : p ≠ []) (n0 x : Nat) :
    slots (f51StepNat b p n0 t x) = reduceSlots p n0 (slots t + partSlots x b) := by
  have hlen := length_f51RowNat x b t
  have hhead (u : List Nat) : u.headD 0 = slots u 0 := by cases u <;> rfl
  have hpos := List.length_pos_iff.mpr hp0
  rw [f51StepNat, slots_f51RotateNat (by rw [f51SumsNat, length_f51RowNat]; omega), f51SumsNat,
    slots_f51RowNat _ (hp.trans_eq hlen.symm), hhead, slots_f51RowNat x hb]
  rfl

/-- What is added to slots above slot 0 passes through the reduction, one slot down: the digit and the
carry depend on slot 0 alone. -/
theorem reduceSlots_add_up (p : List Nat) (n0 : Nat) (u w : Nat → Nat) :
    reduceSlots p n0 (u + slotsUp w) = reduceSlots p n0 u + w := by
  funext k
  cases k with
  | zero =>
    simp only [reduceSlots, slotsRotate, slotsUp, Pi.add_apply, Nat.add_zero]
    ring
  | succ k => exact Nat.add_right_comm ..

/-! ### All slots of a product -/

/-- The part `f` of the products a[i]·b[j], each in slot i + j. -/
def productPart (f : Nat → Nat) (a b : List Nat) : Nat → Nat := fun k =>
  ∑ ij ∈ Finset.HasAntidiagonal.antidiagonal k, f (a.getD ij.1 0 * b.getD ij.2 0)

/-- All that the rows of all limbs of a add, each row one slot above the row before. -/
def productSlots (a b : List Nat) : Nat → Nat :=
  productPart (· % 2 ^ 51) a b + slotsUp (productPart (· / 2 ^ 51) a b)

theorem productPart_comm (f : Nat → Nat) (a b : List Nat) : productPart f a b = productPart f b a := by
  funext k
  unfold productPart
  rw [← Finset.Nat.sum_antidiagonal_swap]
  simp only [Prod.fst_swap, Prod.snd_swap, Nat.mul_comm]

theorem productSlots_comm (a b : List Nat) : productSlots a b = productSlots b a := by
  rw [productSlots, productSlots, productPart_comm, productPart_comm (· / 2 ^ 51)]

theorem productPart_nil {f : Nat → Nat} (hf : f 0 = 0) (b : List Nat) : productPart f [] b = 0 := by
  funext k
  simp [productPart, hf]

theorem productPart_cons (f : Nat → Nat) (x : Nat) (a b : List Nat) :
    productPart f (x :: a) b = (fun k => f (x * b.getD k 0)) + slotsUp (productPart f a b) := by
  funext k
  cases k with
  | zero => simp [productPart, slotsUp]
  | succ k => 
    simp [productPart, slotsUp, Finset.Nat.sum_antidiagonal_succ]

theorem slotsUp_add (u w : Nat → Nat) : slotsUp (u + w) = slotsUp u + slotsUp w := by
  funext k
  cases k <;> rfl

theorem productSlots_nil (b : List Nat) : productSlots [] b = 0 := by
  rw [productSlots, productPart_nil (by simp), productPart_nil (by simp)]
  funext k
  cases k <;> rfl

theorem productSlots_cons (x : Nat) (a b : List Nat) :
    productSlots (x :: a) b = partSlots x b + slotsUp (productSlots a b) := by
  rw [productSlots, productPart_cons, productPart_cons, productSlots, partSlots, slotsUp_add,
    slotsUp_add, add_add_add_comm]

theorem length_f51RotateNat (t : List Nat) : (f51RotateNat t).length = t.length := by
  match t with
  | [] | [_] => rfl
  | _ :: _ :: _ => simp [f51RotateNat]

theorem length_f51StepNat (b p : List Nat) (n0 : Nat) (t : List Nat) (x : Nat) :
    (f51StepNat b p n0 t x).length = t.length := by
  rw [f51StepNat, length_f51RotateNat, f51SumsNat, length_f51RowNat, length_f51RowNat]

/-- The outer loop is the reduction, as often as a has limbs, of the slots with the whole product
added. -/
theorem slots_foldl_f51StepNat {b p : List Nat} (hp0 : p ≠ []) (n0 : Nat) (a : List Nat)
    {t : List Nat} (hb : b.length < t.length) (hp : p.length < t.length) :
    slots (a.foldl (f51StepNat b p n0) t)
      = (reduceSlots p n0)^[a.length] (slots t + productSlots a b) := by
  induction a generalizing t with
  | nil => rw [productSlots_nil]; rfl
  | cons x a ih =>
    have hlen := length_f51StepNat b p n0 t x
    rw [List.foldl_cons, ih (hb.trans_eq hlen.symm) (hp.trans_eq hlen.symm),
      slots_f51StepNat hb hp hp0, productSlots_cons, ← add_assoc, List.length_cons,
      Function.iterate_succ_apply, reduceSlots_add_up]

theorem length_foldl_f51StepNat (b p : List Nat) (n0 : Nat) (a t : List Nat) :
    (a.foldl (f51StepNat b p n0) t).length = t.length :=
  List.foldlRecOn a _ (motive := fun u => u.length = t.length) rfl
    fun u hu x _ => (length_f51StepNat b p n0 u x).trans hu

/-- On numbers the outer loop gives the same slots with the operands exchanged: the product's slots are
symmetric. -/
theorem foldl_f51StepNat_comm {a b p t : List Nat} (hp0 : p ≠ []) (n0 : Nat) (hab : a.length = b.length)
    (hb : b.length < t.length) (hp : p.length < t.length) :
    a.foldl (f51StepNat b p n0) t = b.foldl (f51StepNat a p n0) t := by
  refine eq_of_slots_eq ?_ ?_
  · rw [length_foldl_f51StepNat, length_foldl_f51StepNat]
  · rw [slots_foldl_f51StepNat hp0 n0 a hb hp, slots_foldl_f51StepNat hp0 n0 b (hab.trans_lt hb) hp,
      productSlots_comm, hab]

/-! ### MUL.F51 on words (44_float_cios.md R180) -/

/-- On slots and operands that hold numbers within the bounds the vector loop is the loop on numbers. -/
theorem foldl_f51Step_map {b p : List Nat} (cb : Canonical 51 b) (cp : Canonical 51 p)
    (hlb : b.length = 5) (hlp : p.length = 5) (n0 : Nat) {a : List Nat} (ca : Canonical 51 a)
    {t : List Nat} (ht : SlotsLe t f51Bound) :
    (a.map f51Limb).foldl (f51Step (b.map f51Limb) (p.map f51Limb) n0) (t.map f51Slot)
      = (a.foldl (f51StepNat b p n0) t).map f51Slot := by
  induction a generalizing t with
  | nil => rfl
  | cons x a ih =>
    obtain ⟨hx, ca⟩ := canonical_cons.mp ca
    rw [List.map_cons, List.foldl_cons, List.foldl_cons, f51Step_map cb cp hlb hlp ht hx]
    exact ih ca (f51StepNat_le cb cp hlb hlp ht hx)

section
variable {a b p : List Word} {n0 : Nat}

theorem F51Pre.swap (h : F51Pre a b p n0) : F51Pre b a p n0 := by
  obtain ⟨⟨ha, hb, hp⟩, hmod, hlt, hn⟩ := h
  exact ⟨⟨hb, ha, hp⟩, hmod, hlt.symm, hn⟩

variable (hla : a.length = 5) (hlb : b.length = 5) (hlp : p.length = 5) (h : F51Pre a b p n0)
include hlb hlp h

/-- The accumulator of MUL.F51 on valid words is that on their integers. -/
theorem f51Accumulate_eq_map : f51Accumulate a b p n0
    = ((a.map f64Int).foldl (f51StepNat (b.map f64Int) (p.map f64Int) n0)
        (List.replicate 11 0)).map f51Slot := by
  obtain ⟨⟨⟨hav, ca⟩, ⟨hbv, cb⟩, hpv, cp⟩, -⟩ := h
  have hzero : SlotsLe (List.replicate 11 0) f51Bound := by decide
  unfold f51Accumulate
  rw [map_vSplat_of_valid hav, map_vSplat_of_valid hbv, map_vSplat_of_valid hpv]
  exact foldl_f51Step_map cb cp (by simpa using hlb) (by simpa using hlp) n0 ca hzero

include hla

/-- MUL.F51 leaves the same unresolved words with its operands exchanged (U12). -/
theorem f51Mul_comm : f51Mul a b p n0 = f51Mul b a p n0 := by
  have hp0 : p.map f64Int ≠ [] := List.ne_nil_of_length_pos (by simp [hlp])
  unfold f51Mul
  rw [f51Accumulate_eq_map hlb hlp h, f51Accumulate_eq_map hla hlp h.swap,
    foldl_f51StepNat_comm hp0 n0 (by simp [hla, hlb]) (by simp [hlb]) (by simp [hlp])]

end

/-! ### The commands -/

/-- A command that is defined in both orders, with one result, leaves one state. -/
theorem commitLimbs_swap {d d' : Bool} {result result' : List Nat} (hd : d = true) (hd' : d' = true)
    (hresult : result = result') (op : BitVec 8) (inputs inputs' : List Word) (len : Nat) (rd : Reg)
    (s : State) :
    commitLimbs op inputs len d result rd s = commitLimbs op inputs' len d' result' rd s := by
  rw [commitLimbs_defined hd, commitLimbs_defined hd', hresult]

/-- The shared body of MUL.DC30 and MUL.DC29 with the operands exchanged. -/
theorem delayedCarry_comm {W : Nat} {s : State} {ra rb : Reg}
    (h : DcPre W (s.reg ra).i9 (s.reg rb).i9 s.modulus.i9 s.n0.toNat) (op : BitVec 8) (rd : Reg) :
    delayedCarry op W rd ra rb s = delayedCarry op W rd rb ra s :=
  commitLimbs_swap (decide_eq_true h) (decide_eq_true h.swap)
    (delayedCarryMul_comm (length_i9 _) (length_i9 _) (length_i9 _) h) ..

end Sys2Proof.Machine

open Sys2Proof Sys2Proof.Machine

/-- Settles O51: the preconditions and the result limbs are symmetric in the two sources, so the same
words are written to RD. -/
theorem productsCommute : Obligations.ProductsCommute := by
  unfold Obligations.ProductsCommute
  intro s rd ra rb
  refine ⟨fun h => ?_, fun h => ⟨?_, ?_⟩, fun h => ?_, fun h => ?_, fun h => ?_⟩
  · exact ⟨_, rfl, congrArg _ (commitLimbs_swap (decide_eq_true h.swap) (decide_eq_true h)
      (ciosMul_comm (length_i32 _) (length_i32 _) (length_limbs _ 9) h.swap) ..)⟩
  · exact ⟨_, rfl, congrArg _ (commitLimbs_swap (decide_eq_true h.swap) (decide_eq_true h)
      (bmMul_comm (length_i32 _) (length_i32 _) (length_i32 _) h.swap) ..)⟩
  · exact ⟨_, rfl, congrArg _ (commitLimbs_swap (decide_eq_true h.swap) (decide_eq_true h)
      (bmvMul_comm (length_i32 _) (length_i32 _) (length_i32 _) h.swap) ..)⟩
  · exact ⟨_, rfl, congrArg _ (commitLimbs_swap (decide_eq_true h.swap) (decide_eq_true h)
      (f51Mul_comm (length_f51Words _) (length_f51Words _) (length_f51Words _) h.swap) ..)⟩
  · exact ⟨_, rfl, congrArg _ (delayedCarry_comm h.swap _ rd)⟩
  · exact ⟨_, rfl, congrArg _ (delayedCarry_comm h.swap _ rd)⟩
end
